-- ==== Sys2Proof/Word.lean ====
section
/-! DEFINITION. The word type and its plainest arithmetic.

00_scope.md R8: a word is an integer in the range that WORD_BITS gives; words are never sliced and no rule
depends on a bit position, so a word is held as an integer and its range is a check (log 2). -/

namespace Sys2Proof

/-- A word: a signed integer (R6, R8). Which integers are words of a machine is `InWord`. -/
abbrev Word := Int

/-- `2 ^ (WORD_BITS - 1)`, the first integer above the word range (R6, R150). -/
def halfRange (wordBits : Nat) : Nat := 2 ^ (wordBits - 1)

/-- `x` is a word of `wordBits` bits: it lies in `[-2^(WORD_BITS-1), 2^(WORD_BITS-1)-1]` (R6, R150). -/
abbrev InWord (wordBits : Nat) (x : Int) : Prop :=
  -(halfRange wordBits : Int) ≤ x ∧ x < (halfRange wordBits : Int)

end Sys2Proof
end

