-- ==== Sys2Proof/Config.lean ====
section
/-! DEFINITION. What the construction of a machine fixes: the parameters of 00_scope.md R6, the directives and
action trees of custom handlers (40_execution_loop.md R108, R110), and the free values of the model: the handler
trees a machine's parameters do not list (log 3), and what a register holds of a number too wide for it (log 11). -/

namespace Sys2Proof

/-- MEM_POLICY (20_memory.md R52). -/
inductive MemPolicy
  | strict
  | extended
deriving DecidableEq, Repr

/-- OVERFLOW_POLICY (00_scope.md R6, 92_eei_decisions.md D3). -/
inductive OverflowPolicy
  | fault
  | wrap
deriving DecidableEq, Repr

/-- The result of a handler (40_execution_loop.md R108): `Continue`, `JumpTo(t)`, `Quit`,
`AdjustRelativeBase(delta)`. -/
inductive Directive
  | cont
  | jumpTo (target : Word)
  | quit
  | adjustRelativeBase (delta : Word)
deriving DecidableEq, Repr, Inhabited

/-- A custom handler: a finite, deterministic action tree over the handler interface
(40_execution_loop.md R110, R107). -/
inductive HAction
  /-- `Op[i].read()` -/
  | read (i : Nat) (k : Word → HAction)
  /-- `Op[i].write(v)` -/
  | write (i : Nat) (v : Word) (k : HAction)
  /-- `InPop()` -/
  | inPop (k : Option Word → HAction)
  /-- `OutPush(v)` -/
  | outPush (v : Word) (k : HAction)
  /-- `return d` -/
  | ret (d : Directive)
deriving Inhabited

/-- An expression of a written-out handler program: a literal, one of the values the handler has obtained so far
(`got 0` is the latest), or exact arithmetic on them. DESIGN CHOICE (log 3): the spec gives no notation for
handler programs. -/
inductive HExpr
  | lit (v : Int)
  | got (j : Nat)
  | add (a b : HExpr)
  | sub (a b : HExpr)
  | mul (a b : HExpr)
deriving DecidableEq, Repr

/-- The directive a written-out handler program returns. -/
inductive HReturn
  | cont
  | jumpTo (target : HExpr)
  | quit
  | adjustRelativeBase (delta : HExpr)
deriving DecidableEq, Repr

/-- A handler program as plain data, so that a machine's parameters can list it. Its meaning is the action tree
`codeTree` (Machine/Custom.lean). DESIGN CHOICE (log 3). -/
inductive HCode
  /-- `Op[i].read()`; the value becomes `got 0` -/
  | read (i : Nat) (k : HCode)
  | write (i : Nat) (v : HExpr) (k : HCode)
  /-- `InPop()`; on a value, the value becomes `got 0` and `onValue` goes on -/
  | inPop (onNone onValue : HCode)
  | outPush (v : HExpr) (k : HCode)
  | ifEq (a b : HExpr) (yes no : HCode)
  | ifLt (a b : HExpr) (yes no : HCode)
  | ret (d : HReturn)
deriving DecidableEq, Repr

/-- The parameters fixed when a machine is constructed (00_scope.md R6, 10_state.md R38), each with its default.
MEM_POLICY stands in `Memory`, where 10_state.md R20 lists it. -/
structure Params where
  /-- WORD_BITS -/
  wordBits : Nat := 64
  /-- OVERFLOW_POLICY -/
  overflow : OverflowPolicy := .fault
  /-- MEM_CAP in cells; `none` is unbounded -/
  memCap : Option Nat := none
  /-- OUTPUT_YIELD -/
  outputYield : Bool := false
  /-- The programs of `CUSTOM(0)`, `CUSTOM(1)`, …; a `CUSTOM(k)` beyond the list is `Config.unlistedHandler k` -/
  custom : List HCode := []
deriving DecidableEq, Repr

/-- A width at which the constants 0 and 1 that comparisons write are words (log 13). -/
abbrev Params.wf (p : Params) : Prop := 2 ≤ p.wordBits

/-- NUM_OPCODES (00_scope.md R6). -/
def numOpcodes : Nat := 100

/-- MAX_ARITY (00_scope.md R6). -/
def maxArity : Nat := 255

/-- FREE VALUE (log 3): the action tree of a `CUSTOM(k)` that the machine's parameters do not list. Nothing
constrains it, so a claim about such a handler holds for every tree. -/
opaque Config.unlistedHandler : Nat → HAction

/-- FREE VALUE (log 11): what the `ip` register holds of an address it has no room for. `heldIp` keeps it in the
register's range (10_state.md R22); nothing else constrains it. -/
opaque Config.unheldIp : Nat → Nat

/-- FREE VALUE (log 11): what the fault record's `info` holds of a number that is no word. `heldInfo` keeps it a word
(10_state.md R28); nothing else constrains it. -/
opaque Config.unheldInfo : Int → Int

end Sys2Proof
end

