-- ==== Sys2Proof/Syntax.lean ====
section
/-! DEFINITION. The instruction set as syntax: addressing modes, operands, handler kinds, the dispatch table's
entries, the fault causes, and one constructor of `Instr` for every row of opcode_table.json. -/

namespace Sys2Proof

/-- An addressing mode (30_encoding.md R83). -/
inductive Mode
  | position
  | immediate
  | relative
deriving DecidableEq, Repr

/-- The mode's digit (30_encoding.md R83). -/
def Mode.digit : Mode → Nat
  | .position => 0
  | .immediate => 1
  | .relative => 2

/-- An operand as the instruction stream gives it: a mode and a raw value (30_encoding.md R80, R82). -/
structure Operand where
  mode : Mode
  raw : Word
deriving DecidableEq, Repr

/-- A handler kind (10_state.md R29, R37): the ten reference kinds, and `CUSTOM(k)` with `k` in `0..0x7FFF`. -/
inductive HandlerKind
  | add | mul | inp | out | jt | jf | lt | eq | arb | halt
  | custom (k : Fin 0x8000)
deriving DecidableEq, Repr

/-- A valid entry of the dispatch table: arity 0..255 and kind (10_state.md R29). -/
structure Registration where
  arity : Fin 256
  kind : HandlerKind
deriving DecidableEq, Repr

/-- The dispatch table: 100 entries; `none` is the entry `valid = false`, arity 0, kind none
(10_state.md R29, R30; log 10). -/
abbrev Lut := Vector (Option Registration) 100

/-- An instruction as one step resolves it: its handler kind and its operands, as many as the registered arity
(30_encoding.md R80). The same kind may be registered with any arity (40_execution_loop.md R105, R111), so
every constructor holds a list of operands. -/
inductive Instr
  /-- 41_arithmetic.md R151 -/
  | add (ops : List Operand)
  /-- 41_arithmetic.md R152 -/
  | mul (ops : List Operand)
  /-- 42_io.md R162 (the table's IN) -/
  | inp (ops : List Operand)
  /-- 42_io.md R163 -/
  | out (ops : List Operand)
  /-- 43_jumps.md R170 -/
  | jt (ops : List Operand)
  /-- 43_jumps.md R171 -/
  | jf (ops : List Operand)
  /-- 44_compare.md R180 -/
  | lt (ops : List Operand)
  /-- 44_compare.md R181 -/
  | eq (ops : List Operand)
  /-- 45_base_and_halt.md R190 -/
  | arb (ops : List Operand)
  /-- 45_base_and_halt.md R191 -/
  | hlt (ops : List Operand)
  /-- 40_execution_loop.md R110 -/
  | custom (k : Fin 0x8000) (ops : List Operand)
deriving DecidableEq, Repr

/-- The handler kind the instruction runs. -/
def Instr.kind : Instr → HandlerKind
  | .add _ => .add
  | .mul _ => .mul
  | .inp _ => .inp
  | .out _ => .out
  | .jt _ => .jt
  | .jf _ => .jf
  | .lt _ => .lt
  | .eq _ => .eq
  | .arb _ => .arb
  | .hlt _ => .halt
  | .custom k _ => .custom k

/-- The instruction's operands, in operand order. -/
def Instr.operands : Instr → List Operand
  | .add ops => ops
  | .mul ops => ops
  | .inp ops => ops
  | .out ops => ops
  | .jt ops => ops
  | .jf ops => ops
  | .lt ops => ops
  | .eq ops => ops
  | .arb ops => ops
  | .hlt ops => ops
  | .custom _ ops => ops

/-- The instruction that runs `kind` on `ops`. -/
def Instr.ofKind (kind : HandlerKind) (ops : List Operand) : Instr :=
  match kind with
  | .add => .add ops
  | .mul => .mul ops
  | .inp => .inp ops
  | .out => .out ops
  | .jt => .jt ops
  | .jf => .jf ops
  | .lt => .lt ops
  | .eq => .eq ops
  | .arb => .arb ops
  | .halt => .hlt ops
  | .custom k => .custom k ops

/-- A fault cause (60_exceptions.md R201). -/
inductive FaultCause
  /-- a negative instruction word (R202) -/
  | invalidOpcode
  /-- no valid table entry for the opcode (R203) -/
  | unknownOpcode
  /-- a mode digit 3..9 (R204) -/
  | invalidMode
  /-- a write through an Immediate operand (R205) -/
  | incompatibleMode
  /-- STRICT only: an access at or beyond the length (R206) -/
  | outOfBounds
  /-- the new ip exceeds the length (R207) -/
  | unexpectedEndOfProgram
  /-- an access or jump at a negative address (R208) -/
  | negativeAddress
  /-- FAULT policy: a result outside the word range (R209) -/
  | arithmeticOverflow
  /-- a growth write at or beyond MEM_CAP (R210) -/
  | capacityExceeded
  /-- a handler access to an operand beyond the arity (R211) -/
  | operandIndexOutOfRange
deriving DecidableEq, Repr

/-- What `raise F(info)` carries (00_scope.md R10): the cause and its info. -/
structure Trap where
  cause : FaultCause
  info : Int
deriving DecidableEq, Repr

/-- The mode digits of an operand list read as one number, operand 0 least significant: the canonical
`w div 100` of 30_encoding.md R90. -/
def modeNumber : List Operand → Nat
  | [] => 0
  | o :: rest => o.mode.digit + 10 * modeNumber rest

end Sys2Proof
end

