-- ==== Sys2Proof/WellFormed.lean ====
section
/-! DEFINITION. When an instruction can stand in memory at an opcode of a machine. -/

namespace Sys2Proof

/-- The opcode is one of the 100 (30_encoding.md R81, R87). -/
def opcodeOk (c : Nat) : Bool := decide (c < numOpcodes)

/-- There are no more operands than an arity can say (00_scope.md R6: MAX_ARITY). -/
def arityOk (i : Instr) : Bool := decide (i.operands.length ≤ maxArity)

/-- Every raw value is a word (30_encoding.md R80, R85). -/
def rawsOk (p : Params) (i : Instr) : Bool := i.operands.all fun o => decide (InWord p.wordBits o.raw)

/-- The canonical instruction word (30_encoding.md R90) is a word: a mode digit far out needs a large word. -/
def wordOk (p : Params) (c : Nat) (i : Instr) : Bool :=
  decide (c + 100 * modeNumber i.operands < halfRange p.wordBits)

/-- Instruction `i` at opcode `c` is well formed for a machine with parameters `p`. -/
def Instr.wf (p : Params) (c : Nat) (i : Instr) : Bool :=
  opcodeOk c && arityOk i && rawsOk p i && wordOk p c i

end Sys2Proof
end

