-- ==== Sys2Proof/Decode.lean ====
section
/-! DEFINITION. Decoding an instruction word and its operands by the dispatch table (30_encoding.md R80-R88,
40_execution_loop.md R113-R116), total, rejecting by the spec's own causes; then the encoder (R90) and the
reference registration (R87, R134). -/

namespace Sys2Proof

/-- `digit_i(q) = floor(q / 10^i) mod 10` (00_scope.md R9). -/
def decimalDigit (i q : Nat) : Nat := q / 10 ^ i % 10

/-- The mode of a mode digit; `none` for 3..9 (30_encoding.md R83). -/
def modeOfDigit : Nat → Option Mode
  | 0 => some .position
  | 1 => some .immediate
  | 2 => some .relative
  | _ => none

/-- Build operand `i` (40_execution_loop.md R100, R101, R116): its raw cell is read first, then its mode digit
is checked. `cell j` reads the cell `j` places after the instruction word. -/
def buildOperand (cell : Nat → Except Trap Word) (q i : Nat) : Except Trap Operand :=
  match cell (1 + i) with
  | .error t => .error t
  | .ok raw =>
    match modeOfDigit (decimalDigit i q) with
    | none => .error ⟨.invalidMode, 10 * i + decimalDigit i q⟩
    | some mode => .ok ⟨mode, raw⟩

/-- Build `n` operands from index `i` on, in ascending order; the first that fails decides the fault
(40_execution_loop.md R116, 60_exceptions.md R215). -/
def buildOperands (cell : Nat → Except Trap Word) (q : Nat) : (i n : Nat) → Except Trap (List Operand)
  | _, 0 => .ok []
  | i, n + 1 =>
    match buildOperand cell q i with
    | .error t => .error t
    | .ok o =>
      match buildOperands cell q (i + 1) n with
      | .error t => .error t
      | .ok rest => .ok (o :: rest)

/-- The table's entry for the opcode of a non-negative word (30_encoding.md R81, R87). -/
def lutEntry (lut : Lut) (w : Nat) : Option Registration :=
  lut[w % 100]'(Nat.mod_lt _ (by decide))

/-- Steps 1 to 4 of 40_execution_loop.md R112, over a reader of the instruction's cells: fetch (R113), decode
(R114), lookup (R115), operand build (R116). -/
def decodeFrom (lut : Lut) (cell : Nat → Except Trap Word) : Except Trap Instr :=
  match cell 0 with
  | .error t => .error t
  | .ok w =>
    if w < 0 then .error ⟨.invalidOpcode, w⟩
    else
      match lutEntry lut w.toNat with
      | none => .error ⟨.unknownOpcode, (w.toNat % 100 : Nat)⟩
      | some e =>
        match buildOperands cell (w.toNat / 100) 0 e.arity with
        | .error t => .error t
        | .ok ops => .ok (Instr.ofKind e.kind ops)

/-- Decode a list of cells, the instruction word first; cells past its end read as 0, as they do under the
EXTENDED policy (20_memory.md R53). -/
def decode (lut : Lut) (cells : List Word) : Except Trap Instr :=
  decodeFrom lut fun j => .ok (cells.getD j 0)

/-- The canonical instruction word of opcode `c` (30_encoding.md R90). -/
def canonicalWord (c : Nat) (ops : List Operand) : Nat := c + 100 * modeNumber ops

/-- The cells of instruction `i` at opcode `c`: its word and its raw values (30_encoding.md R80, R90). -/
def encodeAt (c : Nat) (i : Instr) : List Word :=
  (canonicalWord c i.operands : Int) :: i.operands.map (·.raw)

/-- The opcodes, from `c` on, that run `i` under the table: registered with its kind and its number of operands. -/
def opcodesFor (i : Instr) : (c : Nat) → List (Option Registration) → List Nat
  | _, [] => []
  | c, e :: rest =>
    match e with
    | some r =>
      if r.kind = i.kind ∧ r.arity.val = i.operands.length then c :: opcodesFor i (c + 1) rest
      else opcodesFor i (c + 1) rest
    | none => opcodesFor i (c + 1) rest

/-- The cells of an instruction under a table, at the first opcode that runs it; `none` if no opcode does. -/
def encode (lut : Lut) (i : Instr) : Option (List Word) :=
  match opcodesFor i 0 lut.toList with
  | [] => none
  | c :: _ => some (encodeAt c i)

/-- The reference assignment (30_encoding.md R87, 40_execution_loop.md R134): opcode, arity, kind, in the order
of REFERENCE_ISA. -/
def referenceIsa : List (Nat × Registration) :=
  [(1, ⟨3, .add⟩), (2, ⟨3, .mul⟩), (3, ⟨1, .inp⟩), (4, ⟨1, .out⟩), (5, ⟨2, .jt⟩), (6, ⟨2, .jf⟩),
   (7, ⟨3, .lt⟩), (8, ⟨3, .eq⟩), (9, ⟨1, .arb⟩), (99, ⟨0, .halt⟩)]

/-- A table with one entry overwritten; an index above 99 changes nothing. -/
def lutSet (lut : Lut) (c : Nat) (r : Registration) : Lut :=
  lut.setIfInBounds c (some r)

/-- The table of a new machine: every entry invalid (10_state.md R29). -/
def emptyLut : Lut := Vector.replicate 100 none

/-- The table after REFERENCE_ISA on a new machine (40_execution_loop.md R134). -/
def referenceLut : Lut := referenceIsa.foldl (fun lut e => lutSet lut e.1 e.2) emptyLut

/-- The registration under which the host's questions about opcode_table.json are answered: the reference rows
(30_encoding.md R93), and the generic row at every opcode no reference row uses, as CUSTOM(0) with arity 0
(DESIGN CHOICE, log 17). -/
def tableEntry (c : Nat) : Registration :=
  match referenceIsa.find? (fun e => e.1 == c) with
  | some e => e.2
  | none => ⟨0, .custom 0⟩

/-- The signed word of `bits` bits whose two's-complement bits are the low bits of `w` (log 17). -/
def signedCell (bits w : Nat) : Word :=
  if w % 2 ^ bits < halfRange bits then (w % 2 ^ bits : Nat) else (w % 2 ^ bits : Nat) - (2 ^ bits : Nat)

/-- The first `n` cells of a number laid out as cells of `bits` bits, the first cell lowest. -/
def cellsOfNumber (bits : Nat) : (n w : Nat) → List Word
  | 0, _ => []
  | n + 1, w => signedCell bits w :: cellsOfNumber bits n (w / 2 ^ bits)

/-- The cells of the longest reference instruction (30_encoding.md R89, format F3). -/
def longestInstruction : Nat := 4

/-- The cells of an instruction whose bits are the low `nbits` bits of `w`, every bit above them 0. -/
def tableCells (bits nbits w : Nat) : List Word :=
  cellsOfNumber bits longestInstruction (w % 2 ^ nbits)

/-- The registration of the opcode that a cell selects, for the host's questions (log 17). -/
def tableLutFor (lut : Lut) (w : Word) : Lut :=
  lutSet lut (w.toNat % 100) (tableEntry (w.toNat % 100))

/-- The instruction the decoder reads from an instruction whose bits are `w`, numbered as opcode_table.json numbers
them, at the default WORD_BITS of 64; `none` where it refuses (log 17). -/
def decodeTableWord (nbits w : Nat) : Option Instr :=
  let cells := tableCells 64 nbits w
  match decode (tableLutFor emptyLut (cells.headD 0)) cells with
  | .ok i => some i
  | .error _ => none

end Sys2Proof
end

