-- ==== Sys2Proof/Machine/State.lean ====
section
/-! DEFINITION. The machine's state (10_state.md R20), its reset (70_reset_and_hazards.md R230), and the reasons a
step of the MODEL can stop. Every fault of the spec is a next state (60_exceptions.md R212), not one of these. -/

namespace Sys2Proof.Machine

/-- A memory cell that does not hold 0: its address and its word (20_memory.md R50). -/
abbrev Cell := Nat × Word

/-- memory_subsystem (20_memory.md R50, R52). An allocated cell that is not listed holds 0, and so does every cell
a growth write skips (R56). -/
structure Memory where
  /-- the cells that do not hold 0, addresses strictly rising -/
  cells : List Cell
  /-- the length `L` -/
  len : Nat
  /-- MEM_POLICY -/
  policy : MemPolicy
deriving DecidableEq, Repr

/-- The canonical form: addresses strictly rising, no listed 0, every listed address allocated. -/
abbrev Memory.wf (m : Memory) : Prop :=
  m.cells.Pairwise (fun x y => x.1 < y.1) ∧ ∀ c ∈ m.cells, c.2 ≠ 0 ∧ c.1 < m.len

/-- pause_resume_state_machine (10_state.md R27). -/
inductive Status
  | halted
  | running
  | faulted
deriving DecidableEq, Repr

/-- The fault record (10_state.md R28): `code` (as the cause it names; none is code 0), `fip` (a value of the `ip` register)
and `info` (a word), widths that every step keeps (`State.faultOk`). -/
structure FaultRecord where
  cause : Option FaultCause
  fip : Nat
  info : Int
deriving DecidableEq, Repr

/-- `{0, 0, 0}`: no fault (10_state.md R28). -/
def FaultRecord.clear : FaultRecord := ⟨none, 0, 0⟩

/-- The architectural state of one machine (10_state.md R20), and the parameters its construction fixed (R38,
log 1), which nothing writes. -/
structure State where
  /-- construction parameters (00_scope.md R6, log 1) -/
  params : Params
  /-- memory_subsystem (20_memory.md R50) -/
  mem : Memory
  /-- program_counter_register (10_state.md R22): below `2^(WORD_BITS-1)`, which every step keeps (`State.ipOk`; log 11) -/
  ip : Nat
  /-- relative_base_register (10_state.md R25) -/
  rb : Word
  /-- instruction_dispatch_lut (10_state.md R29) -/
  lut : Lut
  /-- run status (10_state.md R27) -/
  status : Status
  /-- fault record (10_state.md R28) -/
  fault : FaultRecord
  /-- input channel, oldest first (10_state.md R32) -/
  inq : List Word
  /-- output channel, oldest first (10_state.md R32) -/
  outq : List Word
  /-- output-yield pending latch (10_state.md R33) -/
  oyp : Bool
deriving DecidableEq, Repr

/-- A machine right after construction with a given memory (70_reset_and_hazards.md R230): every element but the
image and the policy at its reset value. -/
def State.constructed (p : Params) (m : Memory) : State where
  params := p
  mem := m
  ip := 0
  rb := 0
  lut := emptyLut
  status := .halted
  fault := .clear
  inq := []
  outq := []
  oyp := false

/-- The machine right after reset: constructed with the default parameters, the empty image and the EXTENDED policy
(70_reset_and_hazards.md R230; the image and the policy are log 8). -/
def State.reset : State := State.constructed {} ⟨[], 0, .extended⟩

/-- The reasons a step stops with a fault of the MODEL. There is none, which is safe: every fault the spec names is
taken as a next state with `status = FAULTED` (60_exceptions.md R212, log 6), so nobody raises one of these. -/
inductive Fault
deriving DecidableEq, Repr

/-- The reasons the model gives an instruction no meaning. -/
inductive Refusal
  /-- Raised by a refused arm of `exec` for an instruction that has no meaning yet; safe. No arm raises it now. -/
  | notModelled (mnemonic : String)
deriving DecidableEq, Repr

end Sys2Proof.Machine
end

