-- ==== Sys2Proof/Machine/Ops.lean ====
section
/-! DEFINITION. The named operations every instruction shares: memory access (20_memory.md R53, R54), word
arithmetic (41_arithmetic.md R150), the channels (42_io.md R160, R161), the fetch, the application of a directive
with the end check (40_execution_loop.md R118-R122), and taking a fault (60_exceptions.md R212). -/

namespace Sys2Proof.Machine

/-! ### Memory -/

/-- The word at an address of a cell list; an unlisted cell holds 0. -/
def cellAt : List Cell → Nat → Word
  | [], _ => 0
  | (b, v) :: rest, a => if a = b then v else cellAt rest a

/-- A cell list with one address set, kept in the canonical form: writing 0 removes the entry. -/
def setCell : List Cell → Nat → Word → List Cell
  | [], a, v => if v = 0 then [] else [(a, v)]
  | (b, u) :: rest, a, v =>
    if a < b then (if v = 0 then (b, u) :: rest else (a, v) :: (b, u) :: rest)
    else if a = b then (if v = 0 then rest else (a, v) :: rest)
    else (b, u) :: setCell rest a v

/-- The stored content `M[a]` of cell `a` (00_scope.md R10); an unallocated cell counts as 0. -/
def Memory.cell (m : Memory) (a : Nat) : Word := if a < m.len then cellAt m.cells a else 0

/-- `MemRead(a)` (20_memory.md R53). -/
def Memory.read (m : Memory) (a : Int) : Except Trap Word :=
  if a < 0 then .error ⟨.negativeAddress, a⟩
  else if a < m.len then .ok (cellAt m.cells a.toNat)
  else
    match m.policy with
    | .strict => .error ⟨.outOfBounds, a⟩
    | .extended => .ok 0

/-- `a >= MEM_CAP` (20_memory.md R58). -/
def beyondCap (p : Params) (a : Int) : Bool :=
  match p.memCap with
  | none => false
  | some cap => decide ((cap : Int) ≤ a)

/-- `MemWrite(a, v)` (20_memory.md R54): the memory after the write. -/
def Memory.write (p : Params) (m : Memory) (a : Int) (v : Word) : Except Trap Memory :=
  if a < 0 then .error ⟨.negativeAddress, a⟩
  else if a < m.len then .ok { m with cells := setCell m.cells a.toNat v }
  else
    match m.policy with
    | .strict => .error ⟨.outOfBounds, a⟩
    | .extended =>
      if beyondCap p a then .error ⟨.capacityExceeded, a⟩
      else .ok { m with cells := setCell m.cells a.toNat v, len := a.toNat + 1 }

/-! ### Word arithmetic -/

/-- `((x + 2^(W-1)) mod 2^W) - 2^(W-1)` with `W = WORD_BITS` (41_arithmetic.md R150). -/
def wrapWord (wordBits : Nat) (x : Int) : Word :=
  (x + (halfRange wordBits : Int)) % ((2 ^ wordBits : Nat) : Int) - (halfRange wordBits : Int)

/-- An exact result made a word: itself if it is in range, else by OVERFLOW_POLICY (41_arithmetic.md R150). -/
def settle (p : Params) (x : Int) : Except Trap Word :=
  if InWord p.wordBits x then .ok x
  else
    match p.overflow with
    | .fault => .error ⟨.arithmeticOverflow, 0⟩
    | .wrap => .ok (wrapWord p.wordBits x)

/-- `add_W(a, b)` (41_arithmetic.md R150). -/
def addW (p : Params) (a b : Word) : Except Trap Word := settle p (a + b)

/-- `mul_W(a, b)` (41_arithmetic.md R150). -/
def mulW (p : Params) (a b : Word) : Except Trap Word := settle p (a * b)

/-! ### Handlers

A handler runs on the state and ends with a value or with a raise; either way the state holds every effect made
so far (40_execution_loop.md R123). -/

/-- What runs inside a step (40_execution_loop.md R107): a value or a `Trap`, and the state either way. -/
abbrev Handler (α : Type) := EStateM Trap State α

/-- An operation without effect, inside a handler. -/
def liftTrap {α : Type} : Except Trap α → Handler α
  | .ok a => fun s => .ok a s
  | .error t => fun s => .error t s

/-- `InPop()` (42_io.md R160). -/
def inPop : Handler (Option Word) := fun s =>
  match s.inq with
  | [] => .ok none s
  | v :: rest => .ok (some v) { s with inq := rest }

/-- `OutPush(v)` (42_io.md R161). -/
def outPush (v : Word) : Handler Unit := fun s => .ok () { s with outq := s.outq ++ [v] }

/-! ### The end of a step -/

/-- How a step that raised nothing ends (40_execution_loop.md R112). -/
inductive StepEnd
  | next
  | stop
deriving DecidableEq, Repr

/-- The number of values of the `ip` register, which is `WORD_BITS - 1` bits wide and unsigned (10_state.md R22). -/
def ipRange (p : Params) : Nat := halfRange p.wordBits

/-- A completed step may leave `ip` at `a`: `a` lies in `0 .. L` and the register has room for it (10_state.md R22,
40_execution_loop.md R122; log 11). -/
abbrev ipFits (p : Params) (len a : Nat) : Prop := a ≤ len ∧ a < ipRange p

/-- What the `ip` register holds of an address: the address where it has room for it, else a free value of the
register's width (log 11). -/
def heldIp (p : Params) (a : Nat) : Nat := if a < ipRange p then a else Config.unheldIp a % ipRange p

/-- What the fault record's `info`, a word (10_state.md R28), holds of a number: the number where it is a word, else a
free word (log 11). -/
def heldInfo (p : Params) (x : Int) : Word :=
  if InWord p.wordBits x then x else wrapWord p.wordBits (Config.unheldInfo x)

/-- `ip <- a` and the end check (40_execution_loop.md R122), with `L` the length after this step's writes: `a > L`
raises with the new `ip`, which is kept. So does an address the register has no room for, since no completed step
reaches the top of its range (10_state.md R24; log 11). -/
def moveIp (a : Nat) : Handler StepEnd := fun s =>
  if ipFits s.params s.mem.len a then .ok .next { s with ip := a }
  else .error ⟨.unexpectedEndOfProgram, heldIp s.params a⟩ { s with ip := heldIp s.params a }

/-- Apply a directive (40_execution_loop.md R118-R121) to a step that began at `ip0` with arity `n`, with the end
check. A raise leaves `ip` and `rb` as they stand at that point (R119, R120, R122). -/
def applyDirective (ip0 n : Nat) : Directive → Handler StepEnd
  | .quit => fun s => .ok .stop s
  | .cont => moveIp (ip0 + 1 + n)
  | .jumpTo t => if t < 0 then throw ⟨.negativeAddress, t⟩ else moveIp t.toNat
  | .adjustRelativeBase x => do
    let s ← get
    let rb' ← liftTrap (addW s.params s.rb x)
    set { s with rb := rb' }
    moveIp (ip0 + 1 + n)

/-- TAKING A FAULT (60_exceptions.md R212): the record of three words (10_state.md R28) is written and the status
becomes FAULTED, and nothing else happens. `ip0` is `ip` at the start of the faulting step. There is no return from a
fault (R217). -/
def enterFault (ip0 : Nat) (t : Trap) (s : State) : State :=
  { s with fault := ⟨some t.cause, ip0, heldInfo s.params t.info⟩, status := .faulted }

/-- Steps 5 to 7 of 40_execution_loop.md R112 and what RUN does with their end (R124): run the handler, apply its
directive; STOP makes the status HALTED, a raise takes the fault. -/
def completeStep (ip0 n : Nat) (h : Handler Directive) (s : State) : State :=
  match h.bind (applyDirective ip0 n) s with
  | .ok .next s' => s'
  | .ok .stop s' => { s' with status := .halted }
  | .error t s' => enterFault ip0 t s'

/-! ### The fetch -/

/-- Steps 1 to 4 of 40_execution_loop.md R112: the instruction at `ip`, through `MemRead` on `ip + j` (20_memory.md
R61). -/
def fetchInstr (s : State) : Except Trap Instr :=
  decodeFrom s.lut fun j => s.mem.read ((s.ip + j : Nat) : Int)

/-! ### Placing cells from outside the machine -/

/-- The cells of an image from address `a` on, zeros left out (20_memory.md R73). -/
def imageCells : (a : Nat) → List Word → List Cell
  | _, [] => []
  | a, w :: rest => if w = 0 then imageCells (a + 1) rest else (a, w) :: imageCells (a + 1) rest

/-- Cells overwritten from address `a` on. -/
def placeCells : List Cell → (a : Nat) → List Word → List Cell
  | cells, _, [] => cells
  | cells, a, w :: rest => placeCells (setCell cells a w) (a + 1) rest

end Sys2Proof.Machine
end

