-- ==== Sys2Proof/Machine/Operands.lean ====
section
/-! DEFINITION. operand_resolver: operand records, effective addresses, and reads and writes through them
(40_execution_loop.md R100-R106). Every operand form of the spec is here. -/

namespace Sys2Proof.Machine

/-- An operand record `Op[i]` (40_execution_loop.md R100). -/
structure Op where
  mode : Mode
  raw : Word
  rbSnap : Word
deriving DecidableEq, Repr

/-- Bind the decoded operands to a snapshot of the relative base (40_execution_loop.md R100). -/
def bindOps (rb : Word) (ops : List Operand) : List Op := ops.map fun o => ⟨o.mode, o.raw, rb⟩

/-- The effective address of a Relative operand (40_execution_loop.md R104). -/
def Op.relativeAddress (p : Params) (o : Op) : Except Trap Int := addW p o.raw o.rbSnap

/-- What `Op[i].read()` returns on a state (40_execution_loop.md R102). -/
def readOperand (s : State) (ops : List Op) (i : Nat) : Except Trap Word :=
  match ops[i]? with
  | none => .error ⟨.operandIndexOutOfRange, i⟩
  | some o =>
    match o.mode with
    | .immediate => .ok o.raw
    | .position => s.mem.read o.raw
    | .relative =>
      match o.relativeAddress s.params with
      | .error t => .error t
      | .ok a => s.mem.read a

/-- The address `Op[i].write(v)` stores to (40_execution_loop.md R103, R104). -/
def targetOperand (p : Params) (ops : List Op) (i : Nat) : Except Trap Int :=
  match ops[i]? with
  | none => .error ⟨.operandIndexOutOfRange, i⟩
  | some o =>
    match o.mode with
    | .immediate => .error ⟨.incompatibleMode, i⟩
    | .position => .ok o.raw
    | .relative => o.relativeAddress p

/-- The memory after `Op[i].write(v)` (40_execution_loop.md R103). -/
def storeOperand (s : State) (ops : List Op) (i : Nat) (v : Word) : Except Trap Memory :=
  match targetOperand s.params ops i with
  | .error t => .error t
  | .ok a => s.mem.write s.params a v

/-- `Op[i].read()` in a handler. -/
def opRead (ops : List Op) (i : Nat) : Handler Word := fun s => liftTrap (readOperand s ops i) s

/-- `Op[i].write(v)` in a handler. -/
def opWrite (ops : List Op) (i : Nat) (v : Word) : Handler Unit := fun s =>
  match storeOperand s ops i v with
  | .ok m => .ok () { s with mem := m }
  | .error t => .error t s

/-- An instruction's own part of a step: its handler on the operands bound to `rb`, its directive, the end check
(40_execution_loop.md R112, steps 5 to 7). -/
def runHandler (ops : List Operand) (h : List Op → Handler Directive) (s : State) :
    Host.Outcome State Fault Refusal :=
  .next (completeStep s.ip ops.length (h (bindOps s.rb ops)) s)

end Sys2Proof.Machine
end

