-- ==== Sys2Proof/Machine/Arithmetic.lean ====
section
/-! DEFINITION. ADD and MUL (41_arithmetic.md R151, R152). -/

namespace Sys2Proof.Machine

/-- The handler of both: read a, read b, combine, write out, Continue (41_arithmetic.md R151, R152). -/
def arithmeticHandler (f : Params → Word → Word → Except Trap Word) (ops : List Op) : Handler Directive := do
  let a ← opRead ops 0
  let b ← opRead ops 1
  let s ← get
  let r ← liftTrap (f s.params a b)
  opWrite ops 2 r
  return .cont

/-- ADD a, b, out (41_arithmetic.md R151). -/
def execAdd (ops : List Operand) (s : State) : Host.Outcome State Fault Refusal :=
  runHandler ops (arithmeticHandler addW) s

/-- MUL a, b, out (41_arithmetic.md R152). -/
def execMul (ops : List Operand) (s : State) : Host.Outcome State Fault Refusal :=
  runHandler ops (arithmeticHandler mulW) s

end Sys2Proof.Machine
end

