-- ==== Sys2Proof/Machine/BaseHalt.lean ====
section
/-! DEFINITION. ARB and HLT (45_base_and_halt.md R190, R191). -/

namespace Sys2Proof.Machine

/-- ARB's handler (45_base_and_halt.md R190); the directive moves `rb` and `ip`. -/
def arbHandler (ops : List Op) : Handler Directive := do
  let x ← opRead ops 0
  return .adjustRelativeBase x

/-- HLT's handler (45_base_and_halt.md R191): it touches no operand, whatever arity it is registered with. -/
def haltHandler (_ops : List Op) : Handler Directive := return .quit

/-- ARB delta (45_base_and_halt.md R190). -/
def execArb (ops : List Operand) (s : State) : Host.Outcome State Fault Refusal :=
  runHandler ops arbHandler s

/-- HLT (45_base_and_halt.md R191). -/
def execHlt (ops : List Operand) (s : State) : Host.Outcome State Fault Refusal :=
  runHandler ops haltHandler s

end Sys2Proof.Machine
end

