-- ==== Sys2Proof/Machine/Flags.lean ====
section
/-! DEFINITION. The core has no flags or condition codes (10_state.md R35): comparisons write a 1/0 word and
conditional jumps test a word. Those two conventions are here. -/

namespace Sys2Proof.Machine

/-- The 1/0 result of a comparison (10_state.md R35, 44_compare.md R180, R181). -/
def truthWord (b : Bool) : Word := if b then 1 else 0

/-- `a < b`, signed (44_compare.md R180). -/
def lessThan (a b : Word) : Bool := decide (a < b)

/-- `a = b`, of the full word (44_compare.md R181). -/
def sameWord (a b : Word) : Bool := decide (a = b)

/-- The condition of a conditional jump holds: the word is not 0 (43_jumps.md R170). -/
def conditionHolds (c : Word) : Bool := decide (c ≠ 0)

end Sys2Proof.Machine
end

