-- ==== Sys2Proof/Machine/Compare.lean ====
section
/-! DEFINITION. LT and EQ (44_compare.md R180, R181; log 19). -/

namespace Sys2Proof.Machine

/-- The handler of both: read a, read b, write 1 or 0, Continue (44_compare.md R180, R181). -/
def compareHandler (test : Word → Word → Bool) (ops : List Op) : Handler Directive := do
  let a ← opRead ops 0
  let b ← opRead ops 1
  opWrite ops 2 (truthWord (test a b))
  return .cont

/-- LT a, b, out (44_compare.md R180). -/
def execLt (ops : List Operand) (s : State) : Host.Outcome State Fault Refusal :=
  runHandler ops (compareHandler lessThan) s

/-- EQ a, b, out (44_compare.md R181). -/
def execEq (ops : List Operand) (s : State) : Host.Outcome State Fault Refusal :=
  runHandler ops (compareHandler sameWord) s

end Sys2Proof.Machine
end

