-- ==== Sys2Proof/Machine/Custom.lean ====
section
/-! DEFINITION. CUSTOM(k): the interpretation of an action tree (40_execution_loop.md R110), the tree of a handler
program written as data, and the family a machine's parameters give (log 3). -/

namespace Sys2Proof.Machine

/-- An integer a handler hands over as a word. It is the integer itself when that is a word (log 4). -/
def castWord (v : Int) : Handler Word := fun s => .ok (wrapWord s.params.wordBits v) s

/-- A directive whose argument is made a word (log 4). -/
def castDirective : Directive → Handler Directive
  | .cont => return .cont
  | .jumpTo t => do
    let t' ← castWord t
    return .jumpTo t'
  | .quit => return .quit
  | .adjustRelativeBase x => do
    let x' ← castWord x
    return .adjustRelativeBase x'

/-- Interpret an action tree in order; a raise in any primitive ends it (40_execution_loop.md R110). -/
def runAction (ops : List Op) : HAction → Handler Directive
  | .read i k => do
    let v ← opRead ops i
    runAction ops (k v)
  | .write i v k => do
    let v' ← castWord v
    opWrite ops i v'
    runAction ops k
  | .inPop k => do
    let v ← inPop
    runAction ops (k v)
  | .outPush v k => do
    let v' ← castWord v
    outPush v'
    runAction ops k
  | .ret d => castDirective d

/-- The exact value of an expression; `got` is the values obtained so far, the latest first, and one never obtained
counts as 0 (log 3). -/
def exprValue (got : List Word) : HExpr → Int
  | .lit v => v
  | .got j => got.getD j 0
  | .add a b => exprValue got a + exprValue got b
  | .sub a b => exprValue got a - exprValue got b
  | .mul a b => exprValue got a * exprValue got b

/-- The directive a handler program returns. -/
def returnDirective (got : List Word) : HReturn → Directive
  | .cont => .cont
  | .jumpTo t => .jumpTo (exprValue got t)
  | .quit => .quit
  | .adjustRelativeBase x => .adjustRelativeBase (exprValue got x)

/-- The action tree a handler program stands for, given the values obtained so far. -/
def codeTree : HCode → List Word → HAction
  | .read i k, got => .read i fun v => codeTree k (v :: got)
  | .write i v k, got => .write i (exprValue got v) (codeTree k got)
  | .inPop onNone onValue, got =>
    .inPop fun
      | none => codeTree onNone got
      | some v => codeTree onValue (v :: got)
  | .outPush v k, got => .outPush (exprValue got v) (codeTree k got)
  | .ifEq a b yes no, got =>
    if exprValue got a = exprValue got b then codeTree yes got else codeTree no got
  | .ifLt a b yes no, got =>
    if exprValue got a < exprValue got b then codeTree yes got else codeTree no got
  | .ret d, got => .ret (returnDirective got d)

/-- The tree of `CUSTOM(k)` on a machine (40_execution_loop.md R110): the listed program's, else the free one
(log 3). -/
def customTree (p : Params) (k : Nat) : HAction :=
  match p.custom[k]? with
  | some code => codeTree code []
  | none => Config.unlistedHandler k

/-- CUSTOM(k)'s handler on a machine with parameters `p`. -/
def customHandler (p : Params) (k : Nat) (ops : List Op) : Handler Directive := runAction ops (customTree p k)

/-- CUSTOM(k) (40_execution_loop.md R110). -/
def execCustom (k : Fin 0x8000) (ops : List Operand) (s : State) : Host.Outcome State Fault Refusal :=
  runHandler ops (customHandler s.params k) s

end Sys2Proof.Machine
end

