-- ==== Sys2Proof/Machine/InputOutput.lean ====
section
/-! DEFINITION. IN and OUT (42_io.md R162, R163). -/

namespace Sys2Proof.Machine

/-- IN's handler: an empty channel yields with `Quit`; otherwise the popped value is written (42_io.md R162). -/
def inHandler (ops : List Op) : Handler Directive := do
  match ← inPop with
  | none => return .quit
  | some v =>
    opWrite ops 0 v
    return .cont

/-- `oyp <- b` (10_state.md R33). -/
def setOyp (b : Bool) : Handler Unit := fun s => .ok () { s with oyp := b }

/-- OUT's handler, under both values of OUTPUT_YIELD (42_io.md R163). -/
def outHandler (ops : List Op) : Handler Directive := do
  let s ← get
  if s.params.outputYield then
    if s.oyp then
      setOyp false
      return .cont
    else
      let v ← opRead ops 0
      outPush v
      setOyp true
      return .quit
  else
    let v ← opRead ops 0
    outPush v
    return .cont

/-- IN dst (42_io.md R162). -/
def execIn (ops : List Operand) (s : State) : Host.Outcome State Fault Refusal :=
  runHandler ops inHandler s

/-- OUT src (42_io.md R163). -/
def execOut (ops : List Operand) (s : State) : Host.Outcome State Fault Refusal :=
  runHandler ops outHandler s

end Sys2Proof.Machine
end

