-- ==== Sys2Proof/Machine/Jumps.lean ====
section
/-! DEFINITION. JT and JF (43_jumps.md R170, R171; log 19). -/

namespace Sys2Proof.Machine

/-- The handler of both: read the condition, read the target even when the jump is not taken, then choose
(43_jumps.md R170, R171; log 19). -/
def jumpHandler (taken : Word → Bool) (ops : List Op) : Handler Directive := do
  let c ← opRead ops 0
  let t ← opRead ops 1
  return if taken c then .jumpTo t else .cont

/-- JT cond, target (43_jumps.md R170). -/
def execJt (ops : List Operand) (s : State) : Host.Outcome State Fault Refusal :=
  runHandler ops (jumpHandler conditionHolds) s

/-- JF cond, target (43_jumps.md R171). -/
def execJf (ops : List Operand) (s : State) : Host.Outcome State Fault Refusal :=
  runHandler ops (jumpHandler fun c => !conditionHolds c) s

end Sys2Proof.Machine
end

