-- ==== Sys2Proof/Machine/Dispatch.lean ====
section
/-! DEFINITION. Dispatch: one arm for every row of opcode_table.json (40_execution_loop.md R117). -/

namespace Sys2Proof.Machine

def exec (i : Instr) (s : State) : Host.Outcome State Fault Refusal :=
  match i with
  | .add ops => Sys2Proof.Machine.execAdd ops s
  | .mul ops => Sys2Proof.Machine.execMul ops s
  | .inp ops => Sys2Proof.Machine.execIn ops s
  | .out ops => Sys2Proof.Machine.execOut ops s
  | .jt ops => Sys2Proof.Machine.execJt ops s
  | .jf ops => Sys2Proof.Machine.execJf ops s
  | .lt ops => Sys2Proof.Machine.execLt ops s
  | .eq ops => Sys2Proof.Machine.execEq ops s
  | .arb ops => Sys2Proof.Machine.execArb ops s
  | .hlt ops => Sys2Proof.Machine.execHlt ops s
  | .custom k ops => Sys2Proof.Machine.execCustom k ops s

end Sys2Proof.Machine
end

