-- ==== Sys2Proof/Machine/Step.lean ====
section
/-! DEFINITION. One step of the machine (40_execution_loop.md R112, with what RUN does at a step's end, R124), and
the placing of an instruction for the next step. -/

namespace Sys2Proof.Machine

/-- One step. A machine that is not RUNNING takes no step: it stays as it is (40_execution_loop.md R112, R127;
60_exceptions.md R224; log 5). -/
def step (s : State) : Host.Outcome State Fault Refusal :=
  match s.status with
  | .halted => .next s
  | .faulted => .next s
  | .running =>
    match fetchInstr s with
    | .ok i => exec i s
    | .error t => .next (enterFault s.ip t s)

/-- `s` with an instruction whose bits are the low `nbits` bits of `w` at `ip`, its opcode registered, and a run in
progress, so that the next step runs it: what LOAD_IMAGE, REGISTER and RUN do before a first instruction
(70_reset_and_hazards.md R232; log 7, log 17). -/
def State.withFetchWord (s : State) (nbits w : Nat) : State :=
  let cells := tableCells s.params.wordBits nbits w
  { s with
    params := { s.params with custom := if s.params.custom = [] then [.ret .cont] else s.params.custom }
    mem := { s.mem with
      cells := placeCells s.mem.cells s.ip cells
      len := max s.mem.len (s.ip + longestInstruction) }
    lut := tableLutFor s.lut (cells.headD 0)
    status := .running
    fault := .clear }

end Sys2Proof.Machine
end

