-- ==== Sys2Proof/Machine/HostCommands.lean ====
section
/-! DEFINITION. The host's commands on a machine (40_execution_loop.md R132), other than RUN: construction
(20_memory.md R72, R73), REGISTER (40_execution_loop.md R111), the channels' host side (42_io.md R160, R161), and the
two read-backs (20_memory.md R74, 10_state.md R36). Their errors are results, not faults (60_exceptions.md R213). -/

namespace Sys2Proof

/-! ### The numbers of kinds and causes -/

/-- The kind code (10_state.md R37). -/
def HandlerKind.code : HandlerKind → Nat
  | .add => 1
  | .mul => 2
  | .inp => 3
  | .out => 4
  | .jt => 5
  | .jf => 6
  | .lt => 7
  | .eq => 8
  | .arb => 9
  | .halt => 10
  | .custom k => 0x8000 + k

/-- The cause's code (60_exceptions.md R201). -/
def FaultCause.code : FaultCause → Nat
  | .invalidOpcode => 1
  | .unknownOpcode => 2
  | .invalidMode => 3
  | .incompatibleMode => 4
  | .outOfBounds => 5
  | .unexpectedEndOfProgram => 6
  | .negativeAddress => 7
  | .arithmeticOverflow => 8
  | .capacityExceeded => 9
  | .operandIndexOutOfRange => 10

end Sys2Proof

namespace Sys2Proof.Machine

/-- Why a host command fails. -/
inductive HostError
  /-- `ParseError(token_index, token)` of LOAD_TEXT; no machine is created (60_exceptions.md R213) -/
  | parse (tokenIndex : Nat) (token : List Char)
  /-- `RegistrationError(c)` of REGISTER (60_exceptions.md R213) -/
  | registration (c : Nat)
  /-- the command is not legal while a run is in progress (40_execution_loop.md R132; log 16) -/
  | runInProgress
  /-- the handle names no machine, or one that was dropped (60_exceptions.md R222; log 20) -/
  | noMachine
deriving DecidableEq, Repr

/-! ### Construction -/

/-- `LOAD_IMAGE(w, policy)` (20_memory.md R73) with the machine's other parameters (00_scope.md R6). An element of the
image is made a word, which changes no word (log 4). -/
def loadImage (p : Params) (image : List Int) (policy : MemPolicy) : State :=
  State.constructed p ⟨imageCells 0 (image.map (wrapWord p.wordBits)), image.length, policy⟩

/-- Split a text at every comma: k commas give k + 1 tokens, possibly empty (20_memory.md R72). -/
def splitAtCommas : List Char → List (List Char)
  | [] => [[]]
  | ch :: rest =>
    if ch = ',' then [] :: splitAtCommas rest
    else
      match splitAtCommas rest with
      | [] => [[ch]]
      | token :: more => (ch :: token) :: more

/-- SP, HT, LF, VT, FF or CR (20_memory.md R72). -/
def isBlankChar (ch : Char) : Bool := ch.toNat == 32 || (decide (9 ≤ ch.toNat) && decide (ch.toNat ≤ 13))

/-- A token without its leading and trailing ASCII white space (20_memory.md R72). -/
def trimToken (t : List Char) : List Char := ((t.dropWhile isBlankChar).reverse.dropWhile isBlankChar).reverse

/-- The value of one decimal digit character. -/
def digitValue (ch : Char) : Option Nat :=
  if 48 ≤ ch.toNat ∧ ch.toNat ≤ 57 then some (ch.toNat - 48) else none

/-- The value of `[0-9]*` read after the value `acc`; `none` at any other character. -/
def digitsValue : (acc : Nat) → List Char → Option Nat
  | acc, [] => some acc
  | acc, ch :: rest =>
    match digitValue ch with
    | none => none
    | some d => digitsValue (10 * acc + d) rest

/-- The value of `[0-9]+`. -/
def naturalValue : List Char → Option Nat
  | [] => none
  | ch :: rest => digitsValue 0 (ch :: rest)

/-- The value of `[+-]?[0-9]+` (20_memory.md R72). -/
def integerValue : List Char → Option Int
  | [] => none
  | ch :: rest =>
    if ch = '-' then (naturalValue rest).map fun n => -(n : Int)
    else if ch = '+' then (naturalValue rest).map fun n => (n : Int)
    else (naturalValue (ch :: rest)).map fun n => (n : Int)

/-- The word of one token (20_memory.md R72): `none` where it is no integer or no word. -/
def tokenWord (p : Params) (token : List Char) : Option Word :=
  match integerValue (trimToken token) with
  | none => none
  | some v => if InWord p.wordBits v then some v else none

/-- The words of the tokens from index `j` on, or the first token that fails (20_memory.md R72). -/
def tokenWords (p : Params) : (j : Nat) → List (List Char) → Except HostError (List Word)
  | _, [] => .ok []
  | j, token :: rest =>
    match tokenWord p token with
    | none => .error (.parse j token)
    | some w =>
      match tokenWords p (j + 1) rest with
      | .error e => .error e
      | .ok ws => .ok (w :: ws)

/-- `LOAD_TEXT(s, policy)` (20_memory.md R72); a text is a list of characters (log 18). -/
def loadText (p : Params) (text : List Char) (policy : MemPolicy) : Except HostError State :=
  match tokenWords p 0 (splitAtCommas text) with
  | .error e => .error e
  | .ok image => .ok (loadImage p image policy)

/-! ### Commands on an existing machine -/

/-- The kind of a kind code (10_state.md R37). Code 0 names no handler kind (10_state.md R29; log 9). -/
def kindOfCode (code : Nat) : Option HandlerKind :=
  match code with
  | 1 => some .add
  | 2 => some .mul
  | 3 => some .inp
  | 4 => some .out
  | 5 => some .jt
  | 6 => some .jf
  | 7 => some .lt
  | 8 => some .eq
  | 9 => some .arb
  | 10 => some .halt
  | n => if h : 0x8000 ≤ n ∧ n - 0x8000 < 0x8000 then some (.custom ⟨n - 0x8000, h.2⟩) else none

/-- A command that is legal only when no run is in progress (40_execution_loop.md R132). -/
def betweenRuns {α : Type} (s : State) (r : Except HostError α) : Except HostError α :=
  if s.status = .running then .error .runInProgress else r

/-- `REGISTER(c, n, kind)` (40_execution_loop.md R111). -/
def register (c : Nat) (n : Fin 256) (kindCode : Nat) (s : State) : Except HostError State :=
  betweenRuns s <|
    if c > 99 then .error (.registration c)
    else
      match kindOfCode kindCode with
      | none => .error (.registration c)
      | some kind => .ok { s with lut := lutSet s.lut c ⟨n, kind⟩ }

/-- A sequence of REGISTER commands; the first that fails ends it. -/
def registerAll : List (Nat × Registration) → State → Except HostError State
  | [], s => .ok s
  | (c, r) :: rest, s =>
    match register c r.arity r.kind.code s with
    | .error e => .error e
    | .ok s' => registerAll rest s'

/-- `REFERENCE_ISA` (40_execution_loop.md R134). -/
def registerReferenceIsa (s : State) : Except HostError State := registerAll referenceIsa s

/-- `PUSH_INPUT(v)` (40_execution_loop.md R132): append to the input channel (log 4). -/
def pushInput (v : Int) (s : State) : Except HostError State :=
  betweenRuns s (.ok { s with inq := s.inq ++ [wrapWord s.params.wordBits v] })

/-- `POP_OUTPUT()` (40_execution_loop.md R132): the head of the output channel, or none. -/
def popOutput (s : State) : Except HostError (Option Word × State) :=
  betweenRuns s <|
    match s.outq with
    | [] => .ok (none, s)
    | v :: rest => .ok (some v, { s with outq := rest })

/-- `READ_IMAGE()` (20_memory.md R74): `(L, M[0..L-1])`. -/
def readImage (s : State) : Except HostError (Nat × List Word) :=
  betweenRuns s (.ok (s.mem.len, (List.range s.mem.len).map s.mem.cell))

/-- The status encoding (10_state.md R27). -/
def Status.code : Status → Nat
  | .halted => 0
  | .running => 1
  | .faulted => 2

/-- The fault code, 0 for no fault (10_state.md R28). -/
def FaultRecord.code (f : FaultRecord) : Nat :=
  match f.cause with
  | none => 0
  | some cause => cause.code

/-- The policy's encoding in MEM_POLICY (10_state.md R36). -/
def policyCode : MemPolicy → Nat
  | .strict => 0
  | .extended => 1

/-- The packing of a table entry (10_state.md R36): bit 0 valid, bits 8..1 arity, bits 31..16 kind code, other bits
0. -/
def lutWord : Option Registration → BitVec 32
  | none => 0#32
  | some r => BitVec.ofNat 16 r.kind.code ++ 0#7 ++ BitVec.ofNat 8 r.arity ++ 1#1

/-- The first of the table's registers, LUT[0] (10_state.md R36). -/
def lutRegisterBase : Nat := 0x100

/-- The registers LUT[c], for c in 0..99 (10_state.md R36); every other number reads 0. -/
def lutRegister (lut : Lut) (r : Nat) : Nat :=
  if h : r - lutRegisterBase < 100 then
    if lutRegisterBase ≤ r then (lutWord lut[r - lutRegisterBase]).toNat else 0
  else 0

/-- The host-visible register map (10_state.md R36); a number that is not in the table reads 0. -/
def registerValue (s : State) (r : Nat) : Int :=
  match r with
  | 0x00 => s.status.code
  | 0x01 => s.ip
  | 0x02 => s.rb
  | 0x03 => s.fault.code
  | 0x04 => s.fault.fip
  | 0x05 => s.fault.info
  | 0x06 => s.mem.len
  | 0x07 => policyCode s.mem.policy
  | 0x08 => if s.oyp then 1 else 0
  | n => lutRegister s.lut n

/-- `READ_REG(r)` (40_execution_loop.md R132). -/
def readReg (r : Nat) (s : State) : Except HostError Int := betweenRuns s (.ok (registerValue s r))

end Sys2Proof.Machine
end

