-- ==== Sys2Proof/Machine/Run.lean ====
section
/-! DEFINITION. RUN (40_execution_loop.md R124): steps until a step stops the run or raises. A run need not end
(R131), so it is followed up to a bound on its steps (log 15). -/

namespace Sys2Proof.Machine

/-- What `RUN` returns: `Ok(())` or `Err(fault)` (40_execution_loop.md R124, R238). -/
inductive RunResult
  | ok
  | err (fault : FaultRecord)
deriving DecidableEq, Repr

/-- A run followed for a bounded number of steps. -/
inductive RunOutcome
  /-- `RUN` returned -/
  | returned (r : RunResult) (s : State)
  /-- the bound is used up and the run is still in progress (log 15) -/
  | inProgress (s : State)
deriving DecidableEq, Repr

/-- The result of a run that ended in this state. -/
def runResult (s : State) : RunResult :=
  match s.status with
  | .faulted => .err s.fault
  | _ => .ok

/-- The loop of `RUN` on a machine whose status is RUNNING (40_execution_loop.md R124). The model's `step` answers a
next state on every state (log 6), so the other two outcomes never arise; they would leave the run in progress. -/
def runLoop : (bound : Nat) → State → RunOutcome
  | 0, s => .inProgress s
  | n + 1, s =>
    match step s with
    | .next s' => if s'.status = .running then runLoop n s' else .returned (runResult s') s'
    | .fault _ => .inProgress s
    | .refused _ => .inProgress s

/-- `RUN()` (40_execution_loop.md R124): on a FAULTED machine it returns the stored record and takes no step (R127). -/
def run (bound : Nat) (s : State) : Except HostError RunOutcome :=
  betweenRuns s <|
    if s.status = .faulted then .ok (.returned (.err s.fault) s)
    else .ok (runLoop bound { s with status := .running })

end Sys2Proof.Machine
end

