-- ==== Sys2Proof/Machine/World.lean ====
section
/-! DEFINITION. Several machines and the single-threaded host that orders them (60_exceptions.md R222): the machines
share nothing, one of them runs at a time, and the host acts between runs only. Every host command of
40_execution_loop.md R132 is here, on the machine of a handle. -/

namespace Sys2Proof.Machine

/-! ### Commands on one machine -/

/-- A host command on an existing machine, but for DROP (40_execution_loop.md R132). -/
inductive HostCommand
  /-- `REGISTER(c, n, kind)` -/
  | register (c : Nat) (n : Fin 256) (kindCode : Nat)
  /-- `RUN()`, followed for `bound` steps (log 15) -/
  | run (bound : Nat)
  /-- `PUSH_INPUT(v)` -/
  | pushInput (v : Int)
  /-- `POP_OUTPUT()` -/
  | popOutput
  /-- `READ_IMAGE()` -/
  | readImage
  /-- `READ_REG(r)` -/
  | readReg (r : Nat)
deriving DecidableEq, Repr

/-- What a host command returns (40_execution_loop.md R132). -/
inductive HostAnswer
  /-- `()` -/
  | done
  /-- `Ok(())` or `Err(fault)` of a run that ended -/
  | ran (r : RunResult)
  /-- the run is still in progress (log 15) -/
  | stillRunning
  /-- `some v`, or `none` -/
  | output (v : Option Word)
  /-- `(L, M[0..L-1])` -/
  | image (len : Nat) (words : List Word)
  /-- the value of a register -/
  | value (v : Int)
deriving DecidableEq, Repr

/-- A host command on the machine it names: its answer, and the machine after it. -/
def applyCommand (c : HostCommand) (s : State) : Except HostError (HostAnswer × State) :=
  match c with
  | .register opcode n kindCode => (register opcode n kindCode s).map fun t => (.done, t)
  | .run bound => (run bound s).map fun r =>
    match r with
    | .returned r t => (.ran r, t)
    | .inProgress t => (.stillRunning, t)
  | .pushInput v => (pushInput v s).map fun t => (.done, t)
  | .popOutput => (popOutput s).map fun r => (.output r.1, r.2)
  | .readImage => (readImage s).map fun r => (.image r.1 r.2, s)
  | .readReg r => (readReg r s).map fun v => (.value v, s)

/-! ### Several machines -/

/-- The machines the host has constructed, by its own handle, oldest first; `none` where one was dropped. -/
abbrev World := List (Option State)

/-- The machine of a handle, if it exists. -/
def World.machine (w : World) (handle : Nat) : Option State := (w[handle]?).join

/-- A run of this machine is in progress (10_state.md R27). -/
def isRunning : Option State → Bool
  | none => false
  | some s => decide (s.status = .running)

/-- A run is in progress: the host is inside it and issues nothing (40_execution_loop.md R132). -/
def World.inProgress (w : World) : Bool := w.any isRunning

/-- A command of the host, which acts between runs only: it is refused while any machine is RUNNING, its own or another
(40_execution_loop.md R132, R133; 60_exceptions.md R222; log 16, log 20). -/
def World.betweenRuns {α : Type} (w : World) (handle : Nat) (f : State → Except HostError α) : Except HostError α :=
  if w.inProgress then .error .runInProgress
  else
    match w.machine handle with
    | none => .error .noMachine
    | some s => f s

/-- A host command on the machine of a handle. RUN is one: where the run does not end within its bound, the machine is
RUNNING afterwards, and it alone goes on (`World.step`). -/
def World.command (w : World) (handle : Nat) (c : HostCommand) : Except HostError (HostAnswer × World) :=
  w.betweenRuns handle fun s => (applyCommand c s).map fun r => (r.1, w.set handle (some r.2))

/-- `DROP()`: the machine ceases to exist (40_execution_loop.md R132). -/
def World.drop (w : World) (handle : Nat) : Except HostError World :=
  w.betweenRuns handle fun _ => .ok (w.set handle none)

/-- `LOAD_IMAGE` gives the new machine the next handle; it is always legal (40_execution_loop.md R132). -/
def World.loadImage (w : World) (p : Params) (image : List Int) (policy : MemPolicy) : World :=
  w ++ [some (Machine.loadImage p image policy)]

/-- `LOAD_TEXT`; a ParseError creates no machine (40_execution_loop.md R132, 60_exceptions.md R213). -/
def World.loadText (w : World) (p : Params) (text : List Char) (policy : MemPolicy) : Except HostError World :=
  (Machine.loadText p text policy).map fun s => w ++ [some s]

/-- The host moves the oldest output of one machine to the end of another's input (60_exceptions.md R222): POP_OUTPUT of
`source`, then PUSH_INPUT to `target`. Without an output nothing is moved. -/
def World.moveOutput (w : World) (source target : Nat) : Except HostError World :=
  w.betweenRuns target fun _ =>
    match w.command source .popOutput with
    | .error e => .error e
    | .ok (.output (some v), w') => (w'.command target (.pushInput v)).map fun r => r.2
    | .ok (_, w') => .ok w'

/-- A RUNNING machine after its next step (40_execution_loop.md R112). -/
def steppedMachine (s : State) : State :=
  match step s with
  | .next t => t
  | .fault _ => s
  | .refused _ => s

/-- One step of the run in progress: of the machine that is RUNNING, and of no other (60_exceptions.md R222, "One
instance runs at a time"). -/
def World.step : World → World
  | [] => []
  | none :: rest => none :: World.step rest
  | some s :: rest =>
    if s.status = .running then some (steppedMachine s) :: rest else some s :: World.step rest

end Sys2Proof.Machine
end

