-- ==== Sys2Proof/Safety.lean ====
section
/-! DEFINITION. The terms claims use: the invariant that rules out states no run reaches, and what a safe run is. -/

namespace Sys2Proof.Machine

/-- Every word the state holds is a word of this machine's width (00_scope.md R8). -/
abbrev State.wordsOk (s : State) : Prop :=
  (∀ c ∈ s.mem.cells, InWord s.params.wordBits c.2) ∧ InWord s.params.wordBits s.rb ∧
    (∀ v ∈ s.inq, InWord s.params.wordBits v) ∧ (∀ v ∈ s.outq, InWord s.params.wordBits v)

/-- `ip` is a value of its register, and lies in `0 .. L` (10_state.md R22) unless a fault left it elsewhere
(40_execution_loop.md R122). -/
abbrev State.ipOk (s : State) : Prop := s.ip < ipRange s.params ∧ (s.status ≠ .faulted → s.ip ≤ s.mem.len)

/-- The fault record is clear exactly while the machine is not FAULTED, and `fip` and `info` are values of their
registers (10_state.md R22, R28, 60_exceptions.md R212). -/
abbrev State.faultOk (s : State) : Prop :=
  (s.status ≠ .faulted → s.fault = .clear) ∧ (s.status = .faulted → s.fault.cause ≠ none) ∧
    s.fault.fip < ipRange s.params ∧ InWord s.params.wordBits s.fault.info

/-- `oyp` is false when OUTPUT_YIELD is false (10_state.md R33). -/
abbrev State.latchOk (s : State) : Prop := s.oyp = true → s.params.outputYield = true

/-- The invariant of the machine: it holds after construction and every step keeps it. -/
abbrev State.Inv (s : State) : Prop :=
  s.params.wf ∧ s.mem.wf ∧ s.wordsOk ∧ s.ipOk ∧ s.faultOk ∧ s.latchOk

/-- A safe run is one that has raised no fault (40_execution_loop.md R127). -/
abbrev State.safe (s : State) : Prop := s.status ≠ .faulted

/-- The state after `k` steps. -/
def stepMany : Nat → State → State
  | 0, s => s
  | k + 1, s =>
    match step s with
    | .next t => stepMany k t
    | .fault _ => s
    | .refused _ => s

/-- What a step may read and write but a handler may not (40_execution_loop.md R109): everything a handler leaves as
it found it. -/
abbrev State.sameButHandlerPart (s t : State) : Prop :=
  t.params = s.params ∧ t.ip = s.ip ∧ t.rb = s.rb ∧ t.lut = s.lut ∧ t.status = s.status ∧ t.fault = s.fault ∧
    t.mem.policy = s.mem.policy

/-- One instance runs at a time (60_exceptions.md R222). -/
def World.oneRuns (w : World) : Prop := ∀ g h s t, w.machine g = some s → w.machine h = some t →
  s.status = .running → t.status = .running → g = h

/-- The operands of an instruction bound on a state (40_execution_loop.md R100). -/
abbrev State.bind (s : State) (ops : List Operand) : List Op := bindOps s.rb ops

/-- The state after `PUSH_INPUT` of each word in turn (40_execution_loop.md R132, 42_io.md R160). -/
def State.withInput (s : State) (words : List Word) : State := { s with inq := s.inq ++ words }

/-- The same machine without OUTPUT_YIELD and its latch (10_state.md R33, 42_io.md R163). -/
def State.withoutOutputYield (s : State) : State :=
  { s with params := { s.params with outputYield := false }, oyp := false }

/-- No custom handler is registered. -/
def referenceKindsOnly (lut : Lut) : Prop := ∀ (c : Fin 100) (r : Registration) (k : Fin 0x8000),
  lut[c] = some r → r.kind ≠ .custom k

/-- The decimal spelling of an integer. -/
def spellInt (v : Int) : List Char := if v < 0 then '-' :: Nat.toDigits 10 v.natAbs else Nat.toDigits 10 v.natAbs

/-- Integers spelled in decimal and separated by commas (20_memory.md R72). -/
def spellImage : List Int → List Char
  | [] => []
  | [v] => spellInt v
  | v :: rest => spellInt v ++ ',' :: spellImage rest

/-- The handler program of the spec's example `COPY`: read operand 0, write it through operand 1, Continue
(95_test_vectors.md section 2.10). -/
def copyProgram : HCode := .read 0 (.write 1 (.got 0) (.ret .cont))

end Sys2Proof.Machine
end

