-- ==== Sys2Proof/Certificates/Slice0/Obligations.lean ====
section
/-! DEFINITION. The statements for the provers. Each docstring names the rule it formalises. A clause that rests on
a decision of the spec (92_eei_decisions.md) or on a log entry is marked so.

`ipFits p len a` says that a completed step may leave `ip` at `a`: at most the length, and a value of the register, which
has `WORD_BITS - 1` bits (10_state.md R22). `heldIp p a` is what the register holds of `a`, and `heldInfo p x` what the
fault record's `info` holds of `x`: the number itself where there is room for it, and else a free value (log 11), which
EndCheckComparesWithTheNewLength and FaultsArePrecise state. -/

open Sys2Proof Sys2Proof.Machine

/-! ### Fetch, decode, encode -/

/-- A running machine's step is the execution of the instruction decoded at `ip`, with nothing around it; one whose
fetch raises takes that fault; one that is not running takes no step (the last clause is log 5). -/
def Obligations.StepRunsTheDecodedInstruction : Prop :=
  ∀ s : State,
    (∀ i, s.status = .running → fetchInstr s = .ok i → step s = exec i s) ∧
    (∀ trap, s.status = .running → fetchInstr s = .error trap → step s = .next (enterFault s.ip trap s)) ∧
    (s.status ≠ .running → step s = .next s)

/-- The cells of an encoded instruction at `ip`, whose opcode is registered with its kind and its number of operands,
make the next step its execution. -/
def Obligations.StepRunsAnEncodedInstruction : Prop :=
  ∀ (s : State) (c : Fin 100) (i : Instr) (r : Registration), s.status = .running → s.lut[c] = some r →
    r.kind = i.kind → r.arity.val = i.operands.length →
    (∀ (j : Nat) (v : Word), (encodeAt c i)[j]? = some v → s.mem.read ((s.ip + j : Nat) : Int) = .ok v) →
    step s = exec i s

/-- Decode and encode agree, for every instruction that is well formed at an opcode: its cells are words, they decode
to it under every table that registers the opcode so, whatever cells follow, and the table's own encoder finds such
cells. -/
def Obligations.EncodedInstructionDecodesToItself : Prop :=
  ∀ (p : Params) (lut : Lut) (c : Fin 100) (i : Instr) (r : Registration), i.wf p c = true → lut[c] = some r →
    r.kind = i.kind → r.arity.val = i.operands.length →
    (∀ v ∈ encodeAt c i, InWord p.wordBits v) ∧
    (∀ rest, decode lut (encodeAt c i ++ rest) = .ok i) ∧
    (∃ cells, encode lut i = some cells ∧ ∀ rest, decode lut (cells ++ rest) = .ok i)

/-- Words written out from the encoding (30_encoding.md R90 and the vectors V-DEC-1 to V-DEC-3) decode to what they
stand for under the reference registration. -/
def Obligations.WrittenOutWordsDecode : Prop :=
  decode referenceLut [1002, 4, 3, 4] = .ok (.mul [⟨.position, 4⟩, ⟨.immediate, 3⟩, ⟨.position, 4⟩]) ∧
  decode referenceLut [21101, 3, 4, 0] = .ok (.add [⟨.immediate, 3⟩, ⟨.immediate, 4⟩, ⟨.relative, 0⟩]) ∧
  decode referenceLut [204, -1] = .ok (.out [⟨.relative, -1⟩]) ∧
  decode referenceLut [203, 0] = .ok (.inp [⟨.relative, 0⟩]) ∧
  decode referenceLut [109, 1] = .ok (.arb [⟨.immediate, 1⟩]) ∧
  decode referenceLut [1006, 101, 0] = .ok (.jf [⟨.position, 101⟩, ⟨.immediate, 0⟩]) ∧
  decode referenceLut [1105, 1, 4] = .ok (.jt [⟨.immediate, 1⟩, ⟨.immediate, 4⟩]) ∧
  decode referenceLut [1107, -5, 3, 5] = .ok (.lt [⟨.immediate, -5⟩, ⟨.immediate, 3⟩, ⟨.position, 5⟩]) ∧
  decode referenceLut [1008, 100, 16, 101] = .ok (.eq [⟨.position, 100⟩, ⟨.immediate, 16⟩, ⟨.position, 101⟩]) ∧
  decode referenceLut [99] = .ok (.hlt [])

/-- Mode digits beyond the arity are ignored: a word and the same word with anything added at the places beyond the
arity decode alike, whatever the cells (30_encoding.md R84, decision D14). -/
def Obligations.ExcessDigitsAreIgnored : Prop :=
  ∀ (lut : Lut) (w x : Nat) (r : Registration) (rest : List Word), lutEntry lut w = some r →
    decode lut (((w + 100 * 10 ^ r.arity.val * x : Nat) : Int) :: rest) = decode lut ((w : Int) :: rest)

/-- R83, R101: an operand whose raw cell has been read gets its mode from its digit, and a digit outside 0, 1, 2
raises `InvalidMode(10*i + m)`; a raw cell that cannot be read raises first. -/
def Obligations.OperandConstructionChecksItsMode : Prop :=
  ∀ (cell : Nat → Except Trap Word) (q i : Nat) (raw : Word) (trap : Trap),
    (cell (1 + i) = .ok raw →
      (q / 10 ^ i % 10 = 0 → buildOperand cell q i = .ok ⟨.position, raw⟩) ∧
      (q / 10 ^ i % 10 = 1 → buildOperand cell q i = .ok ⟨.immediate, raw⟩) ∧
      (q / 10 ^ i % 10 = 2 → buildOperand cell q i = .ok ⟨.relative, raw⟩) ∧
      (2 < q / 10 ^ i % 10 →
        buildOperand cell q i = .error ⟨.invalidMode, 10 * (i : Int) + (q / 10 ^ i % 10 : Nat)⟩)) ∧
    (cell (1 + i) = .error trap → buildOperand cell q i = .error trap)

/-- R202: a negative fetched word raises `InvalidOpcode` (code 1) in every machine, before any dispatch; the info is the
word (60_exceptions.md R201, decision D18). -/
def Obligations.NegativeWordIsInvalidOpcode : Prop :=
  ∀ (s : State) (w : Word), s.status = .running → s.mem.read (s.ip : Int) = .ok w → w < 0 →
    step s = .next (enterFault s.ip ⟨.invalidOpcode, w⟩ s) ∧ FaultCause.invalidOpcode.code = 1

/-- R203, R115: a well-formed word whose opcode has no valid entry raises `UnknownOpcode` (code 2); under the reference
registration these are the opcodes 0 and 10..98. The info is the opcode (60_exceptions.md R201, decision D18). -/
def Obligations.AbsentEntryIsUnknownOpcode : Prop :=
  (∀ (s : State) (w : Nat), s.status = .running → s.mem.read (s.ip : Int) = .ok (w : Int) →
    s.lut[w % 100]'(Nat.mod_lt _ (by decide)) = none →
    step s = .next (enterFault s.ip ⟨.unknownOpcode, ((w % 100 : Nat) : Int)⟩ s)) ∧
  FaultCause.unknownOpcode.code = 2 ∧
  ∀ c : Fin 100, referenceLut[c] = none ↔ c.val = 0 ∨ (10 ≤ c.val ∧ c.val ≤ 98)

/-- R204: `InvalidMode` (code 3) is raised when an operand below the arity has a mode digit 3..9, all earlier operands
being built, and only then; a digit at a place beyond the arity never raises it. -/
def Obligations.InvalidModeComesFromAnOperandBelowTheArity : Prop :=
  ∀ s : State,
    (∀ (w : Nat) (r : Registration) (i : Nat), s.status = .running → s.mem.read (s.ip : Int) = .ok (w : Int) →
      lutEntry s.lut w = some r → i < r.arity.val →
      (∀ j, j ≤ i → ∃ v, s.mem.read ((s.ip + (1 + j) : Nat) : Int) = .ok v) →
      (∀ j, j < i → decimalDigit j (w / 100) ≤ 2) → 2 < decimalDigit i (w / 100) →
      step s = .next (enterFault s.ip ⟨.invalidMode, 10 * (i : Int) + (decimalDigit i (w / 100) : Nat)⟩ s)) ∧
    (∀ info, fetchInstr s = .error ⟨.invalidMode, info⟩ → ∃ (w : Nat) (r : Registration) (i : Nat),
      s.mem.read (s.ip : Int) = .ok (w : Int) ∧ lutEntry s.lut w = some r ∧ i < r.arity.val ∧
        2 < decimalDigit i (w / 100)) ∧
    FaultCause.invalidMode.code = 3

/-- The raw read of an operand comes before its mode check and after every earlier operand is built, so its failure is
the step's fault whatever the digits from there on (40_execution_loop.md R116, 60_exceptions.md R215; decision D16). -/
def Obligations.RawReadFailsBeforeTheModeCheck : Prop :=
  ∀ (s : State) (w : Nat) (r : Registration) (i : Nat) (trap : Trap), s.status = .running →
    s.mem.read (s.ip : Int) = .ok (w : Int) → lutEntry s.lut w = some r → i < r.arity.val →
    (∀ j, j < i → (∃ v, s.mem.read ((s.ip + (1 + j) : Nat) : Int) = .ok v) ∧ decimalDigit j (w / 100) ≤ 2) →
    s.mem.read ((s.ip + (1 + i) : Nat) : Int) = .error trap →
    step s = .next (enterFault s.ip trap s)

/-! ### Memory and arithmetic -/

/-- `MemRead` (20_memory.md R53; the negative case is decision D5, the unchanged length D7). -/
def Obligations.MemReadFollowsItsRule : Prop :=
  ∀ (m : Memory) (a : Int),
    (a < 0 → m.read a = .error ⟨.negativeAddress, a⟩) ∧
    (0 ≤ a → a < m.len → m.read a = .ok (m.cell a.toNat)) ∧
    (0 ≤ a → (m.len : Int) ≤ a → m.policy = .strict → m.read a = .error ⟨.outOfBounds, a⟩) ∧
    (0 ≤ a → (m.len : Int) ≤ a → m.policy = .extended → m.read a = .ok 0)

/-- `MemWrite` (20_memory.md R54; decisions D5, D6), by what can be read afterwards: the word written at its address,
every other address as before, and the length. -/
def Obligations.MemWriteFollowsItsRule : Prop :=
  ∀ (p : Params) (m : Memory) (a : Int) (v : Word), m.wf →
    (a < 0 → m.write p a v = .error ⟨.negativeAddress, a⟩) ∧
    (0 ≤ a → a < m.len → ∃ m', m.write p a v = .ok m' ∧ m'.len = m.len ∧ m'.policy = m.policy ∧
      m'.read a = .ok v ∧ ∀ b, b ≠ a → m'.read b = m.read b) ∧
    (0 ≤ a → (m.len : Int) ≤ a → m.policy = .strict → m.write p a v = .error ⟨.outOfBounds, a⟩) ∧
    (0 ≤ a → (m.len : Int) ≤ a → m.policy = .extended → (∃ cap : Nat, p.memCap = some cap ∧ (cap : Int) ≤ a) →
      m.write p a v = .error ⟨.capacityExceeded, a⟩) ∧
    (0 ≤ a → (m.len : Int) ≤ a → m.policy = .extended → (∀ cap : Nat, p.memCap = some cap → a < (cap : Int)) →
      ∃ m', m.write p a v = .ok m' ∧ (m'.len : Int) = a + 1 ∧ m'.policy = m.policy ∧
        m'.read a = .ok v ∧ ∀ b, b ≠ a → m'.read b = m.read b)

/-- R56: after a write at or beyond the old length, every cell between is 0, the written cell holds the value, and the
length is one more than the address. -/
def Obligations.GrowthZeroFills : Prop :=
  ∀ (p : Params) (m m' : Memory) (a : Nat) (v : Word), m.wf → m.len ≤ a → m.write p (a : Int) v = .ok m' →
    (∀ j, m.len ≤ j → j < a → m'.cell j = 0) ∧ m'.cell a = v ∧ m'.len = a + 1

/-- R206: `OutOfBounds` (code 5) is raised by a read or a write at or beyond the length under STRICT, and never under
EXTENDED; the fetch, the raw reads, and operand reads and writes are such accesses. -/
def Obligations.OutOfBoundsOnlyUnderStrict : Prop :=
  ∀ (p : Params) (m : Memory) (a : Int) (v : Word),
    (m.policy = .strict → (m.len : Int) ≤ a →
      m.read a = .error ⟨.outOfBounds, a⟩ ∧ m.write p a v = .error ⟨.outOfBounds, a⟩) ∧
    (m.policy = .extended → ∀ info,
      m.read a ≠ .error ⟨.outOfBounds, info⟩ ∧ m.write p a v ≠ .error ⟨.outOfBounds, info⟩) ∧
    (∀ s : State, s.mem = m → m.policy = .strict →
      (s.status = .running → m.len ≤ s.ip → step s = .next (enterFault s.ip ⟨.outOfBounds, s.ip⟩ s)) ∧
      (∀ q i, m.len ≤ s.ip + (1 + i) → buildOperand (fun j => s.mem.read ((s.ip + j : Nat) : Int)) q i =
        .error ⟨.outOfBounds, ((s.ip + (1 + i) : Nat) : Int)⟩) ∧
      (∀ ops i, targetOperand s.params (s.bind ops) i = .ok a → (m.len : Int) ≤ a →
        readOperand s (s.bind ops) i = .error ⟨.outOfBounds, a⟩ ∧
        storeOperand s (s.bind ops) i v = .error ⟨.outOfBounds, a⟩)) ∧
    FaultCause.outOfBounds.code = 5

/-- `add_W` and `mul_W` (41_arithmetic.md R150; decisions D2, D3): the exact result where it is a word; otherwise a fault
under FAULT, and under WRAP the word that differs from it by a multiple of 2^WORD_BITS. -/
def Obligations.WordArithmeticByPolicy : Prop :=
  ∀ (p : Params) (a b : Word) (f : Params → Word → Word → Except Trap Word) (x : Int),
    (f = addW ∧ x = a + b ∨ f = mulW ∧ x = a * b) →
    (InWord p.wordBits x → f p a b = .ok x) ∧
    (¬ InWord p.wordBits x → p.overflow = .fault → f p a b = .error ⟨.arithmeticOverflow, 0⟩) ∧
    (¬ InWord p.wordBits x → p.overflow = .wrap → ∃ r, f p a b = .ok r ∧ InWord p.wordBits r ∧
      ((2 ^ p.wordBits : Nat) : Int) ∣ x - r)

/-! ### Operands -/

/-- What a read and a write through an operand mean in each mode, the raw value used as it stands (30_encoding.md section
2); and a read, a write or a target of an operand that the instruction does not have raises OperandIndexOutOfRange with
the index (40_execution_loop.md section 1, 60_exceptions.md section 1; decision D17). -/
def Obligations.OperandFormsReadAndWrite : Prop :=
  ∀ (s : State) (ops : List Operand) (i : Nat) (v : Word),
    (ops[i]? = none →
      readOperand s (s.bind ops) i = .error ⟨.operandIndexOutOfRange, i⟩ ∧
      storeOperand s (s.bind ops) i v = .error ⟨.operandIndexOutOfRange, i⟩ ∧
      targetOperand s.params (s.bind ops) i = .error ⟨.operandIndexOutOfRange, i⟩) ∧
    ∀ o : Operand, ops[i]? = some o →
    (o.mode = .position →
      readOperand s (s.bind ops) i = s.mem.read o.raw ∧
      storeOperand s (s.bind ops) i v = s.mem.write s.params o.raw v) ∧
    (o.mode = .immediate →
      readOperand s (s.bind ops) i = .ok o.raw ∧
      storeOperand s (s.bind ops) i v = .error ⟨.incompatibleMode, i⟩) ∧
    (o.mode = .relative →
      (∀ a, addW s.params o.raw s.rb = .ok a →
        readOperand s (s.bind ops) i = s.mem.read a ∧
        storeOperand s (s.bind ops) i v = s.mem.write s.params a v) ∧
      (∀ trap, addW s.params o.raw s.rb = .error trap →
        readOperand s (s.bind ops) i = .error trap ∧ storeOperand s (s.bind ops) i v = .error trap))

/-- For every instruction: a Relative operand with raw value `a - rb` may be replaced by a Position operand with raw
value `a` and nothing changes (40_execution_loop.md R106, which the spec derives). -/
def Obligations.RelativeReachesThePositionCell : Prop :=
  ∀ (s : State) (kind : HandlerKind) (ops : List Operand) (j : Nat) (a : Int), 0 ≤ a → InWord s.params.wordBits a →
    ops[j]? = some ⟨.relative, a - s.rb⟩ →
    exec (Instr.ofKind kind (ops.set j ⟨.position, a⟩)) s = exec (Instr.ofKind kind ops) s

/-- A write through an Immediate operand raises `IncompatibleMode` (code 4), whatever the instruction and the value; of the
reference instructions ADD, MUL, LT, EQ (operand 2) and IN (operand 0) can raise it, and no other (60_exceptions.md
section 1, 40_execution_loop.md section 1). An IN that raises it has lost the value it popped (decisions D13, D19, D21),
and takes the value from the queue (log 14). -/
def Obligations.WriteThroughImmediateAlwaysFails : Prop :=
  (∀ (s : State) (ops : List Operand) (i : Nat) (raw v : Word), ops[i]? = some ⟨.immediate, raw⟩ →
    storeOperand s (s.bind ops) i v = .error ⟨.incompatibleMode, i⟩) ∧
  (∀ (s : State) (ops : List Operand) (raw a b r : Word), ops[2]? = some ⟨.immediate, raw⟩ →
    readOperand s (s.bind ops) 0 = .ok a → readOperand s (s.bind ops) 1 = .ok b →
    (addW s.params a b = .ok r → exec (.add ops) s = .next (enterFault s.ip ⟨.incompatibleMode, 2⟩ s)) ∧
    (mulW s.params a b = .ok r → exec (.mul ops) s = .next (enterFault s.ip ⟨.incompatibleMode, 2⟩ s)) ∧
    exec (.lt ops) s = .next (enterFault s.ip ⟨.incompatibleMode, 2⟩ s) ∧
    exec (.eq ops) s = .next (enterFault s.ip ⟨.incompatibleMode, 2⟩ s)) ∧
  (∀ (s : State) (ops : List Operand) (raw v : Word) (rest : List Word), ops[0]? = some ⟨.immediate, raw⟩ →
    s.inq = v :: rest →
    exec (.inp ops) s = .next (enterFault s.ip ⟨.incompatibleMode, 0⟩ { s with inq := rest })) ∧
  (∀ (s t : State) (ops : List Operand) (mk : List Operand → Instr),
    mk ∈ [Instr.out, Instr.jt, Instr.jf, Instr.arb, Instr.hlt] → s.fault.cause ≠ some .incompatibleMode →
    exec (mk ops) s = .next t → t.fault.cause ≠ some .incompatibleMode) ∧
  FaultCause.incompatibleMode.code = 4

/-! ### What each instruction does -/

/-- ADD (41_arithmetic.md section 2): with both operands readable, the sum a word and the destination writable, it
completes; the sum is stored at the destination operand's address and `ip` moves past the operands. -/
def Obligations.AddStoresTheSum : Prop :=
  ∀ (s : State) (ops : List Operand) (a b r : Word) (d : Int) (m : Memory),
    readOperand s (s.bind ops) 0 = .ok a → readOperand s (s.bind ops) 1 = .ok b → addW s.params a b = .ok r →
    targetOperand s.params (s.bind ops) 2 = .ok d → s.mem.write s.params d r = .ok m →
    ipFits s.params m.len (s.ip + 1 + ops.length) →
    exec (.add ops) s = .next { s with mem := m, ip := s.ip + 1 + ops.length }

/-- MUL (41_arithmetic.md section 2): as ADD, with the product. -/
def Obligations.MulStoresTheProduct : Prop :=
  ∀ (s : State) (ops : List Operand) (a b r : Word) (d : Int) (m : Memory),
    readOperand s (s.bind ops) 0 = .ok a → readOperand s (s.bind ops) 1 = .ok b → mulW s.params a b = .ok r →
    targetOperand s.params (s.bind ops) 2 = .ok d → s.mem.write s.params d r = .ok m →
    ipFits s.params m.len (s.ip + 1 + ops.length) →
    exec (.mul ops) s = .next { s with mem := m, ip := s.ip + 1 + ops.length }

/-- LT (44_compare.md; that operand 0 is the left side of `a < b` is log 19, the spec's G3): the signed comparison is
stored as 1 or 0. -/
def Obligations.LtStoresTheSignedComparison : Prop :=
  ∀ (s : State) (ops : List Operand) (a b : Word) (d : Int) (m : Memory),
    readOperand s (s.bind ops) 0 = .ok a → readOperand s (s.bind ops) 1 = .ok b →
    targetOperand s.params (s.bind ops) 2 = .ok d → s.mem.write s.params d (if a < b then 1 else 0) = .ok m →
    ipFits s.params m.len (s.ip + 1 + ops.length) →
    exec (.lt ops) s = .next { s with mem := m, ip := s.ip + 1 + ops.length }

/-- EQ (44_compare.md): the equality of the full words is stored as 1 or 0. -/
def Obligations.EqStoresTheEquality : Prop :=
  ∀ (s : State) (ops : List Operand) (a b : Word) (d : Int) (m : Memory),
    readOperand s (s.bind ops) 0 = .ok a → readOperand s (s.bind ops) 1 = .ok b →
    targetOperand s.params (s.bind ops) 2 = .ok d → s.mem.write s.params d (if a = b then 1 else 0) = .ok m →
    ipFits s.params m.len (s.ip + 1 + ops.length) →
    exec (.eq ops) s = .next { s with mem := m, ip := s.ip + 1 + ops.length }

/-- ADD, MUL, LT and EQ raise in the order of their pseudocode: the read of a, the read of b, the result (ADD and MUL), the
write, the end check; only after the last has anything been written (41_arithmetic.md section 2, 44_compare.md;
decisions D13, D21; LT's operand order is log 19, the spec's G3). -/
def Obligations.ThreeOperandInstructionsRaiseInOrder : Prop :=
  ∀ (s : State) (ops : List Operand) (mk : List Operand → Instr) (f : Params → Word → Word → Except Trap Word),
    (mk, f) ∈ [(Instr.add, addW), (Instr.mul, mulW), (Instr.lt, fun _ a b => .ok (if a < b then 1 else 0)),
      (Instr.eq, fun _ a b => .ok (if a = b then 1 else 0))] →
    ∀ trap : Trap,
    (readOperand s (s.bind ops) 0 = .error trap → exec (mk ops) s = .next (enterFault s.ip trap s)) ∧
    (∀ a, readOperand s (s.bind ops) 0 = .ok a → readOperand s (s.bind ops) 1 = .error trap →
      exec (mk ops) s = .next (enterFault s.ip trap s)) ∧
    (∀ a b, readOperand s (s.bind ops) 0 = .ok a → readOperand s (s.bind ops) 1 = .ok b →
      f s.params a b = .error trap → exec (mk ops) s = .next (enterFault s.ip trap s)) ∧
    (∀ a b r, readOperand s (s.bind ops) 0 = .ok a → readOperand s (s.bind ops) 1 = .ok b →
      f s.params a b = .ok r → storeOperand s (s.bind ops) 2 r = .error trap →
      exec (mk ops) s = .next (enterFault s.ip trap s)) ∧
    (∀ a b r m, readOperand s (s.bind ops) 0 = .ok a → readOperand s (s.bind ops) 1 = .ok b →
      f s.params a b = .ok r → storeOperand s (s.bind ops) 2 r = .ok m →
      ¬ ipFits s.params m.len (s.ip + 1 + ops.length) →
      exec (mk ops) s = .next (enterFault s.ip ⟨.unexpectedEndOfProgram, heldIp s.params (s.ip + 1 + ops.length)⟩
        { s with mem := m, ip := heldIp s.params (s.ip + 1 + ops.length) }))

/-- IN (42_io.md section 2; decision D19; that IN asks the queue is log 14): the oldest input is taken off the channel and
stored at the destination. A write that raises loses the value (decisions D13, D21). -/
def Obligations.InStoresTheOldestInput : Prop :=
  ∀ (s : State) (ops : List Operand) (v : Word) (rest : List Word), s.inq = v :: rest →
    (∀ d m, targetOperand s.params (s.bind ops) 0 = .ok d → s.mem.write s.params d v = .ok m →
      ipFits s.params m.len (s.ip + 1 + ops.length) →
      exec (.inp ops) s = .next { s with mem := m, inq := rest, ip := s.ip + 1 + ops.length }) ∧
    (∀ trap, storeOperand s (s.bind ops) 0 v = .error trap →
      exec (.inp ops) s = .next (enterFault s.ip trap { s with inq := rest }))

/-- IN on an empty channel yields: nothing but the status changes, whatever its operand (42_io.md section 2; decision
D19; that IN asks the queue is log 14). -/
def Obligations.InYieldsOnAnEmptyChannel : Prop :=
  ∀ (s : State) (ops : List Operand), s.inq = [] → exec (.inp ops) s = .next { s with status := .halted }

/-- OUT without OUTPUT_YIELD appends its operand's value to the output channel; an operand that cannot be read raises and
pushes nothing (42_io.md section 2; decision D20). -/
def Obligations.OutPushesItsOperand : Prop :=
  ∀ (s : State) (ops : List Operand), s.params.outputYield = false →
    (∀ v, readOperand s (s.bind ops) 0 = .ok v → ipFits s.params s.mem.len (s.ip + 1 + ops.length) →
      exec (.out ops) s = .next { s with outq := s.outq ++ [v], ip := s.ip + 1 + ops.length }) ∧
    (∀ trap, readOperand s (s.bind ops) 0 = .error trap → exec (.out ops) s = .next (enterFault s.ip trap s))

/-- OUT with OUTPUT_YIELD: the first execution pushes the value, sets the latch and yields without moving `ip`; the
execution after the resume clears the latch, pushes nothing and moves on. So the value is pushed once (42_io.md section
2, 90_conflicts.md C3; decision D20). -/
def Obligations.OutYieldsOnceForEachValue : Prop :=
  ∀ (s : State) (ops : List Operand), s.params.outputYield = true →
    (∀ v, s.oyp = false → readOperand s (s.bind ops) 0 = .ok v →
      exec (.out ops) s = .next { s with outq := s.outq ++ [v], oyp := true, status := .halted }) ∧
    (∀ trap, s.oyp = false → readOperand s (s.bind ops) 0 = .error trap →
      exec (.out ops) s = .next (enterFault s.ip trap s)) ∧
    (s.oyp = true → ipFits s.params s.mem.len (s.ip + 1 + ops.length) →
      exec (.out ops) s = .next { s with oyp := false, ip := s.ip + 1 + ops.length })

/-- JT (43_jumps.md, from general knowledge G2; log 19): a non-zero condition sets `ip` to the target's value; a zero condition
goes on to the next instruction. -/
def Obligations.JtJumpsWhenNonZero : Prop :=
  ∀ (s : State) (ops : List Operand) (c t : Word), readOperand s (s.bind ops) 0 = .ok c →
    readOperand s (s.bind ops) 1 = .ok t →
    (c ≠ 0 → 0 ≤ t → ipFits s.params s.mem.len t.toNat → exec (.jt ops) s = .next { s with ip := t.toNat }) ∧
    (c = 0 → ipFits s.params s.mem.len (s.ip + 1 + ops.length) → exec (.jt ops) s = .next { s with ip := s.ip + 1 + ops.length })

/-- JF (43_jumps.md, its operand roles derived there from a scenario; log 19): only a zero condition jumps. -/
def Obligations.JfJumpsWhenZero : Prop :=
  ∀ (s : State) (ops : List Operand) (c t : Word), readOperand s (s.bind ops) 0 = .ok c →
    readOperand s (s.bind ops) 1 = .ok t →
    (c = 0 → 0 ≤ t → ipFits s.params s.mem.len t.toNat → exec (.jf ops) s = .next { s with ip := t.toNat }) ∧
    (c ≠ 0 → ipFits s.params s.mem.len (s.ip + 1 + ops.length) → exec (.jf ops) s = .next { s with ip := s.ip + 1 + ops.length })

/-- JT and JF raise in order: the condition's read, the target's read even when the jump is not taken (decision D21), a
negative target with `ip` unchanged (decision D5), a target above the length with `ip` at it (decision D13), and
falling through above the length. Which operand is the condition and which the target, and that non-zero is true, are
log 19 (the spec's G2). -/
def Obligations.JumpsRaiseInOrder : Prop :=
  ∀ (s : State) (ops : List Operand) (mk : List Operand → Instr) (taken : Word → Prop),
    (mk = Instr.jt ∧ taken = fun c => c ≠ 0) ∨ (mk = Instr.jf ∧ taken = fun c => c = 0) →
    (∀ trap, readOperand s (s.bind ops) 0 = .error trap → exec (mk ops) s = .next (enterFault s.ip trap s)) ∧
    (∀ c trap, readOperand s (s.bind ops) 0 = .ok c → readOperand s (s.bind ops) 1 = .error trap →
      exec (mk ops) s = .next (enterFault s.ip trap s)) ∧
    (∀ c t, readOperand s (s.bind ops) 0 = .ok c → readOperand s (s.bind ops) 1 = .ok t → taken c → t < 0 →
      exec (mk ops) s = .next (enterFault s.ip ⟨.negativeAddress, t⟩ s)) ∧
    (∀ c t, readOperand s (s.bind ops) 0 = .ok c → readOperand s (s.bind ops) 1 = .ok t → taken c →
      0 ≤ t → ¬ ipFits s.params s.mem.len t.toNat →
      exec (mk ops) s = .next (enterFault s.ip ⟨.unexpectedEndOfProgram, heldIp s.params t.toNat⟩
        { s with ip := heldIp s.params t.toNat })) ∧
    (∀ c t, readOperand s (s.bind ops) 0 = .ok c → readOperand s (s.bind ops) 1 = .ok t → ¬ taken c →
      ¬ ipFits s.params s.mem.len (s.ip + 1 + ops.length) →
      exec (mk ops) s = .next (enterFault s.ip ⟨.unexpectedEndOfProgram, heldIp s.params (s.ip + 1 + ops.length)⟩
        { s with ip := heldIp s.params (s.ip + 1 + ops.length) }))

/-- ARB (45_base_and_halt.md; 40_execution_loop.md section 3, decision D3): the value of its operand, read with the old
base, is added to the base and `ip` moves on; a sum that overflows leaves both as they were; a move past the length
keeps the new base and the new `ip` (decision D13). -/
def Obligations.ArbMovesTheBase : Prop :=
  ∀ (s : State) (ops : List Operand),
    (∀ x r, readOperand s (s.bind ops) 0 = .ok x → addW s.params s.rb x = .ok r →
      ipFits s.params s.mem.len (s.ip + 1 + ops.length) →
      exec (.arb ops) s = .next { s with rb := r, ip := s.ip + 1 + ops.length }) ∧
    (∀ x trap, readOperand s (s.bind ops) 0 = .ok x → addW s.params s.rb x = .error trap →
      exec (.arb ops) s = .next (enterFault s.ip trap s)) ∧
    (∀ trap, readOperand s (s.bind ops) 0 = .error trap → exec (.arb ops) s = .next (enterFault s.ip trap s)) ∧
    (∀ x r, readOperand s (s.bind ops) 0 = .ok x → addW s.params s.rb x = .ok r →
      ¬ ipFits s.params s.mem.len (s.ip + 1 + ops.length) →
      exec (.arb ops) s = .next (enterFault s.ip ⟨.unexpectedEndOfProgram, heldIp s.params (s.ip + 1 + ops.length)⟩
        { s with rb := r, ip := heldIp s.params (s.ip + 1 + ops.length) }))

/-- HLT (45_base_and_halt.md): every non-negative word whose two low digits are 99 decodes as HLT under the reference
registration, whatever its higher digits; HLT changes the status to HALTED and nothing else; a later RUN executes it again
and returns (RUN with a bound is log 15); and the core does not distinguish it from a yield of IN (decision D19; that IN
asks the queue is log 14). -/
def Obligations.HltStopsAndStaysStopped : Prop :=
  (∀ (w : Nat) (rest : List Word), w % 100 = 99 → decode referenceLut ((w : Int) :: rest) = .ok (.hlt [])) ∧
  (∀ (s : State) (ops : List Operand), exec (.hlt ops) s = .next { s with status := .halted }) ∧
  (∀ (s : State) (ops : List Operand) (n : Nat), s.status = .halted → fetchInstr s = .ok (.hlt ops) →
    run (n + 1) s = .ok (.returned .ok s)) ∧
  (∀ (s : State) (ops ops' : List Operand), s.inq = [] → exec (.hlt ops) s = exec (.inp ops') s)

/-! ### Custom handlers -/

/-- The primitives of an action tree, each in order, a raise ending it (40_execution_loop.md section 2, the inductive
HAction; decision D31; that InPop asks the queue is log 14). A word written or pushed is taken as it stands. -/
def Obligations.ActionTreesRunInOrder : Prop :=
  ∀ (s : State) (ops : List Op) (i : Nat) (v : Word), 1 ≤ s.params.wordBits → InWord s.params.wordBits v →
    (∀ k w, readOperand s ops i = .ok w → runAction ops (.read i k) s = runAction ops (k w) s) ∧
    (∀ k trap, readOperand s ops i = .error trap → runAction ops (.read i k) s = .error trap s) ∧
    (∀ k m, storeOperand s ops i v = .ok m → runAction ops (.write i v k) s = runAction ops k { s with mem := m }) ∧
    (∀ k trap, storeOperand s ops i v = .error trap → runAction ops (.write i v k) s = .error trap s) ∧
    (∀ k, s.inq = [] → runAction ops (.inPop k) s = runAction ops (k none) s) ∧
    (∀ k w rest, s.inq = w :: rest →
      runAction ops (.inPop k) s = runAction ops (k (some w)) { s with inq := rest }) ∧
    (∀ k, runAction ops (.outPush v k) s = runAction ops k { s with outq := s.outq ++ [v] }) ∧
    runAction ops (.ret .cont) s = .ok .cont s ∧ runAction ops (.ret .quit) s = .ok .quit s ∧
    runAction ops (.ret (.jumpTo v)) s = .ok (.jumpTo v) s ∧
    runAction ops (.ret (.adjustRelativeBase v)) s = .ok (.adjustRelativeBase v) s

/-- CUSTOM(k) completes: the effects of its tree, then those of the directive it returned. Where the tree raises, or its
directive does (a negative target, a base that overflows, an `ip` past the length: 40_execution_loop.md section 3,
decisions D3, D5, D13), it takes the fault with the effects made so far. It holds of listed and of unlisted handlers,
whatever the free tree is (log 3). -/
def Obligations.CustomRunsItsTree : Prop :=
  ∀ (s u : State) (k : Fin 0x8000) (ops : List Operand),
    (runAction (s.bind ops) (customTree s.params k) s = .ok .quit u →
      exec (.custom k ops) s = .next { u with status := .halted }) ∧
    (runAction (s.bind ops) (customTree s.params k) s = .ok .cont u → ipFits u.params u.mem.len (s.ip + 1 + ops.length) →
      exec (.custom k ops) s = .next { u with ip := s.ip + 1 + ops.length }) ∧
    (∀ t, runAction (s.bind ops) (customTree s.params k) s = .ok (.jumpTo t) u → 0 ≤ t →
      ipFits u.params u.mem.len t.toNat →
      exec (.custom k ops) s = .next { u with ip := t.toNat }) ∧
    (∀ x r, runAction (s.bind ops) (customTree s.params k) s = .ok (.adjustRelativeBase x) u →
      addW u.params u.rb x = .ok r → ipFits u.params u.mem.len (s.ip + 1 + ops.length) →
      exec (.custom k ops) s = .next { u with rb := r, ip := s.ip + 1 + ops.length }) ∧
    (∀ trap, runAction (s.bind ops) (customTree s.params k) s = .error trap u →
      exec (.custom k ops) s = .next (enterFault s.ip trap u)) ∧
    (∀ t, runAction (s.bind ops) (customTree s.params k) s = .ok (.jumpTo t) u → t < 0 →
      exec (.custom k ops) s = .next (enterFault s.ip ⟨.negativeAddress, t⟩ u)) ∧
    (∀ t, runAction (s.bind ops) (customTree s.params k) s = .ok (.jumpTo t) u → 0 ≤ t →
      ¬ ipFits u.params u.mem.len t.toNat →
      exec (.custom k ops) s = .next (enterFault s.ip ⟨.unexpectedEndOfProgram, heldIp u.params t.toNat⟩
        { u with ip := heldIp u.params t.toNat })) ∧
    (∀ x trap, runAction (s.bind ops) (customTree s.params k) s = .ok (.adjustRelativeBase x) u →
      addW u.params u.rb x = .error trap → exec (.custom k ops) s = .next (enterFault s.ip trap u)) ∧
    (¬ ipFits u.params u.mem.len (s.ip + 1 + ops.length) →
      (runAction (s.bind ops) (customTree s.params k) s = .ok .cont u →
        exec (.custom k ops) s = .next (enterFault s.ip ⟨.unexpectedEndOfProgram, heldIp u.params (s.ip + 1 + ops.length)⟩
          { u with ip := heldIp u.params (s.ip + 1 + ops.length) })) ∧
      (∀ x r, runAction (s.bind ops) (customTree s.params k) s = .ok (.adjustRelativeBase x) u →
        addW u.params u.rb x = .ok r →
        exec (.custom k ops) s = .next (enterFault s.ip ⟨.unexpectedEndOfProgram, heldIp u.params (s.ip + 1 + ops.length)⟩
          { u with rb := r, ip := heldIp u.params (s.ip + 1 + ops.length) })))

/-- A machine whose parameters list the spec's example COPY as CUSTOM(k) copies the value of operand 0 to operand 1
(95_test_vectors.md section 2.10; the listing is log 3). -/
def Obligations.CustomCopyCopies : Prop :=
  ∀ (s : State) (k : Fin 0x8000) (ops : List Operand) (v : Word) (m : Memory), 1 ≤ s.params.wordBits →
    s.params.custom[k.val]? = some copyProgram → readOperand s (s.bind ops) 0 = .ok v → InWord s.params.wordBits v →
    storeOperand s (s.bind ops) 1 v = .ok m → ipFits s.params m.len (s.ip + 1 + ops.length) →
    exec (.custom k ops) s = .next { s with mem := m, ip := s.ip + 1 + ops.length }

/-! ### Directives, faults, the whole machine -/

/-- `Continue` (40_execution_loop.md section 3): a handler that returns it moves `ip` past the opcode and its operands,
whatever the length, and leaves the relative base; where the new `ip` passes the end check, everything else is as the
handler left it. So an instruction that only ever continues moves `ip` by one more than its arity and leaves the relative
base. An `ip` that its register has no room for is log 11. -/
def Obligations.ContinueAdvancesPastTheOperands : Prop :=
  (∀ (ip0 n : Nat) (h : Handler Directive) (s u : State), h s = .ok .cont u →
    (ip0 + 1 + n < 2 ^ (u.params.wordBits - 1) → (completeStep ip0 n h s).ip = ip0 + 1 + n) ∧
    (completeStep ip0 n h s).rb = u.rb ∧
    (ipFits u.params u.mem.len (ip0 + 1 + n) → completeStep ip0 n h s = { u with ip := ip0 + 1 + n })) ∧
  (∀ (s t : State) (ops : List Operand) (mk : List Operand → Instr),
    mk ∈ [Instr.add, Instr.mul, Instr.inp, Instr.out, Instr.lt, Instr.eq] → s.status = .running →
    exec (mk ops) s = .next t → t.status = .running → t.ip = s.ip + 1 + ops.length ∧ t.rb = s.rb)

/-- R121: a handler that returns `Quit` stops the run with `ip` and the relative base where they are, without the end
check, and every effect of the handler remains. -/
def Obligations.QuitKeepsTheInstructionPointer : Prop :=
  (∀ (ip0 n : Nat) (h : Handler Directive) (s u : State), h s = .ok .quit u →
    completeStep ip0 n h s = { u with status := .halted }) ∧
  (∀ (i : Instr) (s t : State), s.status = .running → exec i s = .next t → t.status = .halted →
    t.ip = s.ip ∧ t.rb = s.rb)

/-- The end check, after every directive but `Quit` of every handler: `ip` above the length, taken after the step's own
writes, raises with the new `ip` as info and the new `ip` kept, and the new base after `AdjustRelativeBase`
(40_execution_loop.md section 3; decisions D13, D33, conflict C1). Before it, `JumpTo` of a negative target raises
(decision D5) and a base that overflows raises (decision D3), with `ip` and `rb` as they were. A step that raised nothing
leaves `ip` at most the length and a value of its register (10_state.md section 3). What the register holds of an address
above its range is log 11. -/
def Obligations.EndCheckComparesWithTheNewLength : Prop :=
  (∀ (ip0 n : Nat) (h : Handler Directive) (s u : State),
    (h s = .ok .cont u → ¬ ipFits u.params u.mem.len (ip0 + 1 + n) →
      completeStep ip0 n h s = enterFault ip0 ⟨.unexpectedEndOfProgram, heldIp u.params (ip0 + 1 + n)⟩
        { u with ip := heldIp u.params (ip0 + 1 + n) }) ∧
    (∀ t, h s = .ok (.jumpTo t) u → t < 0 → completeStep ip0 n h s = enterFault ip0 ⟨.negativeAddress, t⟩ u) ∧
    (∀ t, h s = .ok (.jumpTo t) u → 0 ≤ t → ¬ ipFits u.params u.mem.len t.toNat →
      completeStep ip0 n h s = enterFault ip0 ⟨.unexpectedEndOfProgram, heldIp u.params t.toNat⟩
        { u with ip := heldIp u.params t.toNat }) ∧
    (∀ x trap, h s = .ok (.adjustRelativeBase x) u → addW u.params u.rb x = .error trap →
      completeStep ip0 n h s = enterFault ip0 trap u) ∧
    (∀ x r, h s = .ok (.adjustRelativeBase x) u → addW u.params u.rb x = .ok r →
      ¬ ipFits u.params u.mem.len (ip0 + 1 + n) →
      completeStep ip0 n h s = enterFault ip0 ⟨.unexpectedEndOfProgram, heldIp u.params (ip0 + 1 + n)⟩
        { u with rb := r, ip := heldIp u.params (ip0 + 1 + n) })) ∧
  (∀ (p : Params) (a : Nat), (a < 2 ^ (p.wordBits - 1) → heldIp p a = a) ∧ heldIp p a < 2 ^ (p.wordBits - 1)) ∧
  (∀ (i : Instr) (s t : State), s.status = .running → exec i s = .next t → t.status = .running →
    t.ip ≤ t.mem.len ∧ t.ip < 2 ^ (t.params.wordBits - 1))

/-- Faults are precise (60_exceptions.md R212, R214; decisions D13, D18): a fault of an instruction records the address
of that instruction and a cause; `ip` and `rb` are as before it, except that after `UnexpectedEndOfProgram` `ip` is the
recorded address, which failed the end check; table, parameters and policy are untouched. Taking a fault writes the
record and the status and nothing else; a number that is no word is recorded as a free word (log 11). -/
def Obligations.FaultsArePrecise : Prop :=
  (∀ (ip0 : Nat) (trap : Trap) (s : State),
    enterFault ip0 trap s = { s with fault := (enterFault ip0 trap s).fault, status := .faulted } ∧
    (enterFault ip0 trap s).fault.cause = some trap.cause ∧ (enterFault ip0 trap s).fault.fip = ip0 ∧
    InWord s.params.wordBits (enterFault ip0 trap s).fault.info ∧
    (InWord s.params.wordBits trap.info → (enterFault ip0 trap s).fault.info = trap.info)) ∧
  ∀ (i : Instr) (s t : State), s.status = .running → exec i s = .next t → t.status = .faulted →
    t.fault.fip = s.ip ∧ t.fault.cause ≠ none ∧
    (t.fault.cause ≠ some .unexpectedEndOfProgram → t.ip = s.ip ∧ t.rb = s.rb) ∧
    (t.fault.cause = some .unexpectedEndOfProgram → t.fault.info = (t.ip : Int) ∧
      ∃ a, t.ip = heldIp t.params a ∧ ¬ ipFits t.params t.mem.len a) ∧
    t.lut = s.lut ∧ t.params = s.params ∧ t.mem.policy = s.mem.policy

/-- A fault is terminal (40_execution_loop.md R127; decision D12): a FAULTED machine takes no step, RUN returns the stored
record and changes nothing, no number of steps leaves the state, and no host command clears status or record. -/
def Obligations.FaultIsTerminal : Prop :=
  ∀ s : State, s.status = .faulted →
    (∀ n, stepMany n s = s) ∧ (∀ n, run n s = .ok (.returned (.err s.fault) s)) ∧
    (∀ c n kind t, register c n kind s = .ok t → t.status = .faulted ∧ t.fault = s.fault) ∧
    (∀ v t, pushInput v s = .ok t → t.status = .faulted ∧ t.fault = s.fault) ∧
    (∀ r t, popOutput s = .ok (r, t) → t.status = .faulted ∧ t.fault = s.fault)

/-- THE INVARIANT: every step keeps it, from every state that meets it. -/
def Obligations.StepKeepsTheInvariant : Prop := ∀ s t : State, s.Inv → step s = .next t → t.Inv

/-- Reset, and every machine constructed with sane parameters, meets the invariant, whatever the image. -/
def Obligations.ConstructionMeetsTheInvariant : Prop :=
  State.reset.Inv ∧ ∀ (p : Params) (image : List Int) (policy : MemPolicy), p.wf → (loadImage p image policy).Inv

/-- No step writes the dispatch table, a parameter or the memory policy (10_state.md R30, R38, 20_memory.md R52;
decisions D4, D31). -/
def Obligations.ProgramsNeverChangeTheTable : Prop :=
  ∀ s t : State, step s = .next t → t.lut = s.lut ∧ t.params = s.params ∧ t.mem.policy = s.mem.policy

/-- The length never shrinks, and under STRICT it never changes (20_memory.md R55, which the spec derives). -/
def Obligations.LengthNeverShrinks : Prop :=
  ∀ s t : State, step s = .next t → s.mem.len ≤ t.mem.len ∧ (s.mem.policy = .strict → t.mem.len = s.mem.len)

/-- The relative base is changed only by an `AdjustRelativeBase` directive, by what that directive adds: by ARB, with its
operand's value, or by a custom handler whose tree returned it (10_state.md R25, R26; decisions D3, D9). -/
def Obligations.OnlyAdjustRelativeBaseMovesTheBase : Prop :=
  ∀ (i : Instr) (s t : State), exec i s = .next t → t.rb ≠ s.rb →
    (∃ ops x, i = .arb ops ∧ readOperand s (s.bind ops) 0 = .ok x ∧ addW s.params s.rb x = .ok t.rb) ∨
    (∃ k ops x u, i = .custom k ops ∧
      runAction (s.bind ops) (customTree s.params k) s = .ok (.adjustRelativeBase x) u ∧
      addW s.params s.rb x = .ok t.rb)

/-! ### Frames -/

/-- FRAME of ADD, MUL, LT and EQ: nothing but memory, `ip`, and on a fault status and record; every address but the
destination operand's reads as before, and without a destination address all of them do. -/
def Obligations.ThreeOperandFrame : Prop :=
  ∀ (s t : State) (ops : List Operand) (mk : List Operand → Instr),
    mk ∈ [Instr.add, Instr.mul, Instr.lt, Instr.eq] → s.mem.wf → exec (mk ops) s = .next t →
    t = { s with mem := t.mem, ip := t.ip, status := t.status, fault := t.fault } ∧
    (t.status ≠ .faulted → t.status = s.status ∧ t.fault = s.fault) ∧ t.mem.policy = s.mem.policy ∧
    (∀ d, targetOperand s.params (s.bind ops) 2 = .ok d → ∀ a, a ≠ d → t.mem.read a = s.mem.read a) ∧
    (∀ trap, targetOperand s.params (s.bind ops) 2 = .error trap → t.mem = s.mem)

/-- FRAME of IN: nothing but memory at the destination, the input channel's head, `ip` and the status (and record on a
fault). The head is gone after a fault of the write too (decisions D13, D19, D21); that IN asks the queue is log 14. -/
def Obligations.InFrame : Prop :=
  ∀ (s t : State) (ops : List Operand), s.mem.wf → exec (.inp ops) s = .next t →
    t = { s with mem := t.mem, ip := t.ip, status := t.status, fault := t.fault, inq := s.inq.tail } ∧
    (t.status ≠ .faulted → t.fault = s.fault) ∧ t.mem.policy = s.mem.policy ∧
    (∀ d, targetOperand s.params (s.bind ops) 0 = .ok d → ∀ a, a ≠ d → t.mem.read a = s.mem.read a) ∧
    (∀ trap, targetOperand s.params (s.bind ops) 0 = .error trap → t.mem = s.mem)

/-- FRAME of the forms that store nothing: JT and JF change `ip`; HLT the status; ARB `rb` and `ip`; OUT the output channel,
the latch, `ip` and the status; each of them the status and record on a fault. Memory is unchanged as a whole. -/
def Obligations.NonStoringFrame : Prop :=
  ∀ (s t : State) (ops : List Operand),
    (∀ mk ∈ [Instr.jt, Instr.jf], exec (mk ops) s = .next t →
      t = { s with ip := t.ip, status := t.status, fault := t.fault } ∧
      (t.status ≠ .faulted → t.status = s.status ∧ t.fault = s.fault)) ∧
    (exec (.hlt ops) s = .next t → t = { s with status := t.status }) ∧
    (exec (.arb ops) s = .next t →
      t = { s with ip := t.ip, rb := t.rb, status := t.status, fault := t.fault } ∧
      (t.status ≠ .faulted → t.status = s.status ∧ t.fault = s.fault)) ∧
    (exec (.out ops) s = .next t →
      t = { s with ip := t.ip, status := t.status, fault := t.fault, outq := t.outq, oyp := t.oyp } ∧
      (t.status ≠ .faulted → t.fault = s.fault) ∧
      (t.outq = s.outq ∨ ∃ v, readOperand s (s.bind ops) 0 = .ok v ∧ t.outq = s.outq ++ [v]) ∧
      (s.params.outputYield = false → t.oyp = s.oyp))

/-- FRAME of CUSTOM(k), whatever its tree: the table, the parameters, the policy and the latch are unchanged; the input
channel has lost some of its oldest words and the output channel gained words at its end; every address that is no
operand's address reads as before (40_execution_loop.md R107, R109, R110). -/
def Obligations.CustomFrame : Prop :=
  ∀ (s t : State) (k : Fin 0x8000) (ops : List Operand), s.mem.wf → exec (.custom k ops) s = .next t →
    t.params = s.params ∧ t.lut = s.lut ∧ t.mem.policy = s.mem.policy ∧ t.oyp = s.oyp ∧
    (t.status ≠ .faulted → t.fault = s.fault) ∧
    (∃ n, t.inq = s.inq.drop n) ∧ (∃ ws, t.outq = s.outq ++ ws) ∧
    (∀ a, (∀ j, targetOperand s.params (s.bind ops) j ≠ .ok a) → t.mem.read a = s.mem.read a)

/-! ### Host commands, runs, machines -/

/-- REGISTER (40_execution_loop.md R111; decision D31): an opcode above 99 or an invalid kind code is a RegistrationError;
otherwise exactly one entry is replaced, by the kind the code names (10_state.md section 11). That code 0 is invalid is
log 9. -/
def Obligations.RegisterReplacesOneEntry : Prop :=
  ∀ (s : State) (c : Nat) (n : Fin 256), s.status ≠ .running →
    (∀ code, 99 < c → register c n code s = .error (.registration c)) ∧
    (∀ code, (code = 0 ∨ (11 ≤ code ∧ code < 0x8000) ∨ 0x10000 ≤ code) →
      register c n code s = .error (.registration c)) ∧
    (∀ (hc : c < 100) (code : Nat) (kind : HandlerKind),
      ((code, kind) ∈ [(1, HandlerKind.add), (2, HandlerKind.mul), (3, HandlerKind.inp), (4, HandlerKind.out),
          (5, HandlerKind.jt), (6, HandlerKind.jf), (7, HandlerKind.lt), (8, HandlerKind.eq), (9, HandlerKind.arb),
          (10, HandlerKind.halt)] ∨
        ∃ k : Fin 0x8000, code = 0x8000 + k.val ∧ kind = .custom k) →
      ∃ t, register c n code s = .ok t ∧ t = { s with lut := t.lut } ∧ t.lut[c] = some ⟨n, kind⟩ ∧
        ∀ d : Fin 100, d.val ≠ c → t.lut[d] = s.lut[d])

/-- R134: REFERENCE_ISA on any machine between runs registers the ten reference handlers with their arities and leaves
every other entry and everything else as it was. -/
def Obligations.ReferenceIsaInstallsTheTenHandlers : Prop :=
  ∀ s : State, s.status ≠ .running → ∃ t, registerReferenceIsa s = .ok t ∧ t = { s with lut := t.lut } ∧
    t.lut[1] = some ⟨3, .add⟩ ∧ t.lut[2] = some ⟨3, .mul⟩ ∧ t.lut[3] = some ⟨1, .inp⟩ ∧ t.lut[4] = some ⟨1, .out⟩ ∧
    t.lut[5] = some ⟨2, .jt⟩ ∧ t.lut[6] = some ⟨2, .jf⟩ ∧ t.lut[7] = some ⟨3, .lt⟩ ∧ t.lut[8] = some ⟨3, .eq⟩ ∧
    t.lut[9] = some ⟨1, .arb⟩ ∧ t.lut[99] = some ⟨0, .halt⟩ ∧
    ∀ c : Fin 100, c.val = 0 ∨ (10 ≤ c.val ∧ c.val ≤ 98) → t.lut[c] = s.lut[c]

/-- Construction (20_memory.md R73, 70_reset_and_hazards.md R230, READ_IMAGE R74; decisions D8-D11, D22): the image can be
read back, and every other element of the state has its reset value. That an image longer than MEM_CAP is loaded whole is
log 12. -/
def Obligations.LoadImageResetsEverything : Prop :=
  ∀ (p : Params) (image : List Word) (policy : MemPolicy), 1 ≤ p.wordBits → (∀ w ∈ image, InWord p.wordBits w) →
    let s := loadImage p image policy
    readImage s = .ok (image.length, image) ∧ s.mem.policy = policy ∧ s.params = p ∧ s.ip = 0 ∧ s.rb = 0 ∧
      s.status = .halted ∧ s.fault = ⟨none, 0, 0⟩ ∧ s.inq = [] ∧ s.outq = [] ∧ s.oyp = false ∧
      ∀ c : Fin 100, s.lut[c] = none

/-- LOAD_TEXT of the decimal spelling of a non-empty image is LOAD_IMAGE of it (20_memory.md R72, R73; decisions D22,
D23). -/
def Obligations.LoadTextOfTheSpellingIsLoadImage : Prop :=
  ∀ (p : Params) (image : List Word) (policy : MemPolicy), image ≠ [] → (∀ w ∈ image, InWord p.wordBits w) →
    loadText p (spellImage image) policy = .ok (loadImage p image policy)

/-- LOAD_TEXT of a text with a token that is no word of the machine fails, with the first such token and its index, and
no machine is created (20_memory.md R72, 60_exceptions.md R213; decision D23). -/
def Obligations.LoadTextReportsTheFirstBadToken : Prop :=
  ∀ (p : Params) (text : List Char) (policy : MemPolicy) (j : Nat) (token : List Char),
    (splitAtCommas text)[j]? = some token → tokenWord p token = none →
    (∀ i u, i < j → (splitAtCommas text)[i]? = some u → tokenWord p u ≠ none) →
    loadText p text policy = .error (.parse j token)

/-- READ_REG (10_state.md R36, R37, 60_exceptions.md R201; decisions D18, D22): the register map, with the fault code of
each cause, and the packing of a table entry as bit 0 valid, bits 8..1 arity, bits 31..16 the code of its kind; a number
outside the map reads 0. -/
def Obligations.ReadRegFollowsTheMap : Prop :=
  ∀ s : State, s.status ≠ .running →
    readReg 0x00 s = .ok (match s.status with | .halted => 0 | .running => 1 | .faulted => 2) ∧
    readReg 0x01 s = .ok (s.ip : Int) ∧ readReg 0x02 s = .ok s.rb ∧
    readReg 0x03 s = .ok (match s.fault.cause with
      | none => 0
      | some .invalidOpcode => 1
      | some .unknownOpcode => 2
      | some .invalidMode => 3
      | some .incompatibleMode => 4
      | some .outOfBounds => 5
      | some .unexpectedEndOfProgram => 6
      | some .negativeAddress => 7
      | some .arithmeticOverflow => 8
      | some .capacityExceeded => 9
      | some .operandIndexOutOfRange => 10) ∧
    readReg 0x04 s = .ok (s.fault.fip : Int) ∧ readReg 0x05 s = .ok s.fault.info ∧
    readReg 0x06 s = .ok (s.mem.len : Int) ∧
    readReg 0x07 s = .ok (match s.mem.policy with | .strict => 0 | .extended => 1) ∧
    readReg 0x08 s = .ok (if s.oyp then 1 else 0) ∧
    (∀ c : Fin 100, readReg (0x100 + c) s = .ok (match s.lut[c] with
      | none => 0
      | some r => ((1 + 2 * r.arity.val + 65536 * (match r.kind with
        | .add => 1
        | .mul => 2
        | .inp => 3
        | .out => 4
        | .jt => 5
        | .jf => 6
        | .lt => 7
        | .eq => 8
        | .arb => 9
        | .halt => 10
        | .custom k => 0x8000 + k.val) : Nat) : Int))) ∧
    (∀ n, (9 ≤ n ∧ n < 0x100) ∨ 0x164 ≤ n → readReg n s = .ok 0)

/-- RUN (40_execution_loop.md section 4) is legal between runs, and answers `runInProgress` otherwise (log 16); it is
followed up to a bound on its steps (log 15). On a FAULTED machine it returns the stored record; otherwise the status becomes
RUNNING and steps are taken one after another until one stops (`Ok`, HALTED) or raises (`Err` with the record, which
holds a cause and `ip` at the start of that step, FAULTED). -/
def Obligations.RunFollowsItsSteps : Prop :=
  ∀ (s : State) (n : Nat),
    (s.status = .running → run n s = .error .runInProgress) ∧
    (s.status = .faulted → run n s = .ok (.returned (.err s.fault) s)) ∧
    (s.status = .halted → run n s = .ok (runLoop n { s with status := .running })) ∧
    (s.status = .running → ∃ t, step s = .next t ∧
      (t.status = .running → runLoop (n + 1) s = runLoop n t) ∧
      (t.status = .halted → runLoop (n + 1) s = .returned .ok t) ∧
      (t.status = .faulted → t.fault.fip = s.ip ∧ t.fault.cause ≠ none ∧
        runLoop (n + 1) s = .returned (.err t.fault) t))

/-- RESUME IDEMPOTENCE (40_execution_loop.md R129, which the spec derives; bounds on the steps are log 15). First clause:
on a machine without custom handlers, a run that stopped at an input yield, resumed after inputs were pushed, ends exactly
as one uninterrupted run that found those inputs queued from its start. Second clause, of every table: a run that stopped
at an output yield, resumed to an end that is no output yield, ends in the same memory, registers and output as one
uninterrupted run of the machine without OUTPUT_YIELD. -/
def Obligations.ResumedRunEndsAsAnUninterruptedOne : Prop :=
  (∀ (s s1 t : State) (r : RunResult) (ops : List Operand) (words : List Word) (n m : Nat),
    referenceKindsOnly s.lut → s.status = .halted → run n s = .ok (.returned .ok s1) →
    fetchInstr s1 = .ok (.inp ops) → s1.inq = [] →
    run m (s1.withInput words) = .ok (.returned r t) →
    run (n + m) (s.withInput words) = .ok (.returned r t)) ∧
  (∀ (s s1 t : State) (r : RunResult) (n m : Nat), s.status = .halted → s.params.outputYield = true → s.oyp = false →
    run n s = .ok (.returned .ok s1) → s1.oyp = true → run m s1 = .ok (.returned r t) → t.oyp = false →
    run (n + m) s.withoutOutputYield = .ok (.returned r t.withoutOutputYield))

/-- A jump to itself never ends its run (40_execution_loop.md R131; 43_jumps.md, vector V-JMP-12; JT's operand roles and
its truth test are log 19, the spec's G2): whatever the bound (log 15), the run is still in progress and nothing else has
changed. -/
def Obligations.SelfJumpNeverReturns : Prop :=
  ∀ (s : State) (c : Word) (n : Nat), s.status = .halted → c ≠ 0 → ipFits s.params s.mem.len s.ip →
    fetchInstr s = .ok (.jt [⟨.immediate, c⟩, ⟨.immediate, (s.ip : Int)⟩]) →
    run n s = .ok (.inProgress { s with status := .running })

/-- Machines share nothing, and the host acts between runs (60_exceptions.md R222, 40_execution_loop.md R132, R133;
decisions D22, D30). A command, RUN among them, has on its machine the effect it has on a machine alone, and DROP ends its
machine; every other machine is as it was. While any machine is RUNNING every command is refused (log 16, log 20). One
machine runs at a time, and its step changes no other machine (a run followed past its bound is log 15). Between runs the
host can move the oldest output of one machine to the end of another's input. -/
def Obligations.MachinesShareNothing : Prop :=
  ∀ (w : World) (h : Nat),
    (∀ s c, w.inProgress = false → w.machine h = some s →
      (∀ a t, applyCommand c s = .ok (a, t) → ∃ w', w.command h c = .ok (a, w') ∧ w'.machine h = some t ∧
        ∀ g, g ≠ h → w'.machine g = w.machine g) ∧
      (∀ e, applyCommand c s = .error e → w.command h c = .error e) ∧
      (∃ w', w.drop h = .ok w' ∧ w'.machine h = none ∧ ∀ g, g ≠ h → w'.machine g = w.machine g)) ∧
    (∀ g s, w.machine g = some s → s.status = .running → w.drop h = .error .runInProgress ∧
      (∀ c, w.command h c = .error .runInProgress) ∧ ∀ target, w.moveOutput h target = .error .runInProgress) ∧
    (w.oneRuns →
      (∀ s t, w.machine h = some s → s.status = .running → Machine.step s = .next t →
        (World.step w).machine h = some t ∧ ∀ g, g ≠ h → (World.step w).machine g = w.machine g) ∧
      (World.step w).oneRuns ∧ (∀ c a w', w.command h c = .ok (a, w') → w'.oneRuns) ∧
      (∀ w', w.drop h = .ok w' → w'.oneRuns) ∧ (∀ p image policy, (w.loadImage p image policy).oneRuns) ∧
      (∀ p text policy w', w.loadText p text policy = .ok w' → w'.oneRuns)) ∧
    (∀ g s t v rest, w.inProgress = false → g ≠ h → w.machine h = some s → w.machine g = some t →
      s.outq = v :: rest → 1 ≤ t.params.wordBits → InWord t.params.wordBits v →
      ∃ w', w.moveOutput h g = .ok w' ∧ w'.machine h = some { s with outq := rest } ∧
        w'.machine g = some { t with inq := t.inq ++ [v] } ∧
        ∀ j, j ≠ h → j ≠ g → w'.machine j = w.machine j)

/-- The channels' host side (40_execution_loop.md R132, R133; decision D22): PUSH_INPUT appends a word, POP_OUTPUT takes
the oldest output, and neither changes anything else; all three commands are refused while a run is in progress. -/
def Obligations.HostChannelsAreQueues : Prop :=
  ∀ (s : State) (v : Word),
    (s.status ≠ .running → 1 ≤ s.params.wordBits → InWord s.params.wordBits v →
      pushInput v s = .ok (s.withInput [v])) ∧
    (s.status ≠ .running → s.outq = [] → popOutput s = .ok (none, s)) ∧
    (∀ w rest, s.status ≠ .running → s.outq = w :: rest → popOutput s = .ok (some w, { s with outq := rest })) ∧
    (s.status = .running → pushInput v s = .error .runInProgress ∧ popOutput s = .error .runInProgress ∧
      readImage s = .error .runInProgress ∧ ∀ c n k, register c n k s = .error .runInProgress)
end

