-- ==== Sys2Proof/Laws/State.lean ====
section
/-! SUPPORT. One lemma per field per named update of State. -/

namespace Sys2Proof.Machine

section EnterFault
variable (ip0 : Nat) (t : Trap) (s : State)
@[simp] theorem enterFault_params : (enterFault ip0 t s).params = s.params := rfl
@[simp] theorem enterFault_mem : (enterFault ip0 t s).mem = s.mem := rfl
@[simp] theorem enterFault_ip : (enterFault ip0 t s).ip = s.ip := rfl
@[simp] theorem enterFault_rb : (enterFault ip0 t s).rb = s.rb := rfl
@[simp] theorem enterFault_lut : (enterFault ip0 t s).lut = s.lut := rfl
@[simp] theorem enterFault_status : (enterFault ip0 t s).status = .faulted := rfl
@[simp] theorem enterFault_fault : (enterFault ip0 t s).fault = ⟨some t.cause, ip0, heldInfo s.params t.info⟩ := rfl
@[simp] theorem enterFault_inq : (enterFault ip0 t s).inq = s.inq := rfl
@[simp] theorem enterFault_outq : (enterFault ip0 t s).outq = s.outq := rfl
@[simp] theorem enterFault_oyp : (enterFault ip0 t s).oyp = s.oyp := rfl
end EnterFault

section Constructed
variable (p : Params) (m : Memory)
@[simp] theorem constructed_params : (State.constructed p m).params = p := rfl
@[simp] theorem constructed_mem : (State.constructed p m).mem = m := rfl
@[simp] theorem constructed_ip : (State.constructed p m).ip = 0 := rfl
@[simp] theorem constructed_rb : (State.constructed p m).rb = 0 := rfl
@[simp] theorem constructed_lut : (State.constructed p m).lut = emptyLut := rfl
@[simp] theorem constructed_status : (State.constructed p m).status = .halted := rfl
@[simp] theorem constructed_fault : (State.constructed p m).fault = .clear := rfl
@[simp] theorem constructed_inq : (State.constructed p m).inq = [] := rfl
@[simp] theorem constructed_outq : (State.constructed p m).outq = [] := rfl
@[simp] theorem constructed_oyp : (State.constructed p m).oyp = false := rfl
end Constructed

section ReadsOfOneField
variable (s : State)

/-- An operand read depends on the parameters and the memory alone. -/
theorem readOperand_congr {s t : State} (hp : t.params = s.params) (hm : t.mem = s.mem) (ops : List Op) (i : Nat) :
    readOperand t ops i = readOperand s ops i := by
  simp only [readOperand, hp, hm]

/-- The fetch depends on the table, the memory and `ip` alone. -/
theorem fetchInstr_congr {s t : State} (hl : t.lut = s.lut) (hm : t.mem = s.mem) (hi : t.ip = s.ip) :
    fetchInstr t = fetchInstr s := by
  simp only [fetchInstr, hl, hm, hi]

end ReadsOfOneField

end Sys2Proof.Machine
end

