-- ==== Sys2Proof/Laws/Memory.lean ====
section
/-! SUPPORT. memory_subsystem: reading after writing, what a write leaves alone, and the canonical form. -/

namespace Sys2Proof.Machine

/-! ### Cell lists -/

/-- An address below every listed one holds 0. -/
theorem cellAt_eq_zero_of_lt {cells : List Cell} {a : Nat} (h : ∀ c ∈ cells, a < c.1) : cellAt cells a = 0 := by
  induction cells with
  | nil => rfl
  | cons c rest ih =>
    have hc := h c (by simp)
    have : a ≠ c.1 := by omega
    simp only [cellAt, this, if_false]
    exact ih fun d hd => h d (by simp [hd])

/-- An address that is not listed holds 0. -/
theorem cellAt_eq_zero_of_not_listed {cells : List Cell} {a : Nat} (h : ∀ c ∈ cells, c.1 ≠ a) :
    cellAt cells a = 0 := by
  induction cells with
  | nil => rfl
  | cons c rest ih =>
    have hc := h c (by simp)
    simp only [cellAt, Ne.symm hc, if_false]
    exact ih fun d hd => h d (by simp [hd])

/-- The word at an address is 0 or a listed one. -/
theorem cellAt_eq_zero_or_mem (cells : List Cell) (a : Nat) :
    cellAt cells a = 0 ∨ (a, cellAt cells a) ∈ cells := by
  induction cells with
  | nil => exact .inl rfl
  | cons c rest ih =>
    simp only [cellAt]
    split
    · subst_vars; exact .inr (by simp)
    · rcases ih with h | h
      · exact .inl h
      · exact .inr (by simp [h])

/-- The addresses of a set cell list are the old ones and the one set. -/
theorem mem_setCell {cells : List Cell} {a : Nat} {v : Word} {c : Cell} (h : c ∈ setCell cells a v) :
    c = (a, v) ∧ v ≠ 0 ∨ c ∈ cells := by
  induction cells with
  | nil =>
    simp only [setCell] at h
    split at h <;> simp_all
  | cons d rest ih =>
    simp only [setCell] at h
    split at h
    · split at h
      · exact .inr h
      · rcases List.mem_cons.1 h with rfl | h
        · exact .inl ⟨rfl, by assumption⟩
        · exact .inr h
    · split at h
      · split at h
        · exact .inr (List.mem_cons_of_mem _ h)
        · rcases List.mem_cons.1 h with rfl | h
          · exact .inl ⟨rfl, by assumption⟩
          · exact .inr (List.mem_cons_of_mem _ h)
      · simp only [List.mem_cons] at h ⊢
        rcases h with h | h
        · exact .inr (.inl h)
        · rcases ih h with h | h
          · exact .inl h
          · exact .inr (.inr h)

theorem pairwise_setCell {cells : List Cell} (hs : cells.Pairwise fun x y => x.1 < y.1) (a : Nat) (v : Word) :
    (setCell cells a v).Pairwise fun x y => x.1 < y.1 := by
  induction cells with
  | nil => simp only [setCell]; split <;> simp
  | cons c rest ih =>
    rw [List.pairwise_cons] at hs
    simp only [setCell]
    split
    · split
      · exact List.pairwise_cons.2 hs
      · refine List.pairwise_cons.2 ⟨?_, List.pairwise_cons.2 hs⟩
        intro d hd
        rcases List.mem_cons.1 hd with rfl | hd
        · assumption
        · have := hs.1 d hd
          simp only at *
          omega
    · split
      · split
        · exact hs.2
        · refine List.pairwise_cons.2 ⟨?_, hs.2⟩
          intro d hd
          have := hs.1 d hd
          simp only at *
          omega
      · refine List.pairwise_cons.2 ⟨?_, ih hs.2⟩
        intro d hd
        rcases mem_setCell hd with ⟨rfl, -⟩ | hd
        · simp only at *; omega
        · exact hs.1 d hd

/-- Read after write, at the same address. -/
theorem cellAt_setCell_same {cells : List Cell} (hs : cells.Pairwise fun x y => x.1 < y.1) (a : Nat) (v : Word) :
    cellAt (setCell cells a v) a = v := by
  induction cells with
  | nil =>
    simp only [setCell]
    split <;> simp_all [cellAt]
  | cons c rest ih =>
    rw [List.pairwise_cons] at hs
    simp only [setCell]
    split
    · split
      · subst_vars
        refine cellAt_eq_zero_of_lt fun d hd => ?_
        rcases List.mem_cons.1 hd with rfl | hd
        · assumption
        · have := hs.1 d hd
          omega
      · simp [cellAt]
    · split
      · split
        · subst_vars
          exact cellAt_eq_zero_of_lt fun d hd => hs.1 d hd
        · simp [cellAt]
      · simp only [cellAt]
        rw [if_neg (by omega)]
        exact ih hs.2

/-- A write leaves every other address alone. -/
theorem cellAt_setCell_other {cells : List Cell} (hs : cells.Pairwise fun x y => x.1 < y.1) {a b : Nat} (h : b ≠ a)
    (v : Word) : cellAt (setCell cells a v) b = cellAt cells b := by
  induction cells with
  | nil =>
    simp only [setCell]
    split <;> simp [cellAt, h]
  | cons c rest ih =>
    rw [List.pairwise_cons] at hs
    simp only [setCell]
    split
    · split
      · rfl
      · simp [cellAt, h]
    · split
      · subst_vars
        split <;> simp [cellAt, h]
      · simp only [cellAt, ih hs.2]

/-! ### Memory -/

/-- In canonical form, an address at or beyond the length is not listed. -/
theorem Memory.wf.cellAt_beyond {m : Memory} (h : m.wf) {a : Nat} (ha : m.len ≤ a) : cellAt m.cells a = 0 := by
  refine cellAt_eq_zero_of_not_listed fun c hc he => ?_
  have := (h.2 c hc).2
  omega

/-- In canonical form, `M[a]` is what the cell list holds, allocated or not. -/
theorem Memory.wf.cell_eq {m : Memory} (h : m.wf) (a : Nat) : m.cell a = cellAt m.cells a := by
  unfold Memory.cell
  split
  · rfl
  · exact (h.cellAt_beyond (by omega)).symm

/-- Everything `MemRead` can do (20_memory.md R53). -/
theorem Memory.read_eq_ok {m : Memory} {a : Int} {v : Word} :
    m.read a = .ok v ↔ 0 ≤ a ∧ ((a < m.len ∧ v = cellAt m.cells a.toNat) ∨
      ((m.len : Int) ≤ a ∧ m.policy = .extended ∧ v = 0)) := by
  unfold Memory.read
  by_cases ha : a < 0
  · rw [if_pos ha]
    exact ⟨nofun, fun h => by omega⟩
  rw [if_neg ha]
  by_cases hl : a < m.len
  · rw [if_pos hl, Except.ok.injEq]
    exact ⟨fun h => ⟨by omega, .inl ⟨hl, h.symm⟩⟩, fun h => by
      rcases h.2 with h | h
      · exact h.2.symm
      · omega⟩
  rw [if_neg hl]
  cases m.policy with
  | strict => exact ⟨nofun, fun h => by rcases h.2 with h | h <;> simp_all⟩
  | extended =>
    simp only [Except.ok.injEq, true_and]
    exact ⟨fun h => ⟨by omega, .inr ⟨by omega, h.symm⟩⟩, fun h => by
      rcases h.2 with h | h
      · omega
      · exact h.2.symm⟩

/-- Everything `MemWrite` can do when it succeeds (20_memory.md R54). -/
theorem Memory.write_eq_ok {p : Params} {m m' : Memory} {a : Int} {v : Word} (h : m.write p a v = .ok m') :
    0 ≤ a ∧ m'.policy = m.policy ∧ m'.cells = setCell m.cells a.toNat v ∧
      ((a < m.len ∧ m'.len = m.len) ∨
        ((m.len : Int) ≤ a ∧ m.policy = .extended ∧ beyondCap p a = false ∧ m'.len = a.toNat + 1)) := by
  unfold Memory.write at h
  split at h
  · cases h
  · split at h
    · cases h; exact ⟨by omega, rfl, rfl, .inl ⟨by omega, rfl⟩⟩
    · split at h
      · cases h
      · split at h
        · cases h
        · cases h; exact ⟨by omega, rfl, rfl, .inr ⟨by omega, by assumption, by simp_all, rfl⟩⟩

theorem Memory.write_len_le {p : Params} {m m' : Memory} {a : Int} {v : Word} (h : m.write p a v = .ok m') :
    m.len ≤ m'.len := by
  obtain ⟨_, _, _, h | h⟩ := Memory.write_eq_ok h <;> omega

theorem Memory.write_policy {p : Params} {m m' : Memory} {a : Int} {v : Word} (h : m.write p a v = .ok m') :
    m'.policy = m.policy := (Memory.write_eq_ok h).2.1

theorem Memory.write_len_strict {p : Params} {m m' : Memory} {a : Int} {v : Word} (h : m.write p a v = .ok m')
    (hs : m.policy = .strict) : m'.len = m.len := by
  obtain ⟨_, _, _, h | h⟩ := Memory.write_eq_ok h
  · exact h.2
  · simp [hs] at h

/-- A write keeps the canonical form. -/
theorem Memory.write_wf {p : Params} {m m' : Memory} {a : Int} {v : Word} (hw : m.wf) (h : m.write p a v = .ok m') :
    m'.wf := by
  obtain ⟨ha, -, hc, hl⟩ := Memory.write_eq_ok h
  refine ⟨hc ▸ pairwise_setCell hw.1 _ _, fun c hc' => ?_⟩
  rw [hc] at hc'
  have hlen := Memory.write_len_le h
  rcases mem_setCell hc' with ⟨rfl, hv⟩ | hc'
  · refine ⟨hv, ?_⟩
    simp only
    rcases hl with hl | hl <;> omega
  · have := hw.2 c hc'
    exact ⟨this.1, by omega⟩

/-- The words of a memory after a write are its old words and the one written. -/
theorem Memory.write_words {p : Params} {m m' : Memory} {a : Int} {v : Word} (h : m.write p a v = .ok m')
    {P : Word → Prop} (hm : ∀ c ∈ m.cells, P c.2) (hv : P v) : ∀ c ∈ m'.cells, P c.2 := by
  obtain ⟨-, -, hc, -⟩ := Memory.write_eq_ok h
  rw [hc]
  intro c hc'
  rcases mem_setCell hc' with ⟨rfl, -⟩ | hc'
  · exact hv
  · exact hm c hc'

/-- Read after write, at the same address (20_memory.md R69). -/
theorem Memory.read_write_same {p : Params} {m m' : Memory} {a : Int} {v : Word} (hw : m.wf)
    (h : m.write p a v = .ok m') : m'.read a = .ok v := by
  obtain ⟨ha, -, hc, hl⟩ := Memory.write_eq_ok h
  rw [Memory.read_eq_ok, hc, cellAt_setCell_same hw.1]
  exact ⟨ha, .inl ⟨by rcases hl with hl | hl <;> omega, rfl⟩⟩

/-- A write leaves what every other address reads as alone (20_memory.md R56, R57, R69). -/
theorem Memory.read_write_other {p : Params} {m m' : Memory} {a b : Int} {v : Word} (hw : m.wf)
    (h : m.write p a v = .ok m') (hb : b ≠ a) : m'.read b = m.read b := by
  obtain ⟨ha, hp, hc, hl⟩ := Memory.write_eq_ok h
  unfold Memory.read
  split
  · rfl
  · have hne : b.toNat ≠ a.toNat := by omega
    rw [hc, cellAt_setCell_other hw.1 hne, hp]
    rcases hl with hl | hl
    · rw [hl.2]
    · by_cases hbl : b < m.len
      · rw [if_pos hbl, if_pos (by omega)]
      · rw [if_neg hbl, hl.2.1]
        split
        · rw [hw.cellAt_beyond (by omega)]
        · rfl

/-! ### Images and placed cells -/

theorem imageCells_addr {a : Nat} {ws : List Word} {c : Cell} (h : c ∈ imageCells a ws) :
    a ≤ c.1 ∧ c.1 < a + ws.length ∧ c.2 ≠ 0 ∧ c.2 ∈ ws := by
  induction ws generalizing a with
  | nil => simp [imageCells] at h
  | cons w rest ih =>
    simp only [imageCells] at h
    split at h
    · have := ih h
      simp only [List.length_cons, List.mem_cons]
      exact ⟨by omega, by omega, this.2.2.1, .inr this.2.2.2⟩
    · rcases List.mem_cons.1 h with rfl | h
      · simp_all
      · have := ih h
        simp only [List.length_cons, List.mem_cons]
        exact ⟨by omega, by omega, this.2.2.1, .inr this.2.2.2⟩

theorem pairwise_imageCells (a : Nat) (ws : List Word) :
    (imageCells a ws).Pairwise fun x y => x.1 < y.1 := by
  induction ws generalizing a with
  | nil => exact .nil
  | cons w rest ih =>
    simp only [imageCells]
    split
    · exact ih _
    · refine List.pairwise_cons.2 ⟨fun d hd => ?_, ih _⟩
      have := imageCells_addr hd
      simp only
      omega

/-- An image's memory is in canonical form. -/
theorem imageMemory_wf (ws : List Word) (policy : MemPolicy) : (⟨imageCells 0 ws, ws.length, policy⟩ : Memory).wf := by
  refine ⟨pairwise_imageCells 0 ws, fun c hc => ?_⟩
  have := imageCells_addr hc
  exact ⟨this.2.2.1, by simpa using this.2.1⟩

/-- An image's cells hold the image. -/
theorem cellAt_imageCells (a : Nat) (ws : List Word) (j : Nat) : cellAt (imageCells a ws) (a + j) = ws.getD j 0 := by
  induction ws generalizing a j with
  | nil => simp [imageCells, cellAt]
  | cons w rest ih =>
    simp only [imageCells]
    cases j with
    | zero =>
      split
      · subst_vars
        simp only [Nat.add_zero, List.getD_cons_zero]
        exact cellAt_eq_zero_of_lt fun c hc => by have := imageCells_addr hc; omega
      · simp [cellAt]
    | succ j =>
      have := ih (a + 1) j
      rw [show a + 1 + j = a + (j + 1) by omega] at this
      split
      · simpa using this
      · simp only [cellAt]
        rw [if_neg (by omega)]
        simpa using this

theorem pairwise_placeCells {cells : List Cell} (hs : cells.Pairwise fun x y => x.1 < y.1) (a : Nat) (ws : List Word) :
    (placeCells cells a ws).Pairwise fun x y => x.1 < y.1 := by
  induction ws generalizing cells a with
  | nil => exact hs
  | cons w rest ih => exact ih (pairwise_setCell hs a w) _

theorem mem_placeCells {cells : List Cell} {a : Nat} {ws : List Word} {c : Cell} (h : c ∈ placeCells cells a ws) :
    c ∈ cells ∨ (c.1 < a + ws.length ∧ c.2 ≠ 0) := by
  induction ws generalizing cells a with
  | nil => exact .inl h
  | cons w rest ih =>
    simp only [placeCells] at h
    rcases ih h with h | h
    · rcases mem_setCell h with ⟨rfl, hv⟩ | h
      · exact .inr ⟨by simp, hv⟩
      · exact .inl h
    · exact .inr ⟨by simp only [List.length_cons]; omega, h.2⟩

/-- Placing an instruction for the next step keeps the canonical form. -/
theorem withFetchWord_mem_wf (s : State) (h : s.mem.wf) (nbits w : Nat) : (s.withFetchWord nbits w).mem.wf := by
  refine ⟨pairwise_placeCells h.1 _ _, fun c hc => ?_⟩
  have hlen : (tableCells s.params.wordBits nbits w).length = longestInstruction := by
    simp [tableCells, longestInstruction, cellsOfNumber]
  simp only [State.withFetchWord] at hc ⊢
  rcases mem_placeCells hc with hc | hc
  · have := h.2 c hc
    exact ⟨this.1, by omega⟩
  · rw [hlen] at hc
    exact ⟨hc.2, by omega⟩

/-- Reset's memory is in canonical form. -/
theorem reset_mem_wf : State.reset.mem.wf := by decide

end Sys2Proof.Machine
end

