-- ==== Sys2Proof/Laws/Arithmetic.lean ====
section
/-! SUPPORT. Word arithmetic (41_arithmetic.md R150): what is in range stays as it is, and every result is a word. -/

namespace Sys2Proof.Machine

theorem halfRange_pos (wordBits : Nat) : 0 < halfRange wordBits := Nat.two_pow_pos _

/-- `2^W = 2 * 2^(W-1)`. -/
theorem two_pow_eq_double {wordBits : Nat} (h : 1 ≤ wordBits) : 2 ^ wordBits = 2 * halfRange wordBits := by
  obtain ⟨n, rfl⟩ : ∃ n, wordBits = n + 1 := ⟨wordBits - 1, by omega⟩
  simp [halfRange, Nat.pow_succ, Nat.mul_comm]

/-- A wrapped integer is a word. -/
theorem wrapWord_inWord (wordBits : Nat) (x : Int) : InWord wordBits (wrapWord wordBits x) := by
  have hpos := halfRange_pos wordBits
  have hmod : (0 : Int) < ((2 ^ wordBits : Nat) : Int) := by exact_mod_cast Nat.two_pow_pos wordBits
  have h1 := Int.emod_nonneg (x + (halfRange wordBits : Int)) (ne_of_gt hmod)
  have h2 := Int.emod_lt_of_pos (x + (halfRange wordBits : Int)) hmod
  have h3 : ((2 ^ wordBits : Nat) : Int) ≤ 2 * (halfRange wordBits : Int) := by
    rcases Nat.eq_zero_or_pos wordBits with rfl | h
    · simp [halfRange]
    · exact_mod_cast (two_pow_eq_double h).le
  unfold wrapWord InWord
  constructor <;> linarith

/-- A word is its own wrapping. -/
theorem wrapWord_of_inWord {wordBits : Nat} (hb : 1 ≤ wordBits) {x : Int} (h : InWord wordBits x) :
    wrapWord wordBits x = x := by
  have h3 : ((2 ^ wordBits : Nat) : Int) = 2 * (halfRange wordBits : Int) := by exact_mod_cast two_pow_eq_double hb
  have h4 : (x + (halfRange wordBits : Int)) % (2 * (halfRange wordBits : Int)) = x + (halfRange wordBits : Int) :=
    Int.emod_eq_of_lt (by linarith [h.1]) (by linarith [h.2])
  unfold wrapWord
  rw [h3, h4]
  ring

/-- A wrapped integer differs from it by a multiple of `2^WORD_BITS`. -/
theorem wrapWord_congruent (wordBits : Nat) (x : Int) :
    ((2 ^ wordBits : Nat) : Int) ∣ x - wrapWord wordBits x := by
  have h := Int.emod_add_mul_ediv (x + (halfRange wordBits : Int)) ((2 ^ wordBits : Nat) : Int)
  refine ⟨(x + (halfRange wordBits : Int)) / ((2 ^ wordBits : Nat) : Int), ?_⟩
  unfold wrapWord
  linarith

/-- A result in range is itself (41_arithmetic.md R150). -/
theorem settle_of_inWord {p : Params} {x : Int} (h : InWord p.wordBits x) : settle p x = .ok x := if_pos h

/-- Everything a result made a word can be. -/
theorem settle_eq_ok {p : Params} {x : Int} {r : Word} (h : settle p x = .ok r) :
    (InWord p.wordBits x ∧ r = x) ∨
      (¬ InWord p.wordBits x ∧ p.overflow = .wrap ∧ r = wrapWord p.wordBits x) := by
  unfold settle at h
  split at h
  · cases h; exact .inl ⟨by assumption, rfl⟩
  · split at h
    · cases h
    · cases h; exact .inr ⟨by assumption, by assumption, rfl⟩

theorem settle_inWord {p : Params} {x : Int} {r : Word} (h : settle p x = .ok r) : InWord p.wordBits r := by
  rcases settle_eq_ok h with ⟨h, rfl⟩ | ⟨-, -, rfl⟩
  · exact h
  · exact wrapWord_inWord _ _

theorem addW_inWord {p : Params} {a b r : Word} (h : addW p a b = .ok r) : InWord p.wordBits r := settle_inWord h

theorem mulW_inWord {p : Params} {a b r : Word} (h : mulW p a b = .ok r) : InWord p.wordBits r := settle_inWord h

/-- 0 and 1 are words of a machine with well-formed parameters. -/
theorem truthWord_inWord {p : Params} (h : p.wf) (b : Bool) : InWord p.wordBits (truthWord b) := by
  have h2 : 2 ≤ halfRange p.wordBits := by
    unfold halfRange
    calc 2 = 2 ^ 1 := rfl
      _ ≤ 2 ^ (p.wordBits - 1) := Nat.pow_le_pow_right (by decide) (by have : 2 ≤ p.wordBits := h; omega)
  unfold truthWord InWord
  split <;> omega

/-! ### What a register holds (log 11) -/

/-- An address the `ip` register has room for is held as it is. -/
theorem heldIp_of_lt {p : Params} {a : Nat} (h : a < ipRange p) : heldIp p a = a := if_pos h

/-- What the `ip` register holds is a value of its width (10_state.md R22). -/
theorem heldIp_lt (p : Params) (a : Nat) : heldIp p a < ipRange p := by
  unfold heldIp
  split
  · assumption
  · exact Nat.mod_lt _ (halfRange_pos _)

/-- A value of the `ip` register is a word. -/
theorem inWord_of_lt_ipRange {p : Params} {a : Nat} (h : a < ipRange p) : InWord p.wordBits a := by
  unfold ipRange at h
  unfold InWord
  omega

/-- A word is recorded as it is. -/
theorem heldInfo_of_inWord {p : Params} {x : Int} (h : InWord p.wordBits x) : heldInfo p x = x := if_pos h

/-- What the fault record holds is a word (10_state.md R28). -/
theorem heldInfo_inWord (p : Params) (x : Int) : InWord p.wordBits (heldInfo p x) := by
  unfold heldInfo
  split
  · assumption
  · exact wrapWord_inWord _ _

theorem zero_inWord (wordBits : Nat) : InWord wordBits 0 := by
  have := halfRange_pos wordBits
  unfold InWord
  omega

end Sys2Proof.Machine
end

