-- ==== Sys2Proof/Laws/Handlers.lean ====
section
/-! SUPPORT. A handler's specification as one proposition with a rule for each primitive, and what each handler of the
model can do. -/

namespace Sys2Proof.Machine

variable {α β : Type}

/-- From a state with `P`, the handler ends with a value and a state that meet `Q`, or raises a trap in a state that
meet `E`. -/
def Meets (P : State → Prop) (h : Handler α) (Q : α → State → Prop) (E : Trap → State → Prop) : Prop :=
  ∀ s, P s → (∀ a t, h s = .ok a t → Q a t) ∧ (∀ e t, h s = .error e t → E e t)

theorem Meets.pure {P : State → Prop} {E : Trap → State → Prop} {Q : α → State → Prop} {a : α} (h : ∀ s, P s → Q a s) :
    Meets P (Pure.pure a : Handler α) Q E := by
  intro s hs
  refine ⟨fun b t hb => ?_, fun _ _ h => nomatch h⟩
  cases hb
  exact h s hs

theorem Meets.bind {P : State → Prop} {Q : α → State → Prop} {R : β → State → Prop} {E : Trap → State → Prop} {h : Handler α}
    {k : α → Handler β} (hh : Meets P h Q E) (hk : ∀ a, Meets (Q a) (k a) R E) : Meets P (h >>= k) R E := by
  intro s hs
  obtain ⟨h1, h2⟩ := hh s hs
  have hb : (h >>= k) s = EStateM.bind h k s := rfl
  rw [hb]
  unfold EStateM.bind
  cases hr : h s with
  | ok a t => simpa [hr] using hk a t (h1 a t hr)
  | error e t =>
    simp only
    exact ⟨(fun _ _ h => nomatch h), fun e' t' he => by cases he; exact h2 e t hr⟩

theorem Meets.imp {P P' : State → Prop} {Q Q' : α → State → Prop} {E E' : Trap → State → Prop} {h : Handler α}
    (hh : Meets P h Q E) (hP : ∀ s, P' s → P s) (hQ : ∀ a s, Q a s → Q' a s) (hE : ∀ e s, E e s → E' e s) :
    Meets P' h Q' E' := fun s hs =>
  ⟨fun a t h => hQ a t ((hh s (hP s hs)).1 a t h), fun e t h => hE e t ((hh s (hP s hs)).2 e t h)⟩

theorem Meets.get {P : State → Prop} {E : Trap → State → Prop} :
    Meets P (MonadState.get : Handler State) (fun a s => P s ∧ a = s) E := by
  intro s hs
  refine ⟨fun a t h => ?_, fun _ _ h => nomatch h⟩
  cases h
  exact ⟨hs, rfl⟩

theorem Meets.liftTrap {P : State → Prop} {x : Except Trap α} :
    Meets P (liftTrap x) (fun a s => P s ∧ x = .ok a) (fun e s => P s ∧ x = .error e) := by
  intro s hs
  cases x with
  | ok a => exact ⟨fun b t h => by cases h; exact ⟨hs, rfl⟩, fun _ _ h => nomatch h⟩
  | error e => exact ⟨(fun _ _ h => nomatch h), fun e' t h => by cases h; exact ⟨hs, rfl⟩⟩

/-- `Op[i].read()` changes nothing (40_execution_loop.md R102, 20_memory.md R57). -/
theorem Meets.opRead {P : State → Prop} {ops : List Op} {i : Nat} :
    Meets P (opRead ops i) (fun v s => P s ∧ readOperand s ops i = .ok v)
      (fun e s => P s ∧ readOperand s ops i = .error e) := by
  intro s hs
  unfold Machine.opRead
  cases hr : readOperand s ops i with
  | ok a => exact ⟨fun b t h => by cases h; exact ⟨hs, hr⟩, fun _ _ h => nomatch h⟩
  | error e => exact ⟨(fun _ _ h => nomatch h), fun e' t h => by cases h; exact ⟨hs, hr⟩⟩

/-- `Op[i].write(v)` changes the memory alone, and nothing where it raises (40_execution_loop.md R103). -/
theorem Meets.opWrite {P : State → Prop} {Q : Unit → State → Prop} {ops : List Op} {i : Nat} {v : Word}
    (h : ∀ s m a, P s → targetOperand s.params ops i = .ok a → s.mem.write s.params a v = .ok m →
      Q () { s with mem := m }) :
    Meets P (opWrite ops i v) Q (fun e s => P s ∧ storeOperand s ops i v = .error e) := by
  intro s hs
  unfold Machine.opWrite
  cases hst : storeOperand s ops i v with
  | error e => exact ⟨(fun _ _ h => nomatch h), fun e' t h' => by cases h'; exact ⟨hs, hst⟩⟩
  | ok m =>
    refine ⟨fun b t h' => ?_, fun _ _ h => nomatch h⟩
    cases h'
    unfold storeOperand at hst
    cases ht : targetOperand s.params ops i with
    | error e => rw [ht] at hst; cases hst
    | ok a => rw [ht] at hst; exact h s m a hs ht hst

/-- `InPop()` takes the head of the input channel, if there is one (42_io.md R160). -/
theorem Meets.inPop {P : State → Prop} {Q : Option Word → State → Prop} {E : Trap → State → Prop}
    (hnone : ∀ s, P s → s.inq = [] → Q none s)
    (hsome : ∀ s v rest, P s → s.inq = v :: rest → Q (some v) { s with inq := rest }) :
    Meets P inPop Q E := by
  intro s hs
  unfold Machine.inPop
  cases hq : s.inq with
  | nil => exact ⟨fun b t h => by cases h; exact hnone s hs hq, fun _ _ h => nomatch h⟩
  | cons v rest => exact ⟨fun b t h => by cases h; exact hsome s v rest hs hq, fun _ _ h => nomatch h⟩

/-- `OutPush(v)` appends to the output channel (42_io.md R161). -/
theorem Meets.outPush {P : State → Prop} {Q : Unit → State → Prop} {E : Trap → State → Prop} {v : Word}
    (h : ∀ s, P s → Q () { s with outq := s.outq ++ [v] }) : Meets P (outPush v) Q E := by
  intro s hs
  exact ⟨fun b t h' => by cases h'; exact h s hs, fun _ _ h => nomatch h⟩

theorem Meets.setOyp {P : State → Prop} {Q : Unit → State → Prop} {E : Trap → State → Prop} {b : Bool}
    (h : ∀ s, P s → Q () { s with oyp := b }) : Meets P (setOyp b) Q E := by
  intro s hs
  exact ⟨fun c t h' => by cases h'; exact h s hs, fun _ _ h => nomatch h⟩

theorem Meets.castWord {P : State → Prop} {E : Trap → State → Prop} {v : Int} :
    Meets P (castWord v) (fun w s => P s ∧ w = wrapWord s.params.wordBits v) E := by
  intro s hs
  exact ⟨fun w t h => by cases h; exact ⟨hs, rfl⟩, fun _ _ h => nomatch h⟩

/-! ### What every handler leaves alone, and what it can raise -/

/-- A cause that a handler can raise: one of operand access or arithmetic (60_exceptions.md R215, item 5). -/
def HandlerCause (c : FaultCause) : Prop :=
  c = .incompatibleMode ∨ c = .outOfBounds ∨ c = .negativeAddress ∨ c = .arithmeticOverflow ∨
    c = .capacityExceeded ∨ c = .operandIndexOutOfRange

theorem addW_error {p : Params} {a b : Word} {t : Trap} (h : addW p a b = .error t) : t = ⟨.arithmeticOverflow, 0⟩ := by
  unfold addW settle at h
  split at h
  · cases h
  · split at h
    · cases h; rfl
    · cases h

theorem mulW_error {p : Params} {a b : Word} {t : Trap} (h : mulW p a b = .error t) : t = ⟨.arithmeticOverflow, 0⟩ := by
  unfold mulW settle at h
  split at h
  · cases h
  · split at h
    · cases h; rfl
    · cases h

/-- Everything `MemRead` can raise (20_memory.md R53). -/
theorem Memory.read_error {m : Memory} {a : Int} {t : Trap} (h : m.read a = .error t) :
    (a < 0 ∧ t = ⟨.negativeAddress, a⟩) ∨ ((m.len : Int) ≤ a ∧ m.policy = .strict ∧ t = ⟨.outOfBounds, a⟩) := by
  unfold Memory.read at h
  split at h
  · cases h; exact .inl ⟨by assumption, rfl⟩
  · split at h
    · cases h
    · split at h
      · cases h; exact .inr ⟨by omega, by assumption, rfl⟩
      · cases h

/-- Everything `MemWrite` can raise (20_memory.md R54). -/
theorem Memory.write_error {p : Params} {m : Memory} {a : Int} {v : Word} {t : Trap} (h : m.write p a v = .error t) :
    (a < 0 ∧ t = ⟨.negativeAddress, a⟩) ∨ ((m.len : Int) ≤ a ∧ m.policy = .strict ∧ t = ⟨.outOfBounds, a⟩) ∨
      ((m.len : Int) ≤ a ∧ m.policy = .extended ∧ beyondCap p a = true ∧ t = ⟨.capacityExceeded, a⟩) := by
  unfold Memory.write at h
  split at h
  · cases h; exact .inl ⟨by assumption, rfl⟩
  · split at h
    · cases h
    · split at h
      · cases h; exact .inr (.inl ⟨by omega, by assumption, rfl⟩)
      · split at h
        · cases h; exact .inr (.inr ⟨by omega, by assumption, by assumption, rfl⟩)
        · cases h

/-- An operand read never raises `IncompatibleMode`. -/
theorem readOperand_error {s : State} {ops : List Op} {i : Nat} {t : Trap} (h : readOperand s ops i = .error t) :
    t.cause = .outOfBounds ∨ t.cause = .negativeAddress ∨ t.cause = .arithmeticOverflow ∨
      t.cause = .operandIndexOutOfRange := by
  unfold readOperand at h
  split at h
  · cases h; simp
  · split at h
    · cases h
    · rcases Memory.read_error h with ⟨-, rfl⟩ | ⟨-, -, rfl⟩ <;> simp
    · split at h
      · rename_i t' hr
        cases h
        rw [addW_error hr]
        simp
      · rcases Memory.read_error h with ⟨-, rfl⟩ | ⟨-, -, rfl⟩ <;> simp

theorem storeOperand_error {s : State} {ops : List Op} {i : Nat} {v : Word} {t : Trap}
    (h : storeOperand s ops i v = .error t) : HandlerCause t.cause := by
  unfold storeOperand at h
  split at h
  · rename_i t' ht
    cases h
    unfold targetOperand at ht
    split at ht
    · cases ht; simp [HandlerCause]
    · split at ht
      · cases ht; simp [HandlerCause]
      · cases ht
      · rw [addW_error ht]; simp [HandlerCause]
  · rcases Memory.write_error h with ⟨-, rfl⟩ | ⟨-, -, rfl⟩ | ⟨-, -, -, rfl⟩ <;> simp [HandlerCause]

/-- `s` is `s0` but for what a handler may change; its memory has not shrunk, and under STRICT kept its length. -/
def Keep (s0 s : State) : Prop :=
  s0.sameButHandlerPart s ∧ s0.mem.len ≤ s.mem.len ∧ (s0.mem.policy = .strict → s.mem.len = s0.mem.len)

theorem Keep.refl (s : State) : Keep s s :=
  ⟨⟨rfl, rfl, rfl, rfl, rfl, rfl, rfl⟩, Nat.le_refl _, fun _ => rfl⟩

theorem Keep.write {s0 s : State} {a : Int} {v : Word} {m : Memory} (h : Keep s0 s)
    (hm : s.mem.write s.params a v = .ok m) : Keep s0 { s with mem := m } := by
  obtain ⟨⟨h1, h2, h3, h4, h5, h6, h7⟩, h8, h9⟩ := h
  exact ⟨⟨h1, h2, h3, h4, h5, h6, (Memory.write_policy hm).trans h7⟩, h8.trans (Memory.write_len_le hm),
    fun hp => (Memory.write_len_strict hm (h7.trans hp)).trans (h9 hp)⟩

/-- What a handler does keeps everything outside its part, and what it raises is a handler's cause. -/
abbrev Keeps (h : Handler α) : Prop :=
  ∀ s0, Meets (Keep s0) h (fun _ => Keep s0) fun e s => Keep s0 s ∧ HandlerCause e.cause

theorem Keeps.pure (a : α) : Keeps (Pure.pure a : Handler α) := fun _ => Meets.pure fun _ hs => hs

theorem Keeps.bind {h : Handler α} {k : α → Handler β} (hh : Keeps h) (hk : ∀ a, Keeps (k a)) : Keeps (h >>= k) :=
  fun s0 => Meets.bind (hh s0) fun a => hk a s0

theorem Keeps.get : Keeps (MonadState.get : Handler State) :=
  fun _ => Meets.get.imp (fun _ h => h) (fun _ _ h => h.1) fun _ _ h => h

theorem Keeps.liftTrap {x : Except Trap α} (hx : ∀ e, x = .error e → HandlerCause e.cause) :
    Keeps (Machine.liftTrap x) :=
  fun _ => Meets.liftTrap.imp (fun _ h => h) (fun _ _ h => h.1) fun e _ h => ⟨h.1, hx e h.2⟩

theorem Keeps.opRead (ops : List Op) (i : Nat) : Keeps (Machine.opRead ops i) :=
  fun _ => Meets.opRead.imp (fun _ h => h) (fun _ _ h => h.1) fun e _ h => ⟨h.1, by
    rcases readOperand_error h.2 with h | h | h | h <;> simp [HandlerCause, h]⟩

theorem Keeps.opWrite (ops : List Op) (i : Nat) (v : Word) : Keeps (Machine.opWrite ops i v) :=
  fun _ => (Meets.opWrite fun _ _ _ hs _ hm => hs.write hm).imp (fun _ h => h) (fun _ _ h => h)
    fun _ _ h => ⟨h.1, storeOperand_error h.2⟩

theorem Keeps.inPop : Keeps Machine.inPop :=
  fun _ => Meets.inPop (fun _ hs _ => hs) fun _ _ _ hs _ => hs

theorem Keeps.outPush (v : Word) : Keeps (Machine.outPush v) := fun _ => Meets.outPush fun _ hs => hs

theorem Keeps.setOyp (b : Bool) : Keeps (Machine.setOyp b) := fun _ => Meets.setOyp fun _ hs => hs

theorem Keeps.castWord (v : Int) : Keeps (Machine.castWord v) :=
  fun _ => Meets.castWord.imp (fun _ h => h) (fun _ _ h => h.1) fun _ _ h => h

theorem keeps_arithmeticHandler {f : Params → Word → Word → Except Trap Word}
    (hf : ∀ p a b e, f p a b = .error e → e = ⟨.arithmeticOverflow, 0⟩) (ops : List Op) :
    Keeps (arithmeticHandler f ops) :=
  .bind (.opRead _ _) fun _ => .bind (.opRead _ _) fun _ => .bind .get fun _ =>
    .bind (.liftTrap fun e he => by rw [hf _ _ _ e he]; simp [HandlerCause]) fun _ =>
    .bind (.opWrite _ _ _) fun _ => .pure _

theorem keeps_inHandler (ops : List Op) : Keeps (inHandler ops) := by
  refine .bind .inPop fun x => ?_
  cases x with
  | none => exact .pure _
  | some v => exact .bind (.opWrite _ _ _) fun _ => .pure _

theorem keeps_outHandler (ops : List Op) : Keeps (outHandler ops) := by
  refine .bind .get fun s => ?_
  split
  · split
    · exact .bind (.setOyp _) fun _ => .pure _
    · exact .bind (.opRead _ _) fun _ => .bind (.outPush _) fun _ => .bind (.setOyp _) fun _ => .pure _
  · exact .bind (.opRead _ _) fun _ => .bind (.outPush _) fun _ => .pure _

theorem keeps_jumpHandler (taken : Word → Bool) (ops : List Op) : Keeps (jumpHandler taken ops) :=
  .bind (.opRead _ _) fun _ => .bind (.opRead _ _) fun _ => .pure _

theorem keeps_compareHandler (test : Word → Word → Bool) (ops : List Op) : Keeps (compareHandler test ops) :=
  .bind (.opRead _ _) fun _ => .bind (.opRead _ _) fun _ => .bind (.opWrite _ _ _) fun _ => .pure _

theorem keeps_arbHandler (ops : List Op) : Keeps (arbHandler ops) := .bind (.opRead _ _) fun _ => .pure _

theorem keeps_haltHandler (ops : List Op) : Keeps (haltHandler ops) := .pure _

theorem keeps_castDirective (d : Directive) : Keeps (castDirective d) := by
  cases d with
  | cont => exact .pure _
  | quit => exact .pure _
  | jumpTo t => exact .bind (.castWord _) fun _ => .pure _
  | adjustRelativeBase x => exact .bind (.castWord _) fun _ => .pure _

theorem keeps_runAction (ops : List Op) (t : HAction) : Keeps (runAction ops t) := by
  induction t with
  | read i k ih => exact .bind (.opRead _ _) ih
  | write i v k ih => exact .bind (.castWord _) fun _ => .bind (.opWrite _ _ _) fun _ => ih
  | inPop k ih => exact .bind .inPop ih
  | outPush v k ih => exact .bind (.castWord _) fun _ => .bind (.outPush _) fun _ => ih
  | ret d => exact keeps_castDirective d

/-! ### Every handler keeps words words and the memory canonical -/

/-- The part of the invariant that does not speak of `ip`, `status` and `fault`, at a given word width. -/
def Sound (bits : Nat) (s : State) : Prop :=
  s.params.wordBits = bits ∧ s.params.wf ∧ s.mem.wf ∧ s.wordsOk ∧ s.latchOk

/-- Every operand's raw value is a word. -/
def OpsOk (bits : Nat) (ops : List Op) : Prop := ∀ o ∈ ops, InWord bits o.raw

/-- A directive's argument is a word. -/
def DirectiveOk (bits : Nat) : Directive → Prop
  | .cont => True
  | .jumpTo t => InWord bits t
  | .quit => True
  | .adjustRelativeBase x => InWord bits x

/-- What `MemRead` returns is a word. -/
theorem Memory.read_inWord {bits : Nat} {m : Memory} {a : Int} {v : Word} (hm : ∀ c ∈ m.cells, InWord bits c.2)
    (h : m.read a = .ok v) : InWord bits v := by
  have hcell : InWord bits (cellAt m.cells a.toNat) := by
    rcases cellAt_eq_zero_or_mem m.cells a.toNat with h0 | hmem
    · rw [h0]; exact zero_inWord bits
    · exact hm _ hmem
  obtain ⟨-, ⟨-, rfl⟩ | ⟨-, -, rfl⟩⟩ := Memory.read_eq_ok.1 h
  · exact hcell
  · exact zero_inWord bits

/-- What `Op[i].read()` returns is a word. -/
theorem readOperand_inWord {bits : Nat} {s : State} {ops : List Op} {i : Nat} {v : Word} (hs : Sound bits s)
    (ho : OpsOk bits ops) (h : readOperand s ops i = .ok v) : InWord bits v := by
  have hm : ∀ c ∈ s.mem.cells, InWord bits c.2 := hs.1 ▸ hs.2.2.2.1.1
  unfold readOperand at h
  split at h
  · cases h
  · rename_i o hoi
    have hraw := ho o (List.mem_of_getElem? hoi)
    split at h
    · cases h; exact hraw
    · exact Memory.read_inWord hm h
    · split at h
      · cases h
      · exact Memory.read_inWord hm h

theorem Sound.write {bits : Nat} {s : State} {a : Int} {v : Word} {m : Memory} (h : Sound bits s)
    (hv : InWord bits v) (hm : s.mem.write s.params a v = .ok m) : Sound bits { s with mem := m } := by
  obtain ⟨h1, h2, h3, ⟨h4, h5⟩, h6⟩ := h
  exact ⟨h1, h2, Memory.write_wf h3 hm, ⟨Memory.write_words hm h4 (h1.symm ▸ hv), h5⟩, h6⟩

theorem Sound.pop {bits : Nat} {s : State} {v : Word} {rest : List Word} (h : Sound bits s) (hq : s.inq = v :: rest) :
    Sound bits { s with inq := rest } ∧ InWord bits v := by
  obtain ⟨h1, h2, h3, ⟨h4, h5, h6, h7⟩, h8⟩ := h
  rw [hq] at h6
  exact ⟨⟨h1, h2, h3, ⟨h4, h5, fun x hx => h6 x (by simp [hx]), h7⟩, h8⟩, h1 ▸ h6 v (by simp)⟩

theorem Sound.push {bits : Nat} {s : State} {v : Word} (h : Sound bits s) (hv : InWord bits v) :
    Sound bits { s with outq := s.outq ++ [v] } := by
  obtain ⟨h1, h2, h3, ⟨h4, h5, h6, h7⟩, h8⟩ := h
  refine ⟨h1, h2, h3, ⟨h4, h5, h6, fun x hx => ?_⟩, h8⟩
  rcases List.mem_append.1 hx with hx | hx
  · exact h7 x hx
  · rw [List.mem_singleton.1 hx, h1]; exact hv

theorem Sound.latch {bits : Nat} {s : State} {b : Bool} (h : Sound bits s)
    (hb : b = true → s.params.outputYield = true) : Sound bits { s with oyp := b } := by
  obtain ⟨h1, h2, h3, h4, -⟩ := h
  exact ⟨h1, h2, h3, h4, hb⟩

/-- A handler that keeps a state sound and returns a directive whose argument is a word. -/
abbrev SoundHandler (bits : Nat) (h : Handler Directive) : Prop :=
  Meets (Sound bits) h (fun d s => Sound bits s ∧ DirectiveOk bits d) fun _ => Sound bits

theorem meets_opRead_sound {bits : Nat} {ops : List Op} (ho : OpsOk bits ops) (i : Nat) :
    Meets (Sound bits) (opRead ops i) (fun v s => Sound bits s ∧ InWord bits v) (fun _ => Sound bits) :=
  Meets.opRead.imp (fun _ h => h) (fun _ _ h => ⟨h.1, readOperand_inWord h.1 ho h.2⟩) fun _ _ h => h.1

theorem meets_opWrite_sound {bits : Nat} {ops : List Op} {i : Nat} {v : Word} {P : State → Prop}
    (hP : ∀ s, P s → Sound bits s ∧ InWord bits v) :
    Meets P (opWrite ops i v) (fun _ s => Sound bits s) (fun _ => Sound bits) :=
  (Meets.opWrite (P := fun s => Sound bits s ∧ InWord bits v) fun _ _ _ hs _ hm => hs.1.write hs.2 hm).imp hP
    (fun _ _ h => h) fun _ _ h => h.1.1

theorem Meets.assuming {P : State → Prop} {F : Prop} {h : Handler α} {Q : α → State → Prop} {E : Trap → State → Prop}
    (hh : F → Meets P h Q E) : Meets (fun s => P s ∧ F) h Q E := fun s hs => hh hs.2 s hs.1

theorem sound_arithmeticHandler {bits : Nat} {f : Params → Word → Word → Except Trap Word}
    (hf : ∀ p a b r, f p a b = .ok r → InWord p.wordBits r) {ops : List Op} (ho : OpsOk bits ops) :
    SoundHandler bits (arithmeticHandler f ops) := by
  refine .bind (meets_opRead_sound ho 0) fun a => .assuming fun _ => ?_
  refine .bind (meets_opRead_sound ho 1) fun b => .assuming fun _ => ?_
  refine .bind .get fun s1 => ?_
  refine .bind (.imp .liftTrap (fun _ h => h) (fun _ _ h => h) fun _ _ h => h.1.1) fun r => ?_
  refine .bind (meets_opWrite_sound fun s hs => ⟨hs.1.1, ?_⟩) fun _ => .pure fun _ hs => ⟨hs, trivial⟩
  have := hf _ _ _ _ hs.2
  rwa [hs.1.2, hs.1.1.1] at this

theorem sound_inHandler {bits : Nat} {ops : List Op} : SoundHandler bits (inHandler ops) := by
  refine .bind (Q := fun x s => Sound bits s ∧ ∀ v, x = some v → InWord bits v)
    (.inPop (fun s hs _ => ⟨hs, by simp⟩) fun s v rest hs hq => ⟨(hs.pop hq).1, ?_⟩) fun x => ?_
  · intro w hw; cases hw; exact (hs.pop hq).2
  · cases x with
    | none => exact .pure fun _ hs => ⟨hs.1, trivial⟩
    | some v => exact .bind (meets_opWrite_sound fun s hs => ⟨hs.1, hs.2 v rfl⟩) fun _ => .pure fun _ hs => ⟨hs, trivial⟩

theorem sound_outHandler {bits : Nat} {ops : List Op} (ho : OpsOk bits ops) : SoundHandler bits (outHandler ops) := by
  refine .bind .get fun s1 => ?_
  split
  · rename_i hy
    split
    · exact .bind (.setOyp (Q := fun _ => Sound bits) fun s hs => hs.1.latch (by simp)) fun _ =>
        .pure fun _ hs => ⟨hs, trivial⟩
    · refine .imp (P := fun s => Sound bits s ∧ s.params.outputYield = true) ?_ (fun s hs => ⟨hs.1, by rw [← hs.2]; exact hy⟩)
        (fun _ _ h => h) fun _ _ h => h
      refine .bind (Q := fun v s => (Sound bits s ∧ s.params.outputYield = true) ∧ InWord bits v)
        (Meets.opRead.imp (fun _ h => h) (fun v s h => ⟨h.1, readOperand_inWord h.1.1 ho h.2⟩) fun _ _ h => h.1.1) fun v => ?_
      refine .bind (Q := fun _ s => Sound bits s ∧ s.params.outputYield = true)
        (.outPush fun s hs => ⟨hs.1.1.push hs.2, hs.1.2⟩) fun _ => ?_
      exact .bind (.setOyp (Q := fun _ => Sound bits) fun s hs => hs.1.latch fun _ => hs.2) fun _ =>
        .pure fun _ hs => ⟨hs, trivial⟩
  · refine .bind (Q := fun v s => Sound bits s ∧ InWord bits v)
      ((meets_opRead_sound ho 0).imp (fun _ h => h.1) (fun _ _ h => h) fun _ _ h => h) fun v => ?_
    exact .bind (.outPush (Q := fun _ => Sound bits) fun s hs => hs.1.push hs.2) fun _ => .pure fun _ hs => ⟨hs, trivial⟩

theorem sound_jumpHandler {bits : Nat} {ops : List Op} (ho : OpsOk bits ops) (taken : Word → Bool) :
    SoundHandler bits (jumpHandler taken ops) := by
  refine .bind (meets_opRead_sound ho 0) fun c => .assuming fun _ => ?_
  refine .bind (meets_opRead_sound ho 1) fun t => .assuming fun ht => .pure fun s hs => ⟨hs, ?_⟩
  split
  · exact ht
  · trivial

theorem sound_compareHandler {bits : Nat} {ops : List Op} (ho : OpsOk bits ops) (test : Word → Word → Bool) :
    SoundHandler bits (compareHandler test ops) := by
  refine .bind (meets_opRead_sound ho 0) fun a => .assuming fun _ => ?_
  refine .bind (meets_opRead_sound ho 1) fun b => .assuming fun _ => ?_
  exact .bind (meets_opWrite_sound fun s hs => ⟨hs, hs.1 ▸ truthWord_inWord hs.2.1 _⟩) fun _ =>
    .pure fun _ hs => ⟨hs, trivial⟩

theorem sound_arbHandler {bits : Nat} {ops : List Op} (ho : OpsOk bits ops) : SoundHandler bits (arbHandler ops) :=
  .bind (meets_opRead_sound ho 0) fun _ => .pure fun _ hs => hs

theorem sound_haltHandler {bits : Nat} {ops : List Op} : SoundHandler bits (haltHandler ops) :=
  .pure fun _ hs => ⟨hs, trivial⟩

theorem meets_castWord_sound {bits : Nat} (v : Int) :
    Meets (Sound bits) (castWord v) (fun w s => Sound bits s ∧ InWord bits w) (fun _ => Sound bits) :=
  Meets.castWord.imp (fun _ h => h) (fun w s h => ⟨h.1, by rw [h.2, h.1.1]; exact wrapWord_inWord _ _⟩) fun _ _ h => h

theorem sound_castDirective {bits : Nat} (d : Directive) : SoundHandler bits (castDirective d) := by
  cases d with
  | cont => exact .pure fun _ hs => ⟨hs, trivial⟩
  | quit => exact .pure fun _ hs => ⟨hs, trivial⟩
  | jumpTo t => exact .bind (meets_castWord_sound t) fun _ => .pure fun _ hs => hs
  | adjustRelativeBase x => exact .bind (meets_castWord_sound x) fun _ => .pure fun _ hs => hs

theorem sound_runAction {bits : Nat} {ops : List Op} (ho : OpsOk bits ops) (t : HAction) :
    SoundHandler bits (runAction ops t) := by
  induction t with
  | read i k ih => exact .bind (meets_opRead_sound ho i) fun v => .assuming fun _ => ih v
  | write i v k ih =>
    exact .bind (meets_castWord_sound v) fun w => .bind (meets_opWrite_sound fun _ hs => hs) fun _ => ih
  | inPop k ih =>
    exact .bind (.inPop (Q := fun _ => Sound bits) (fun _ hs _ => hs) fun _ _ _ hs hq => (hs.pop hq).1) ih
  | outPush v k ih =>
    exact .bind (meets_castWord_sound v) fun w =>
      .bind (.outPush (Q := fun _ => Sound bits) fun _ hs => hs.1.push hs.2) fun _ => ih
  | ret d => exact sound_castDirective d

end Sys2Proof.Machine
end

