-- ==== Sys2Proof/Laws/Steps.lean ====
section
/-! SUPPORT. What the end of a step and a whole step can do: `exec` as one operation over the instruction's handler, the
directive's effect as a plain function, and the inversion lemmas that later proofs cite. -/

namespace Sys2Proof.Machine

/-- The handler an instruction runs (40_execution_loop.md R117). -/
def handlerOf (p : Params) : Instr → List Op → Handler Directive
  | .add _ => arithmeticHandler addW
  | .mul _ => arithmeticHandler mulW
  | .inp _ => inHandler
  | .out _ => outHandler
  | .jt _ => jumpHandler conditionHolds
  | .jf _ => jumpHandler fun c => !conditionHolds c
  | .lt _ => compareHandler lessThan
  | .eq _ => compareHandler sameWord
  | .arb _ => arbHandler
  | .hlt _ => haltHandler
  | .custom k _ => customHandler p k

/-- Every instruction is one `completeStep` of its handler, and answers a next state. -/
theorem exec_eq (i : Instr) (s : State) :
    exec i s = .next (completeStep s.ip i.operands.length (handlerOf s.params i (bindOps s.rb i.operands)) s) := by
  cases i <;> rfl

/-- `ip <- a` with the end check, a failed one taken as a fault (40_execution_loop.md R122). -/
def movedTo (ip0 a : Nat) (s : State) : State :=
  if ipFits s.params s.mem.len a then { s with ip := a }
  else enterFault ip0 ⟨.unexpectedEndOfProgram, heldIp s.params a⟩ { s with ip := heldIp s.params a }

/-- What a step does once its handler has returned a directive (40_execution_loop.md R118-R122, R124). -/
def afterDirective (ip0 n : Nat) (d : Directive) (s : State) : State :=
  match d with
  | .quit => { s with status := .halted }
  | .cont => movedTo ip0 (ip0 + 1 + n) s
  | .jumpTo t => if t < 0 then enterFault ip0 ⟨.negativeAddress, t⟩ s else movedTo ip0 t.toNat s
  | .adjustRelativeBase x =>
    match addW s.params s.rb x with
    | .error t => enterFault ip0 t s
    | .ok r => movedTo ip0 (ip0 + 1 + n) { s with rb := r }

theorem moveIp_apply (ip0 a : Nat) (s : State) :
    (match moveIp a s with
      | .ok .next s' => s'
      | .ok .stop s' => { s' with status := .halted }
      | .error t s' => enterFault ip0 t s') = movedTo ip0 a s := by
  by_cases h : ipFits s.params s.mem.len a
  · rw [moveIp, movedTo, if_pos h, if_pos h]
  · rw [moveIp, movedTo, if_neg h, if_neg h]

/-- A handler that raises ends its step in the fault, with the effects made so far (40_execution_loop.md R123). -/
theorem completeStep_of_error {ip0 n : Nat} {h : Handler Directive} {s s' : State} {t : Trap} (hh : h s = .error t s') :
    completeStep ip0 n h s = enterFault ip0 t s' := by
  simp only [completeStep, EStateM.bind, hh]

/-- A handler that returns ends its step by its directive. -/
theorem completeStep_of_ok {ip0 n : Nat} {h : Handler Directive} {s s' : State} {d : Directive} (hh : h s = .ok d s') :
    completeStep ip0 n h s = afterDirective ip0 n d s' := by
  unfold completeStep EStateM.bind
  rw [hh]
  cases d with
  | quit => rfl
  | cont => exact moveIp_apply ip0 (ip0 + 1 + n) s'
  | jumpTo t =>
    by_cases ht : t < 0
    · simp only [applyDirective, afterDirective, ht, if_true]
      rfl
    · simp only [applyDirective, afterDirective, ht, if_false]
      exact moveIp_apply ip0 t.toNat s'
  | adjustRelativeBase x =>
    simp only [afterDirective]
    cases hr : addW s'.params s'.rb x with
    | error t =>
      have : applyDirective ip0 n (.adjustRelativeBase x) s' = .error t s' := by
        change EStateM.bind (liftTrap (addW s'.params s'.rb x)) _ s' = _
        rw [hr]
        rfl
      simp only [this]
    | ok r =>
      have : applyDirective ip0 n (.adjustRelativeBase x) s' = moveIp (ip0 + 1 + n) { s' with rb := r } := by
        change EStateM.bind (liftTrap (addW s'.params s'.rb x)) _ s' = _
        rw [hr]
        rfl
      simp only [this]
      exact moveIp_apply ip0 (ip0 + 1 + n) { s' with rb := r }

theorem movedTo_of_fits {ip0 a : Nat} {s : State} (h : ipFits s.params s.mem.len a) :
    movedTo ip0 a s = { s with ip := a } := if_pos h

theorem movedTo_of_not_fits {ip0 a : Nat} {s : State} (h : ¬ ipFits s.params s.mem.len a) :
    movedTo ip0 a s =
      enterFault ip0 ⟨.unexpectedEndOfProgram, heldIp s.params a⟩ { s with ip := heldIp s.params a } := if_neg h

/-- A step's result: a handler that raised, or one that returned and whose directive was applied. -/
theorem completeStep_cases (ip0 n : Nat) (h : Handler Directive) (s : State) :
    (∃ t s', h s = .error t s' ∧ completeStep ip0 n h s = enterFault ip0 t s') ∨
      (∃ d s', h s = .ok d s' ∧ completeStep ip0 n h s = afterDirective ip0 n d s') := by
  cases hh : h s with
  | ok d s' => exact .inr ⟨d, s', rfl, completeStep_of_ok hh⟩
  | error t s' => exact .inl ⟨t, s', rfl, completeStep_of_error hh⟩

/-- `rb'` is a value the relative base may have after a directive (40_execution_loop.md R118-R120). -/
def RbAfter (d : Directive) (s : State) (rb' : Word) : Prop :=
  rb' = s.rb ∨ ∃ x, d = .adjustRelativeBase x ∧ addW s.params s.rb x = .ok rb'

/-- The three ways a directive can end a step on a state. -/
inductive DirectiveEnd (ip0 : Nat) (d : Directive) (s : State) : State → Prop
  | stopped (h : d = .quit) : DirectiveEnd ip0 d s { s with status := .halted }
  | raised (t : Trap) (h : t.cause ≠ .unexpectedEndOfProgram) : DirectiveEnd ip0 d s (enterFault ip0 t s)
  | moved (rb' : Word) (a : Nat) (hrb : RbAfter d s rb') (h : ipFits s.params s.mem.len a) :
      DirectiveEnd ip0 d s { s with rb := rb', ip := a }
  | ranPast (rb' : Word) (a : Nat) (hrb : RbAfter d s rb') (h : ¬ ipFits s.params s.mem.len a) :
      DirectiveEnd ip0 d s
        (enterFault ip0 ⟨.unexpectedEndOfProgram, heldIp s.params a⟩ { s with rb := rb', ip := heldIp s.params a })

theorem directiveEnd_movedTo {ip0 : Nat} {d : Directive} {s : State} {rb' : Word} (a : Nat) (hrb : RbAfter d s rb') :
    DirectiveEnd ip0 d s (movedTo ip0 a { s with rb := rb' }) := by
  by_cases h : ipFits s.params s.mem.len a
  · rw [movedTo_of_fits (s := { s with rb := rb' }) h]; exact .moved rb' a hrb h
  · rw [movedTo_of_not_fits (s := { s with rb := rb' }) h]; exact .ranPast rb' a hrb h

/-- Everything applying a directive can do to a state. -/
theorem afterDirective_cases (ip0 n : Nat) (d : Directive) (s : State) :
    DirectiveEnd ip0 d s (afterDirective ip0 n d s) := by
  cases d with
  | quit => exact .stopped rfl
  | cont => exact directiveEnd_movedTo (ip0 + 1 + n) (.inl rfl)
  | jumpTo t =>
    simp only [afterDirective]
    split
    · exact .raised _ (by simp)
    · exact directiveEnd_movedTo t.toNat (.inl rfl)
  | adjustRelativeBase x =>
    simp only [afterDirective]
    cases hr : addW s.params s.rb x with
    | error t => exact .raised _ (by simp [addW_error hr])
    | ok r => exact directiveEnd_movedTo (ip0 + 1 + n) (.inr ⟨x, rfl, hr⟩)

/-! ### Instructions -/

theorem keeps_handlerOf (p : Params) (i : Instr) (ops : List Op) : Keeps (handlerOf p i ops) := by
  cases i with
  | add _ => exact keeps_arithmeticHandler (f := addW) (fun _ _ _ _ h => addW_error h) ops
  | mul _ => exact keeps_arithmeticHandler (f := mulW) (fun _ _ _ _ h => mulW_error h) ops
  | inp _ => exact keeps_inHandler _
  | out _ => exact keeps_outHandler _
  | jt _ => exact keeps_jumpHandler _ _
  | jf _ => exact keeps_jumpHandler _ _
  | lt _ => exact keeps_compareHandler _ _
  | eq _ => exact keeps_compareHandler _ _
  | arb _ => exact keeps_arbHandler _
  | hlt _ => exact keeps_haltHandler ops
  | custom k _ => exact keeps_runAction ops (customTree p k)

theorem sound_handlerOf {bits : Nat} (p : Params) (i : Instr) {ops : List Op} (ho : OpsOk bits ops) :
    SoundHandler bits (handlerOf p i ops) := by
  cases i with
  | add _ => exact sound_arithmeticHandler (f := addW) (fun _ _ _ _ h => addW_inWord h) ho
  | mul _ => exact sound_arithmeticHandler (f := mulW) (fun _ _ _ _ h => mulW_inWord h) ho
  | inp _ => exact sound_inHandler
  | out _ => exact sound_outHandler ho
  | jt _ => exact sound_jumpHandler ho _
  | jf _ => exact sound_jumpHandler ho _
  | lt _ => exact sound_compareHandler ho _
  | eq _ => exact sound_compareHandler ho _
  | arb _ => exact sound_arbHandler ho
  | hlt _ => exact sound_haltHandler (ops := ops)
  | custom k _ => exact sound_runAction ho (customTree p k)

/-- Everything an instruction can do, for every instruction: its handler leaves `s1`, which differs from `s` only in a
handler's part; then the step ends in the handler's fault or by its directive. -/
theorem exec_cases (i : Instr) (s : State) :
    ∃ t, exec i s = .next t ∧
      ((∃ trap s1, handlerOf s.params i (bindOps s.rb i.operands) s = .error trap s1 ∧ Keep s s1 ∧
          HandlerCause trap.cause ∧ t = enterFault s.ip trap s1) ∨
        (∃ d s1, handlerOf s.params i (bindOps s.rb i.operands) s = .ok d s1 ∧ Keep s s1 ∧
          t = afterDirective s.ip i.operands.length d s1)) := by
  have hk := keeps_handlerOf s.params i (bindOps s.rb i.operands) s s (Keep.refl s)
  refine ⟨_, exec_eq i s, ?_⟩
  rcases completeStep_cases s.ip i.operands.length (handlerOf s.params i (bindOps s.rb i.operands)) s with
    ⟨trap, s1, h, he⟩ | ⟨d, s1, h, he⟩
  · exact .inl ⟨trap, s1, h, (hk.2 _ _ h).1, (hk.2 _ _ h).2, he⟩
  · exact .inr ⟨d, s1, h, hk.1 _ _ h, he⟩

/-- Everything an instruction that answers `t` can have done: `exec_cases` with the directive's effect taken apart. -/
theorem exec_inv {i : Instr} {s t : State} (h : exec i s = .next t) :
    (∃ trap s1, handlerOf s.params i (bindOps s.rb i.operands) s = .error trap s1 ∧ Keep s s1 ∧
        HandlerCause trap.cause ∧ t = enterFault s.ip trap s1) ∨
      (∃ d s1, handlerOf s.params i (bindOps s.rb i.operands) s = .ok d s1 ∧ Keep s s1 ∧ DirectiveEnd s.ip d s1 t) := by
  obtain ⟨t', ht, hc⟩ := exec_cases i s
  rw [h] at ht
  cases ht
  rcases hc with hc | ⟨d, u, hd, hk, rfl⟩
  · exact .inl hc
  · exact .inr ⟨d, u, hd, hk, afterDirective_cases _ _ _ _⟩

/-! ### Steps -/

/-- Everything a step can do: nothing when no run is in progress, else the fetched instruction or the fetch's fault. -/
theorem step_cases (s : State) :
    (s.status ≠ .running ∧ step s = .next s) ∨
      (s.status = .running ∧ ∃ i, fetchInstr s = .ok i ∧ step s = exec i s) ∨
      (s.status = .running ∧ ∃ trap, fetchInstr s = .error trap ∧ step s = .next (enterFault s.ip trap s)) := by
  unfold step
  split
  · exact .inl ⟨by simp_all, rfl⟩
  · exact .inl ⟨by simp_all, rfl⟩
  · refine .inr ?_
    cases hf : fetchInstr s with
    | ok i => exact .inl ⟨by assumption, i, rfl, rfl⟩
    | error t => exact .inr ⟨by assumption, t, rfl, rfl⟩

/-- Every step answers a next state (log 6). -/
theorem step_next (s : State) : ∃ t, step s = .next t := by
  rcases step_cases s with ⟨-, h⟩ | ⟨-, i, -, h⟩ | ⟨-, e, -, h⟩
  · exact ⟨_, h⟩
  · obtain ⟨t, ht, -⟩ := exec_cases i s
    exact ⟨t, h.trans ht⟩
  · exact ⟨_, h⟩

end Sys2Proof.Machine
end

