-- ==== Sys2Proof/Laws/Decode.lean ====
section
/-! SUPPORT. The decoder and the encoder: mode digits, operands built from encoded cells, the table's lookups. -/

namespace Sys2Proof

theorem modeOfDigit_digit (m : Mode) : modeOfDigit m.digit = some m := by cases m <;> rfl

theorem Mode.digit_lt_ten (m : Mode) : m.digit < 10 := by cases m <;> decide

theorem decimalDigit_zero_add (d q : Nat) (h : d < 10) : decimalDigit 0 (d + 10 * q) = d := by
  simp only [decimalDigit, Nat.pow_zero, Nat.div_one]
  omega

theorem decimalDigit_succ_add (i d q : Nat) (h : d < 10) : decimalDigit (i + 1) (d + 10 * q) = decimalDigit i q := by
  have : (d + 10 * q) / 10 ^ (i + 1) = q / 10 ^ i := by
    rw [Nat.pow_succ, Nat.mul_comm (10 ^ i) 10, ← Nat.div_div_eq_div_mul]
    congr 1
    omega
  simp only [decimalDigit, this]

/-- The mode digits of the canonical mode number are the operands' modes (30_encoding.md R82, R90). -/
theorem decimalDigit_modeNumber (ops : List Operand) (i : Nat) (o : Operand) (h : ops[i]? = some o) :
    decimalDigit i (modeNumber ops) = o.mode.digit := by
  induction ops generalizing i with
  | nil => simp at h
  | cons a rest ih =>
    cases i with
    | zero =>
      simp only [List.getElem?_cons_zero, Option.some.injEq] at h
      subst h
      exact decimalDigit_zero_add _ _ (Mode.digit_lt_ten _)
    | succ i =>
      simp only [List.getElem?_cons_succ] at h
      simp only [modeNumber]
      rw [decimalDigit_succ_add _ _ _ (Mode.digit_lt_ten _)]
      exact ih i h

/-- Building operands depends only on the mode digits below the arity and on the raw cells. -/
theorem buildOperands_congr {cell cell' : Nat → Except Trap Word} {q q' : Nat} {i n : Nat}
    (hc : ∀ j, i ≤ j → j < i + n → cell (1 + j) = cell' (1 + j))
    (hq : ∀ j, i ≤ j → j < i + n → decimalDigit j q = decimalDigit j q') :
    buildOperands cell q i n = buildOperands cell' q' i n := by
  induction n generalizing i with
  | zero => rfl
  | succ n ih =>
    have h0 : buildOperand cell q i = buildOperand cell' q' i := by
      simp only [buildOperand, hc i (Nat.le_refl i) (by omega), hq i (Nat.le_refl i) (by omega)]
    have hrest : buildOperands cell q (i + 1) n = buildOperands cell' q' (i + 1) n :=
      ih (fun j h1 h2 => hc j (by omega) (by omega)) fun j h1 h2 => hq j (by omega) (by omega)
    simp only [buildOperands, h0, hrest]

/-- Operands whose raw cells and mode digits are those of a list are that list. -/
theorem buildOperands_of_list {cell : Nat → Except Trap Word} {q : Nat} (ops : List Operand) (i : Nat)
    (hc : ∀ j o, ops[j]? = some o → cell (1 + (i + j)) = .ok o.raw)
    (hq : ∀ j o, ops[j]? = some o → decimalDigit (i + j) q = o.mode.digit) :
    buildOperands cell q i ops.length = .ok ops := by
  induction ops generalizing i with
  | nil => rfl
  | cons a rest ih =>
    have h1 := hc 0 a (by simp)
    have h2 := hq 0 a (by simp)
    simp only [Nat.add_zero] at h1 h2
    have hrest := ih (i + 1)
      (fun j o ho => by have := hc (j + 1) o (by simpa using ho); rwa [show i + (j + 1) = i + 1 + j by omega] at this)
      (fun j o ho => by have := hq (j + 1) o (by simpa using ho); rwa [show i + (j + 1) = i + 1 + j by omega] at this)
    simp only [List.length_cons, buildOperands, buildOperand, h1, h2, modeOfDigit_digit, hrest]

/-- Building `n` operands gives `n` operands. -/
theorem length_buildOperands {cell : Nat → Except Trap Word} {q i n : Nat} {ops : List Operand}
    (h : buildOperands cell q i n = .ok ops) : ops.length = n := by
  induction n generalizing i ops with
  | zero => cases h; rfl
  | succ n ih =>
    simp only [buildOperands] at h
    split at h
    · cases h
    · split at h
      · cases h
      · rename_i rest hr
        cases h
        simp [ih hr]

/-- The raw values of built operands are the cells read. -/
theorem raw_of_buildOperands {cell : Nat → Except Trap Word} {q i n : Nat} {ops : List Operand}
    (h : buildOperands cell q i n = .ok ops) (o : Operand) (ho : o ∈ ops) : ∃ j, cell j = .ok o.raw := by
  induction n generalizing i ops with
  | zero => cases h; cases ho
  | succ n ih =>
    simp only [buildOperands] at h
    split at h
    · cases h
    · rename_i a ha
      split at h
      · cases h
      · rename_i rest hr
        cases h
        rcases List.mem_cons.1 ho with rfl | ho
        · unfold buildOperand at ha
          split at ha
          · cases ha
          · rename_i raw hraw
            split at ha
            · cases ha
            · cases ha; exact ⟨_, hraw⟩
        · exact ih hr ho

/-- The first operand that cannot be built decides the fault (40_execution_loop.md R116). -/
theorem buildOperands_of_error {cell : Nat → Except Trap Word} {q i n j : Nat} {t : Trap}
    (hlt : ∀ k, k < j → ∃ o, buildOperand cell q (i + k) = .ok o) (hj : j < n)
    (he : buildOperand cell q (i + j) = .error t) : buildOperands cell q i n = .error t := by
  induction n generalizing i j with
  | zero => omega
  | succ n ih =>
    simp only [buildOperands]
    cases j with
    | zero => simp only [Nat.add_zero] at he; simp only [he]
    | succ j =>
      obtain ⟨o, ho⟩ := hlt 0 (by omega)
      simp only [Nat.add_zero] at ho
      have hrest := ih (i := i + 1) (j := j)
        (fun k hk => by have := hlt (k + 1) (by omega); rwa [show i + (k + 1) = i + 1 + k by omega] at this)
        (by omega) (by rwa [show i + (j + 1) = i + 1 + j by omega] at he)
      simp only [ho, hrest]

/-- A failure to build operands is one operand's. -/
theorem buildOperands_error {cell : Nat → Except Trap Word} {q i n : Nat} {t : Trap}
    (h : buildOperands cell q i n = .error t) : ∃ j, j < n ∧ buildOperand cell q (i + j) = .error t := by
  induction n generalizing i with
  | zero => cases h
  | succ n ih =>
    simp only [buildOperands] at h
    split at h
    · cases h; exact ⟨0, by omega, by simpa⟩
    · split at h
      · rename_i e he
        cases h
        obtain ⟨j, h1, h2⟩ := ih he
        exact ⟨j + 1, by omega, by rwa [show i + (j + 1) = i + 1 + j by omega]⟩
      · cases h

theorem modeOfDigit_of_le {d : Nat} (h : d ≤ 2) : ∃ m, modeOfDigit d = some m := by
  match d, h with
  | 0, _ => exact ⟨_, rfl⟩
  | 1, _ => exact ⟨_, rfl⟩
  | 2, _ => exact ⟨_, rfl⟩

theorem modeOfDigit_of_gt {d : Nat} (h : 2 < d) : modeOfDigit d = none := by
  match d, h with
  | _ + 3, _ => rfl

/-- An opcode the encoder finds is registered with the instruction's kind and its number of operands. -/
theorem mem_opcodesFor {i : Instr} {n : Nat} {l : List (Option Registration)} {c : Nat} (h : c ∈ opcodesFor i n l) :
    ∃ j r, c = n + j ∧ l[j]? = some (some r) ∧ r.kind = i.kind ∧ r.arity.val = i.operands.length := by
  induction l generalizing n with
  | nil => simp [opcodesFor] at h
  | cons e rest ih =>
    have hrec : c ∈ opcodesFor i (n + 1) rest → ∃ j r, c = n + j ∧ (e :: rest)[j]? = some (some r) ∧
        r.kind = i.kind ∧ r.arity.val = i.operands.length := fun h' => by
      obtain ⟨j, r, h1, h2, h3⟩ := ih h'
      exact ⟨j + 1, r, by omega, by simpa using h2, h3⟩
    simp only [opcodesFor] at h
    cases e with
    | none => exact hrec h
    | some r =>
      simp only at h
      split at h
      · rename_i hk
        rcases List.mem_cons.1 h with rfl | h
        · exact ⟨0, r, rfl, rfl, hk⟩
        · exact hrec h
      · exact hrec h

/-- The encoder finds an opcode where one is registered. -/
theorem opcodesFor_ne_nil {i : Instr} {n : Nat} {l : List (Option Registration)} {j : Nat} {r : Registration}
    (h : l[j]? = some (some r)) (hk : r.kind = i.kind ∧ r.arity.val = i.operands.length) : opcodesFor i n l ≠ [] := by
  induction l generalizing n j with
  | nil => simp at h
  | cons e rest ih =>
    simp only [opcodesFor]
    cases j with
    | zero =>
      simp only [List.getElem?_cons_zero, Option.some.injEq] at h
      subst h
      simp [hk]
    | succ j =>
      have := ih (n := n + 1) (j := j) (by simpa using h)
      cases e with
      | none => exact this
      | some r' => simp only; split <;> simp [this]

/-- Everything the decoder can answer with an instruction. -/
theorem decodeFrom_eq_ok {lut : Lut} {cell : Nat → Except Trap Word} {i : Instr} (h : decodeFrom lut cell = .ok i) :
    ∃ w e ops, cell 0 = .ok w ∧ 0 ≤ w ∧ lutEntry lut w.toNat = some e ∧
      buildOperands cell (w.toNat / 100) 0 e.arity = .ok ops ∧ i = Instr.ofKind e.kind ops := by
  unfold decodeFrom at h
  split at h
  · cases h
  · rename_i w hw
    split at h
    · cases h
    · split at h
      · cases h
      · rename_i e he
        split at h
        · cases h
        · rename_i ops hops
          cases h
          exact ⟨w, e, ops, hw, Int.not_lt.1 (by assumption), he, hops, rfl⟩

theorem ofKind_kind (k : HandlerKind) (ops : List Operand) : (Instr.ofKind k ops).kind = k := by cases k <;> rfl

theorem ofKind_operands (k : HandlerKind) (ops : List Operand) : (Instr.ofKind k ops).operands = ops := by
  cases k <;> rfl

theorem ofKind_of_instr (i : Instr) : Instr.ofKind i.kind i.operands = i := by cases i <;> rfl

/-- The canonical word selects its opcode and carries its mode number (30_encoding.md R81, R90). -/
theorem canonicalWord_mod {c : Nat} (h : c < 100) (ops : List Operand) : canonicalWord c ops % 100 = c := by
  unfold canonicalWord
  omega

theorem canonicalWord_div {c : Nat} (h : c < 100) (ops : List Operand) : canonicalWord c ops / 100 = modeNumber ops := by
  unfold canonicalWord
  omega

theorem lutEntry_of_mod (lut : Lut) {w c : Nat} (hc : c < 100) (h : w % 100 = c) : lutEntry lut w = lut[c] := by
  unfold lutEntry
  congr 1

/-- A set entry is the one set; the others stay (40_execution_loop.md R111). -/
theorem lutSet_same (lut : Lut) {c : Nat} (hc : c < 100) (r : Registration) : (lutSet lut c r)[c] = some r := by
  simp [lutSet]

theorem lutSet_other (lut : Lut) {c d : Nat} (hd : d < 100) (h : c ≠ d) (r : Registration) :
    (lutSet lut c r)[d] = lut[d] := by
  simp [lutSet, h]

end Sys2Proof
end

