-- ==== Sys2Proof/Laws/Apply.lean ====
section
/-! SUPPORT. Each handler as a plain function of the state: the one equation that says everything it can do, for later
proofs to cite instead of unfolding it. -/

namespace Sys2Proof.Machine

variable {α β : Type}

theorem bind_apply (h : Handler α) (k : α → Handler β) (s : State) :
    (h >>= k) s = match h s with
      | .ok a t => k a t
      | .error e t => .error e t := by
  change EStateM.bind h k s = _
  unfold EStateM.bind
  cases h s <;> rfl

theorem pure_apply (a : α) (s : State) : (pure a : Handler α) s = .ok a s := rfl

theorem get_apply (s : State) : (MonadState.get : Handler State) s = .ok s s := rfl

theorem opRead_apply (ops : List Op) (i : Nat) (s : State) :
    opRead ops i s = match readOperand s ops i with
      | .ok v => .ok v s
      | .error e => .error e s := by
  unfold opRead
  cases readOperand s ops i <;> rfl

theorem opWrite_apply (ops : List Op) (i : Nat) (v : Word) (s : State) :
    opWrite ops i v s = match storeOperand s ops i v with
      | .ok m => .ok () { s with mem := m }
      | .error e => .error e s := rfl

theorem liftTrap_apply (x : Except Trap α) (s : State) :
    liftTrap x s = match x with
      | .ok a => .ok a s
      | .error e => .error e s := by
  cases x <;> rfl

/-- ADD and MUL (41_arithmetic.md R151, R152). -/
theorem arithmeticHandler_apply (f : Params → Word → Word → Except Trap Word) (ops : List Op) (s : State) :
    arithmeticHandler f ops s = match readOperand s ops 0 with
      | .error e => .error e s
      | .ok a => match readOperand s ops 1 with
        | .error e => .error e s
        | .ok b => match f s.params a b with
          | .error e => .error e s
          | .ok r => match storeOperand s ops 2 r with
            | .error e => .error e s
            | .ok m => .ok .cont { s with mem := m } := by
  simp only [arithmeticHandler, bind_apply, opRead_apply, opWrite_apply, liftTrap_apply, get_apply, pure_apply]
  cases readOperand s ops 0 with
  | error e => rfl
  | ok a =>
    simp only
    cases readOperand s ops 1 with
    | error e => rfl
    | ok b =>
      simp only
      cases f s.params a b with
      | error e => rfl
      | ok r => simp only; cases storeOperand s ops 2 r <;> rfl

/-- LT and EQ (44_compare.md R180, R181). -/
theorem compareHandler_apply (test : Word → Word → Bool) (ops : List Op) (s : State) :
    compareHandler test ops s = match readOperand s ops 0 with
      | .error e => .error e s
      | .ok a => match readOperand s ops 1 with
        | .error e => .error e s
        | .ok b => match storeOperand s ops 2 (truthWord (test a b)) with
          | .error e => .error e s
          | .ok m => .ok .cont { s with mem := m } := by
  simp only [compareHandler, bind_apply, opRead_apply, opWrite_apply, pure_apply]
  cases readOperand s ops 0 with
  | error e => rfl
  | ok a =>
    simp only
    cases readOperand s ops 1 with
    | error e => rfl
    | ok b => simp only; cases storeOperand s ops 2 (truthWord (test a b)) <;> rfl

/-- IN (42_io.md R162). -/
theorem inHandler_apply (ops : List Op) (s : State) :
    inHandler ops s = match s.inq with
      | [] => .ok .quit s
      | v :: rest => match storeOperand { s with inq := rest } ops 0 v with
        | .error e => .error e { s with inq := rest }
        | .ok m => .ok .cont { s with inq := rest, mem := m } := by
  cases hq : s.inq with
  | nil => simp only [inHandler, bind_apply, inPop, hq, pure_apply]
  | cons v rest =>
    simp only [inHandler, bind_apply, inPop, hq, opWrite_apply, pure_apply]
    cases storeOperand { s with inq := rest } ops 0 v <;> rfl

/-- OUT without OUTPUT_YIELD (42_io.md R163). -/
theorem outHandler_apply_plain (ops : List Op) (s : State) (h : s.params.outputYield = false) :
    outHandler ops s = match readOperand s ops 0 with
      | .error e => .error e s
      | .ok v => .ok .cont { s with outq := s.outq ++ [v] } := by
  simp only [outHandler, bind_apply, get_apply, h, Bool.false_eq_true, if_false, opRead_apply, outPush, pure_apply]
  cases readOperand s ops 0 <;> rfl

/-- OUT with OUTPUT_YIELD, not resumed (42_io.md R163). -/
theorem outHandler_apply_yield (ops : List Op) (s : State) (h : s.params.outputYield = true) (ho : s.oyp = false) :
    outHandler ops s = match readOperand s ops 0 with
      | .error e => .error e s
      | .ok v => .ok .quit { s with outq := s.outq ++ [v], oyp := true } := by
  simp only [outHandler, bind_apply, get_apply, h, ho, Bool.false_eq_true, if_true, if_false, opRead_apply, outPush,
    setOyp, pure_apply]
  cases readOperand s ops 0 <;> rfl

/-- OUT with OUTPUT_YIELD, resumed (42_io.md R163). -/
theorem outHandler_apply_resumed (ops : List Op) (s : State) (h : s.params.outputYield = true) (ho : s.oyp = true) :
    outHandler ops s = .ok .cont { s with oyp := false } := by
  simp only [outHandler, bind_apply, get_apply, h, ho, if_true, setOyp, pure_apply]

/-- JT and JF (43_jumps.md R170, R171). -/
theorem jumpHandler_apply (taken : Word → Bool) (ops : List Op) (s : State) :
    jumpHandler taken ops s = match readOperand s ops 0 with
      | .error e => .error e s
      | .ok c => match readOperand s ops 1 with
        | .error e => .error e s
        | .ok t => .ok (if taken c then .jumpTo t else .cont) s := by
  simp only [jumpHandler, bind_apply, opRead_apply, pure_apply]
  cases readOperand s ops 0 with
  | error e => rfl
  | ok c => simp only; cases readOperand s ops 1 <;> rfl

/-- ARB (45_base_and_halt.md R190). -/
theorem arbHandler_apply (ops : List Op) (s : State) :
    arbHandler ops s = match readOperand s ops 0 with
      | .error e => .error e s
      | .ok x => .ok (.adjustRelativeBase x) s := by
  simp only [arbHandler, bind_apply, opRead_apply, pure_apply]
  cases readOperand s ops 0 <;> rfl

/-- HLT (45_base_and_halt.md R191). -/
theorem haltHandler_apply (ops : List Op) (s : State) : haltHandler ops s = .ok .quit s := rfl

/-- A word cast to a word is itself. -/
theorem castWord_apply {v : Word} {s : State} (hb : 1 ≤ s.params.wordBits) (hv : InWord s.params.wordBits v) :
    castWord v s = .ok v s := by
  simp only [castWord, wrapWord_of_inWord hb hv]

/-! ### An instruction whose handler's end is known -/

theorem exec_of_error {i : Instr} {s s' : State} {t : Trap}
    (h : handlerOf s.params i (bindOps s.rb i.operands) s = .error t s') : exec i s = .next (enterFault s.ip t s') := by
  rw [exec_eq, completeStep_of_error h]

theorem exec_of_ok {i : Instr} {s s' : State} {d : Directive}
    (h : handlerOf s.params i (bindOps s.rb i.operands) s = .ok d s') :
    exec i s = .next (afterDirective s.ip i.operands.length d s') := by
  rw [exec_eq, completeStep_of_ok h]

theorem exec_of_cont {i : Instr} {s s' : State}
    (h : handlerOf s.params i (bindOps s.rb i.operands) s = .ok .cont s')
    (hl : ipFits s'.params s'.mem.len (s.ip + 1 + i.operands.length)) :
    exec i s = .next { s' with ip := s.ip + 1 + i.operands.length } := by
  rw [exec_of_ok h]
  exact congrArg _ (movedTo_of_fits hl)

theorem exec_of_quit {i : Instr} {s s' : State}
    (h : handlerOf s.params i (bindOps s.rb i.operands) s = .ok .quit s') :
    exec i s = .next { s' with status := .halted } := exec_of_ok h

theorem exec_of_ranPast {i : Instr} {s s' : State}
    (h : handlerOf s.params i (bindOps s.rb i.operands) s = .ok .cont s')
    (hl : ¬ ipFits s'.params s'.mem.len (s.ip + 1 + i.operands.length)) :
    exec i s = .next (enterFault s.ip
      ⟨.unexpectedEndOfProgram, heldIp s'.params (s.ip + 1 + i.operands.length)⟩
      { s' with ip := heldIp s'.params (s.ip + 1 + i.operands.length) }) := by
  rw [exec_of_ok h]
  exact congrArg _ (movedTo_of_not_fits hl)

/-! ### Operands -/

theorem bindOps_getElem? {rb : Word} {ops : List Operand} {i : Nat} {o : Operand} (h : ops[i]? = some o) :
    (bindOps rb ops)[i]? = some ⟨o.mode, o.raw, rb⟩ := by simp [bindOps, h]

theorem storeOperand_of_target {s : State} {ops : List Op} {i : Nat} {d : Int} {v : Word} {m : Memory}
    (ht : targetOperand s.params ops i = .ok d) (hm : s.mem.write s.params d v = .ok m) :
    storeOperand s ops i v = .ok m := by
  simp only [storeOperand, ht, hm]

/-- A store is a write at the operand's target. -/
theorem storeOperand_eq_ok {s : State} {ops : List Op} {i : Nat} {v : Word} {m : Memory}
    (h : storeOperand s ops i v = .ok m) :
    ∃ d, targetOperand s.params ops i = .ok d ∧ s.mem.write s.params d v = .ok m := by
  unfold storeOperand at h
  split at h
  · cases h
  · exact ⟨_, by assumption, h⟩

/-! ### What a directive leaves alone -/

/-- A directive changes `rb`, `ip`, `status` and `fault` at most; without a fault it leaves the record, and only `Quit`
changes the status. -/
theorem directiveEnd_frame {ip0 : Nat} {d : Directive} {u t : State} (h : DirectiveEnd ip0 d u t) :
    t = { u with rb := t.rb, ip := t.ip, status := t.status, fault := t.fault } ∧
      (t.status ≠ .faulted → t.fault = u.fault ∧ (d ≠ .quit → t.status = u.status)) ∧ RbAfter d u t.rb := by
  cases h with
  | stopped h => exact ⟨rfl, fun _ => ⟨rfl, fun hn => absurd h hn⟩, .inl rfl⟩
  | raised t h => exact ⟨rfl, fun h => by simp at h, .inl rfl⟩
  | moved rb' ip' hrb h => exact ⟨rfl, fun _ => ⟨rfl, fun _ => rfl⟩, hrb⟩
  | ranPast rb' ip' hrb h => exact ⟨rfl, fun h => by simp at h, hrb⟩

end Sys2Proof.Machine
end

