-- ==== Sys2Proof/Laws/PerInstr.lean ====
section
/-! SUPPORT. One lemma for every instruction: an instruction is its kind and its operands, so the decoder, which makes
one from a registered kind and the operands it built, reaches every one. -/

namespace Sys2Proof.Laws.KindAndOperands

/-- The instruction is the one its kind and its operands make. -/
def Statement (i : Instr) : Prop := Instr.ofKind i.kind i.operands = i

theorem add (ops : List Operand) : Statement (.add ops) := ofKind_of_instr _
theorem mul (ops : List Operand) : Statement (.mul ops) := ofKind_of_instr _
theorem inp (ops : List Operand) : Statement (.inp ops) := ofKind_of_instr _
theorem out (ops : List Operand) : Statement (.out ops) := ofKind_of_instr _
theorem jt (ops : List Operand) : Statement (.jt ops) := ofKind_of_instr _
theorem jf (ops : List Operand) : Statement (.jf ops) := ofKind_of_instr _
theorem lt (ops : List Operand) : Statement (.lt ops) := ofKind_of_instr _
theorem eq (ops : List Operand) : Statement (.eq ops) := ofKind_of_instr _
theorem arb (ops : List Operand) : Statement (.arb ops) := ofKind_of_instr _
theorem hlt (ops : List Operand) : Statement (.hlt ops) := ofKind_of_instr _
theorem custom (k : Fin 0x8000) (ops : List Operand) : Statement (.custom k ops) := ofKind_of_instr _

end Sys2Proof.Laws.KindAndOperands
end

