-- ==== Sys2Proof/Laws/World.lean ====
section
/-! SUPPORT. Several machines: which machine a handle names after each operation, and everything a host command can
do to them. -/

namespace Sys2Proof.Machine

/-! ### Machines by their handle -/

theorem machine_of_length_le {w : World} {g : Nat} (h : w.length ≤ g) : w.machine g = none := by
  simp [World.machine, List.getElem?_eq_none h]

theorem lt_length_of_machine {w : World} {g : Nat} {s : State} (h : w.machine g = some s) : g < w.length := by
  by_contra hg
  rw [machine_of_length_le (Nat.not_lt.1 hg)] at h
  cases h

theorem machine_set_other {w : World} {g h : Nat} (hgh : g ≠ h) (m : Option State) :
    World.machine (w.set h m) g = w.machine g := by
  simp [World.machine, Ne.symm hgh]

theorem machine_set_same {w : World} {h : Nat} {s : State} (hs : w.machine h = some s) (m : Option State) :
    World.machine (w.set h m) h = m := by
  simp [World.machine, lt_length_of_machine hs]

theorem machine_append_left {w : World} {g : Nat} {m : Option State} (h : g < w.length) :
    World.machine (w ++ [m]) g = w.machine g := by
  simp [World.machine, List.getElem?_append_left h]

theorem machine_append_new (w : World) (m : Option State) : World.machine (w ++ [m]) w.length = m := by
  simp [World.machine]

/-- A run is in progress exactly when some machine is RUNNING. -/
theorem inProgress_iff (w : World) :
    w.inProgress = true ↔ ∃ g s, w.machine g = some s ∧ s.status = .running := by
  simp only [World.inProgress, List.any_eq_true]
  constructor
  · rintro ⟨m, hm, hr⟩
    obtain ⟨g, hg⟩ := List.getElem?_of_mem hm
    cases m with
    | none => cases hr
    | some s => exact ⟨g, s, by simp [World.machine, hg], by simpa [isRunning] using hr⟩
  · rintro ⟨g, s, hs, hr⟩
    have : w[g]? = some (some s) := by simpa [World.machine, Option.join_eq_some_iff] using hs
    exact ⟨some s, List.mem_of_getElem? this, by simpa [isRunning] using hr⟩

/-! ### Commands -/

theorem betweenRuns_inProgress {α : Type} {w : World} (h : w.inProgress = true) (g : Nat)
    (f : State → Except HostError α) : w.betweenRuns g f = .error .runInProgress := by
  simp only [World.betweenRuns, h, if_true]

theorem betweenRuns_machine {α : Type} {w : World} {g : Nat} {s : State} (h : w.inProgress = false)
    (hs : w.machine g = some s) (f : State → Except HostError α) : w.betweenRuns g f = f s := by
  simp [World.betweenRuns, h, hs]

theorem betweenRuns_eq_ok {α : Type} {w : World} {g : Nat} {f : State → Except HostError α} {x : α}
    (h : w.betweenRuns g f = .ok x) : w.inProgress = false ∧ ∃ s, w.machine g = some s ∧ f s = .ok x := by
  unfold World.betweenRuns at h
  cases hp : w.inProgress with
  | true => simp [hp] at h
  | false =>
    simp only [hp, Bool.false_eq_true, if_false] at h
    split at h
    · cases h
    · exact ⟨rfl, _, by assumption, h⟩

/-- Everything a host command that succeeds does: it changes its own machine, as the command says. -/
theorem command_eq_ok {w w' : World} {g : Nat} {c : HostCommand} {a : HostAnswer} (h : w.command g c = .ok (a, w')) :
    w.inProgress = false ∧ ∃ s t, w.machine g = some s ∧ applyCommand c s = .ok (a, t) ∧ w' = w.set g (some t) := by
  obtain ⟨hp, s, hs, h⟩ := betweenRuns_eq_ok h
  cases hc : applyCommand c s with
  | error e => simp [hc, Except.map] at h
  | ok r =>
    simp only [hc, Except.map, Except.ok.injEq, Prod.mk.injEq] at h
    exact ⟨hp, s, r.2, hs, by rw [hc, ← h.1], h.2.symm⟩

theorem drop_eq_ok {w w' : World} {g : Nat} (h : w.drop g = .ok w') :
    w.inProgress = false ∧ ∃ s, w.machine g = some s ∧ w' = w.set g none := by
  obtain ⟨hp, s, hs, h⟩ := betweenRuns_eq_ok h
  exact ⟨hp, s, hs, (Except.ok.inj h).symm⟩

/-- A machine that is RUNNING takes the world's step, and no other machine changes. -/
theorem machine_step {w : World} (g : Nat) : (World.step w).machine g = w.machine g ∨
    ∃ s, w.machine g = some s ∧ s.status = .running ∧ (World.step w).machine g = some (steppedMachine s) := by
  induction w generalizing g with
  | nil => exact .inl rfl
  | cons m rest ih =>
    cases m with
    | none =>
      cases g with
      | zero => exact .inl rfl
      | succ g => exact ih g
    | some s =>
      by_cases hs : s.status = .running
      · rw [World.step, if_pos hs]
        cases g with
        | zero => exact .inr ⟨s, rfl, hs, rfl⟩
        | succ g => exact .inl rfl
      · rw [World.step, if_neg hs]
        cases g with
        | zero => exact .inl rfl
        | succ g => exact ih g

end Sys2Proof.Machine
end

