-- ==== Sys2Proof/Tests/Slice0.lean ====
section
/-! SUPPORT. The model's own tests: expected values come from 95_test_vectors.md (the vector is named) or are worked out
from the rule named. Then one witness for the hypotheses of every statement of Certificates/Slice0/Obligations.lean, by
the statement's name. -/

namespace Sys2Proof.Machine.Tests

/-! ### Small states -/

def memory (image : List Word) (policy : MemPolicy) : Memory := ⟨imageCells 0 image, image.length, policy⟩

/-- A running machine with an image at 0 and the reference entry of one opcode registered. -/
def start (c : Nat) (image : List Word) (policy : MemPolicy := .extended) : State :=
  { State.constructed {} (memory image policy) with lut := lutSet emptyLut c (tableEntry c), status := .running }

/-- The state after one step. -/
def after (s : State) : State :=
  match step s with
  | .next t => t
  | .fault _ => s
  | .refused _ => s

/-- The table with one reference entry. -/
def only (c : Nat) : Lut := lutSet emptyLut c (tableEntry c)

/-! ### Well-formedness: each check accepts and refuses -/

theorem test_wf_accepts : Instr.wf {} 99 (.hlt []) = true ∧
    Instr.wf {} 1 (.add [⟨.relative, 2 ^ 63 - 1⟩, ⟨.immediate, -2 ^ 63⟩, ⟨.position, 0⟩]) = true := by decide
theorem test_wf_refuses_opcode : Instr.wf {} 100 (.hlt []) = false ∧ opcodeOk 100 = false := by decide
theorem test_wf_refuses_arity : arityOk (.hlt (List.replicate 256 ⟨.position, 0⟩)) = false := by
  change decide ((List.replicate 256 (⟨.position, 0⟩ : Operand)).length ≤ maxArity) = false
  rw [List.length_replicate]
  decide
theorem test_wf_refuses_raw : rawsOk {} (.out [⟨.position, 2 ^ 63⟩]) = false ∧
    Instr.wf {} 4 (.out [⟨.position, 2 ^ 63⟩]) = false := by decide
theorem test_wf_refuses_word : wordOk { wordBits := 8 } 1 (.add [⟨.position, 0⟩, ⟨.immediate, 0⟩]) = false := by decide

/-! ### Decoding: words written out from 30_encoding.md -/

theorem test_decode_add : decode (only 1) [21101, 3, 4, 0] =
    .ok (.add [⟨.immediate, 3⟩, ⟨.immediate, 4⟩, ⟨.relative, 0⟩]) := by decide
theorem test_decode_mul : decode (only 2) [1002, 4, 3, 4] =
    .ok (.mul [⟨.position, 4⟩, ⟨.immediate, 3⟩, ⟨.position, 4⟩]) := by decide
theorem test_decode_in : decode (only 3) [203, -7] = .ok (.inp [⟨.relative, -7⟩]) := by decide
theorem test_decode_out : decode (only 4) [104, 1125899906842624] = .ok (.out [⟨.immediate, 1125899906842624⟩]) := by decide
theorem test_decode_jt : decode (only 5) [1105, 1, 4] = .ok (.jt [⟨.immediate, 1⟩, ⟨.immediate, 4⟩]) := by decide
theorem test_decode_jf : decode (only 6) [1006, 101, 0] = .ok (.jf [⟨.position, 101⟩, ⟨.immediate, 0⟩]) := by decide
theorem test_decode_lt : decode (only 7) [1207, 50, 15, 60] =
    .ok (.lt [⟨.relative, 50⟩, ⟨.immediate, 15⟩, ⟨.position, 60⟩]) := by decide
theorem test_decode_eq : decode (only 8) [1008, 100, 16, 101] =
    .ok (.eq [⟨.position, 100⟩, ⟨.immediate, 16⟩, ⟨.position, 101⟩]) := by decide
theorem test_decode_arb : decode (only 9) [109, -49] = .ok (.arb [⟨.immediate, -49⟩]) := by decide
theorem test_decode_hlt : decode (only 99) [10099, 0, 0] = .ok (.hlt []) := by decide
/-- The setup of V-CUS-1, with word 1042 of V-CUS-3. -/
theorem test_decode_custom : decode (lutSet emptyLut 42 ⟨2, .custom 0⟩) [1042, 5, 6] =
    .ok (.custom 0 [⟨.position, 5⟩, ⟨.immediate, 6⟩]) := by decide
/-- V-DEC-4, V-DEC-6, V-DEC-11. -/
theorem test_decode_refuses : decode (only 1) [-1, 0, 0, 0] = .error ⟨.invalidOpcode, -1⟩ ∧
    decode (only 1) [10, 0, 0, 0] = .error ⟨.unknownOpcode, 10⟩ ∧
    decode (only 1) [30001, 0, 0, 0, 99] = .error ⟨.invalidMode, 23⟩ := by decide
/-- 30_encoding.md R90: `2 + 100*0 + 1000*1 + 10000*0`. -/
theorem test_encode_mul : encodeAt 2 (.mul [⟨.position, 4⟩, ⟨.immediate, 3⟩, ⟨.position, 4⟩]) = [1002, 4, 3, 4] := by decide
theorem test_decodeTableWord : decodeTableWord 256 21101 =
    some (.add [⟨.immediate, 0⟩, ⟨.immediate, 0⟩, ⟨.relative, 0⟩]) ∧ decodeTableWord 64 99 = some (.hlt []) := by decide

/-! ### One step -/

/-- V-ARI-8. -/
theorem test_add_zero : (after (start 1 [1101, 0, 0, 0, 99])).mem.cell 0 = 0 ∧
    (after (start 1 [1101, 0, 0, 0, 99])).ip = 4 := by decide
/-- V-ARI-1. -/
theorem test_add_overflow : (after (start 1 [1101, 9223372036854775807, 1, 0, 99])).fault =
    ⟨some .arithmeticOverflow, 0, 0⟩ := by decide
/-- V-ARI-3. -/
theorem test_mul_signed : (after (start 2 [1102, -3, 4, 0, 99])).mem.cell 0 = -12 := by decide
/-- V-ARI-6. -/
theorem test_mul_least : (after (start 2 [1102, -4611686018427387904, 2, 0, 99])).mem.cell 0 = -9223372036854775808 := by
  decide
/-- V-IO-1. -/
theorem test_in_stores : (after { start 3 [3, 3, 99, 0] with inq := [5] }).mem.cell 3 = 5 ∧
    (after { start 3 [3, 3, 99, 0] with inq := [5] }).inq = [] := by decide
/-- V-IO-4. -/
theorem test_in_yields : (after (start 3 [3, 3, 99, 0])).status = .halted ∧ (after (start 3 [3, 3, 99, 0])).ip = 0 := by
  decide
/-- V-MEM-1. -/
theorem test_out_beyond_length : (after (start 4 [4, 9, 99])).outq = [0] ∧ (after (start 4 [4, 9, 99])).mem.len = 3 := by
  decide
/-- V-IO-6, run 1. -/
theorem test_out_yields :
    let t := after { start 4 [104, 7, 99] with params := { outputYield := true } }
    t.outq = [7] ∧ t.ip = 0 ∧ t.oyp = true ∧ t.status = .halted := by decide
/-- V-JMP-3. -/
theorem test_jt_negative_condition : (after (start 5 [1105, -7, 4, 0, 99])).ip = 4 := by decide
/-- V-JMP-7. -/
theorem test_jt_past_the_end : (after (start 5 [1105, 1, 100])).ip = 100 ∧
    (after (start 5 [1105, 1, 100])).fault = ⟨some .unexpectedEndOfProgram, 0, 100⟩ := by decide
/-- V-JMP-5. -/
theorem test_jf_not_taken : (after (start 6 [1106, 7, 4, 99, 0])).ip = 3 := by decide
/-- V-JMP-10. -/
theorem test_jf_reads_its_target : (after (start 6 [6, 3, -1, 99])).fault = ⟨some .negativeAddress, 0, -1⟩ := by decide
/-- V-CMP-4. -/
theorem test_lt_signed :
    (after (start 7 [1107, -9223372036854775808, 9223372036854775807, 5, 99, 7])).mem.cell 5 = 1 := by decide
/-- V-CMP-2. -/
theorem test_lt_equal : (after (start 7 [1107, 3, 3, 5, 99, 7])).mem.cell 5 = 0 := by decide
/-- V-CMP-5. -/
theorem test_eq_equal : (after (start 8 [1108, 3, 3, 5, 99, 7])).mem.cell 5 = 1 := by decide
/-- V-CMP-7. -/
theorem test_eq_whole_word : (after (start 8 [1108, 4294967296, 0, 5, 99, 7])).mem.cell 5 = 0 := by decide
/-- V-ARB-4. -/
theorem test_arb_position : (after (start 9 [9, 1, 99])).rb = 1 ∧ (after (start 9 [9, 1, 99])).ip = 2 := by decide
/-- V-ARB-2, step 2. -/
theorem test_arb_overflow : (after { start 9 [109, 1, 99] with rb := 9223372036854775807 }).fault.cause =
    some .arithmeticOverflow := by decide
/-- V-HLT-1. -/
theorem test_hlt : (after (start 99 [99])).status = .halted ∧ (after (start 99 [99])).ip = 0 := by decide
/-- V-CUS-1: `COPY` as CUSTOM(0) at opcode 42. -/
theorem test_custom_copies :
    let t := after { start 42 [42, 5, 6, 99, 0, 77, 0] with
      params := { custom := [copyProgram] }, lut := lutSet emptyLut 42 ⟨2, .custom 0⟩ }
    t.mem.cell 6 = 77 ∧ t.ip = 3 := by decide
/-- V-CUS-2. -/
theorem test_custom_index_out_of_range :
    (after { start 42 [42, 5, 99, 0, 0, 77] with
      params := { custom := [copyProgram] }, lut := lutSet emptyLut 42 ⟨1, .custom 0⟩ }).fault =
      ⟨some .operandIndexOutOfRange, 0, 1⟩ := by decide
/-- The next step runs the placed instruction (log 7): OUT of M[0], whose word is the instruction's own. -/
theorem test_withFetchWord : (after (State.reset.withFetchWord 128 4)).outq = [4] ∧
    (after (State.reset.withFetchWord 128 4)).status = .running := by decide

/-- 10_state.md R22, R24 at WORD_BITS = 4, where `ip` has 3 bits: past the last of eight cells nothing completes (log 11). -/
theorem test_top_of_the_ip_register :
    let s := { start 42 [0, 0, 0, 0, 0, 0, 0, 0] with params := { wordBits := 4, custom := [.ret .cont] }, ip := 7 }
    exec (.custom 0 []) s = .next (completeStep 7 0 (customHandler s.params 0 []) s) ∧
    (completeStep 7 0 (customHandler s.params 0 []) s).fault.cause = some .unexpectedEndOfProgram ∧
    (completeStep 6 0 (customHandler s.params 0 []) { s with ip := 6 }).ip = 7 := ⟨rfl, by decide, by decide⟩

/-! ### Host commands -/

/-- 60_exceptions.md R222: while one machine runs the other takes no command, and between runs an output moves. -/
theorem test_world :
    World.command [some { State.reset with status := .running }, some State.reset] 1 (.pushInput 5) = .error .runInProgress ∧
    World.moveOutput [some { State.reset with outq := [5, 6] }, some State.reset] 0 1 =
      .ok [some { State.reset with outq := [6] }, some { State.reset with inq := [5] }] := ⟨rfl, rfl⟩
/-- V-TXT-2, V-TXT-3, V-TXT-7. -/
theorem test_loadText : loadText {} [' ', '+', '3', ' ', ',', ' ', '-', '4', ',', '5'] .extended =
      .ok (loadImage {} [3, -4, 5] .extended) ∧
    loadText {} ['1', ',', ',', '2'] .extended = .error (.parse 1 []) ∧
    loadText {} [] .extended = .error (.parse 0 []) := by decide
/-- V-DEC-18, V-DEC-19. -/
theorem test_register_refuses : register 100 3 1 State.reset = .error (.registration 100) ∧
    register 5 1 11 State.reset = .error (.registration 5) := by decide
/-- V-REG-1, V-CUS-4: a table entry's packing. -/
theorem test_lutWord : lutWord (some ⟨3, .add⟩) = 0x10007#32 ∧ lutWord (some ⟨0, .halt⟩) = 0xA0001#32 ∧
    lutWord (some ⟨2, .custom 0⟩) = 0x80000005#32 := by decide
/-- V-FLT-2. -/
theorem test_readReg : readReg 0x03 (after (start 4 [4, 9, 99] .strict)) = .ok 5 ∧
    readReg 0x05 (after (start 4 [4, 9, 99] .strict)) = .ok 9 ∧ readReg 0x07 (after (start 4 [4, 9, 99] .strict)) = .ok 0 := by
  decide

/-! ### Witnesses: every statement's hypotheses, clause by clause, met together

A witness that serves several statements names them in its docstring. WrittenOutWordsDecode has no hypotheses.

`pos`, `imm` and `rel` are operands. -/

abbrev pos (v : Word) : Operand := ⟨.position, v⟩
abbrev imm (v : Word) : Operand := ⟨.immediate, v⟩
abbrev rel (v : Word) : Operand := ⟨.relative, v⟩

/-- A running machine of one cell under STRICT. -/
def tight : State := start 1 [7] .strict

theorem witness_StepRunsTheDecodedInstruction :
    ((start 99 [99]).status = .running ∧ fetchInstr (start 99 [99]) = .ok (.hlt [])) ∧
    ((start 99 [98]).status = .running ∧ fetchInstr (start 99 [98]) = .error ⟨.unknownOpcode, 98⟩) ∧
    State.reset.status ≠ .running := by decide

theorem witness_StepRunsAnEncodedInstruction :
    (start 9 [109, 1]).status = .running ∧ (start 9 [109, 1]).lut[(9 : Fin 100)] = some ⟨1, .arb⟩ ∧
    HandlerKind.arb = (Instr.arb [imm 1]).kind ∧ (1 : Fin 256).val = (Instr.arb [imm 1]).operands.length ∧
    ∀ (j : Nat) (v : Word), (encodeAt (9 : Fin 100) (.arb [imm 1]))[j]? = some v →
      (start 9 [109, 1]).mem.read (((start 9 [109, 1]).ip + j : Nat) : Int) = .ok v := by
  refine ⟨by decide, by decide, by decide, by decide, fun j v h => ?_⟩
  match j, h with
  | 0, h => cases h; decide
  | 1, h => cases h; decide

theorem witness_EncodedInstructionDecodesToItself :
    Instr.wf {} (9 : Fin 100) (.arb [rel (2 ^ 63 - 1)]) = true ∧ (only 9)[(9 : Fin 100)] = some ⟨1, .arb⟩ ∧
    HandlerKind.arb = (Instr.arb [rel (2 ^ 63 - 1)]).kind ∧
    (1 : Fin 256).val = (Instr.arb [rel (2 ^ 63 - 1)]).operands.length := by decide

theorem witness_ExcessDigitsAreIgnored : lutEntry (only 99) 99 = some ⟨0, .halt⟩ ∧ lutEntry (only 1) 21101 = some ⟨3, .add⟩ := by
  decide

theorem witness_OperandConstructionChecksItsMode :
    let cell : Nat → Except Trap Word := fun j => if j < 4 then .ok 7 else .error ⟨.outOfBounds, 4⟩
    (cell (1 + 2) = .ok 7 ∧ 11 / 10 ^ 2 % 10 = 0) ∧ (cell (1 + 1) = .ok 7 ∧ 11 / 10 ^ 1 % 10 = 1) ∧
    (cell (1 + 0) = .ok 7 ∧ 12 / 10 ^ 0 % 10 = 2) ∧ (cell (1 + 0) = .ok 7 ∧ 2 < 13 / 10 ^ 0 % 10) ∧
    (cell (1 + 2) = .ok 7 ∧ 2 < 900 / 10 ^ 2 % 10) ∧ cell (1 + 3) = .error ⟨.outOfBounds, 4⟩ := by decide

theorem witness_NegativeWordIsInvalidOpcode : (start 99 [-1]).status = .running ∧
    (start 99 [-1]).mem.read ((start 99 [-1]).ip : Int) = .ok (-1) ∧ (-1 : Word) < 0 := by decide

theorem witness_AbsentEntryIsUnknownOpcode : (start 99 [98]).status = .running ∧
    (start 99 [98]).mem.read ((start 99 [98]).ip : Int) = .ok ((98 : Nat) : Int) ∧
    (start 99 [98]).lut[98 % 100] = none := by decide

/-- Operand 0 with digit 3 and operand 2 with digit 9. -/
theorem witness_InvalidModeComesFromAnOperandBelowTheArity :
    ((start 5 [305]).status = .running ∧ (start 5 [305]).mem.read ((start 5 [305]).ip : Int) = .ok ((305 : Nat) : Int) ∧
      lutEntry (start 5 [305]).lut 305 = some ⟨2, .jt⟩ ∧
      (∀ j, j ≤ 0 → ∃ v, (start 5 [305]).mem.read (((start 5 [305]).ip + (1 + j) : Nat) : Int) = .ok v) ∧
      (∀ j, j < 0 → decimalDigit j (305 / 100) ≤ 2) ∧ 2 < decimalDigit 0 (305 / 100)) ∧
    (lutEntry (start 1 [90001]).lut 90001 = some ⟨3, .add⟩ ∧ (2 : Nat) < (3 : Fin 256).val ∧
      (start 1 [90001]).mem.read ((start 1 [90001]).ip : Int) = .ok ((90001 : Nat) : Int) ∧
      (∀ j, j ≤ 2 → ∃ v, (start 1 [90001]).mem.read (((start 1 [90001]).ip + (1 + j) : Nat) : Int) = .ok v) ∧
      (∀ j, j < 2 → decimalDigit j (90001 / 100) ≤ 2) ∧ 2 < decimalDigit 2 (90001 / 100)) ∧
    fetchInstr (start 5 [305]) = .error ⟨.invalidMode, 3⟩ := by
  refine ⟨⟨by decide, by decide, by decide, fun j hj => ⟨0, ?_⟩, by decide, by decide⟩,
    ⟨by decide, by decide, by decide, fun j hj => ⟨0, ?_⟩, by decide, by decide⟩, by decide⟩
  · obtain rfl : j = 0 := by omega
    decide
  · obtain rfl | rfl | rfl : j = 0 ∨ j = 1 ∨ j = 2 := by omega
    all_goals decide

/-- V-DEC-12. -/
theorem witness_RawReadFailsBeforeTheModeCheck :
    (start 5 [305] .strict).status = .running ∧
    (start 5 [305] .strict).mem.read ((start 5 [305] .strict).ip : Int) = .ok ((305 : Nat) : Int) ∧
    lutEntry (start 5 [305] .strict).lut 305 = some ⟨2, .jt⟩ ∧ 0 < (2 : Fin 256).val ∧
    (start 5 [305] .strict).mem.read (((start 5 [305] .strict).ip + (1 + 0) : Nat) : Int) = .error ⟨.outOfBounds, 1⟩ := by decide

/-- The addresses -1, 0, the last allocated one and the first beyond it, under each policy. -/
theorem witness_MemReadFollowsItsRule :
    (-1 : Int) < 0 ∧ ((0 : Int) ≤ 0 ∧ (0 : Int) < (memory [7, 8] .strict).len) ∧
    ((0 : Int) ≤ 1 ∧ (1 : Int) < (memory [7, 8] .strict).len) ∧
    (((memory [7, 8] .strict).len : Int) ≤ 2 ∧ (memory [7, 8] .strict).policy = .strict) ∧
    (((memory [7, 8] .extended).len : Int) ≤ 2 ∧ (memory [7, 8] .extended).policy = .extended) := by decide

theorem witness_MemWriteFollowsItsRule :
    (memory [7, 8] .strict).wf ∧ (memory [7, 8] .extended).wf ∧ (-1 : Int) < 0 ∧ (1 : Int) < (memory [7, 8] .strict).len ∧
    (((memory [7, 8] .strict).len : Int) ≤ 2 ∧ (memory [7, 8] .strict).policy = .strict) ∧
    (((memory [7, 8] .extended).len : Int) ≤ 3 ∧ (memory [7, 8] .extended).policy = .extended ∧
      ∃ cap : Nat, ({ memCap := some 3 } : Params).memCap = some cap ∧ (cap : Int) ≤ 3) ∧
    (((memory [7, 8] .extended).len : Int) ≤ 2 ∧ (memory [7, 8] .extended).policy = .extended ∧
      ∀ cap : Nat, ({ memCap := some 3 } : Params).memCap = some cap → (2 : Int) < (cap : Int)) :=
  ⟨by decide, by decide, by decide, by decide, by decide, ⟨by decide, by decide, 3, rfl, by decide⟩,
    ⟨by decide, by decide, fun cap h => by cases h; decide⟩⟩

theorem witness_GrowthZeroFills : (memory [7] .extended).wf ∧ (memory [7] .extended).len ≤ 4 ∧
    (memory [7] .extended).write {} ((4 : Nat) : Int) 9 = .ok ⟨[(0, 7), (4, 9)], 5, .extended⟩ := by decide

theorem witness_OutOfBoundsOnlyUnderStrict :
    (tight.mem.policy = .strict ∧ (tight.mem.len : Int) ≤ 1) ∧ (memory [7] .extended).policy = .extended ∧
    ({ tight with ip := 1 }.status = .running ∧ { tight with ip := 1 }.mem.len ≤ { tight with ip := 1 }.ip) ∧
    tight.mem.len ≤ tight.ip + (1 + 0) ∧
    (targetOperand tight.params (tight.bind [pos 1]) 0 = .ok 1 ∧ (tight.mem.len : Int) ≤ 1) := by decide

/-- The largest word, one above it, and one below the least. -/
theorem witness_WordArithmeticByPolicy :
    (InWord 64 (9223372036854775806 + 1)) ∧ ¬ InWord 64 (9223372036854775807 + 1) ∧
    ¬ InWord 64 (9223372036854775807 * -2) ∧ ({} : Params).overflow = .fault ∧
    ({ overflow := .wrap } : Params).overflow = .wrap := by decide

theorem witness_OperandFormsReadAndWrite : ([pos 0, imm 5, rel 0] : List Operand)[3]? = none ∧ ([] : List Operand)[0]? = none ∧
    ([pos 0, imm 5, rel 0] : List Operand)[0]? = some (pos 0) ∧ ([pos 0, imm 5, rel 0] : List Operand)[1]? = some (imm 5) ∧
    ([pos 0, imm 5, rel 0] : List Operand)[2]? = some (rel 0) ∧ addW tight.params 0 tight.rb = .ok 0 ∧
    addW {} 9223372036854775807 1 = .error ⟨.arithmeticOverflow, 0⟩ := by decide

/-- V-MODE-1: Relative `-10` and Position `0` with `rb = 10`. -/
theorem witness_RelativeReachesThePositionCell : (0 : Int) ≤ 0 ∧
    InWord { start 4 [204, -10] with rb := 10 }.params.wordBits 0 ∧
    ([rel (-10)] : List Operand)[0]? = some ⟨.relative, 0 - { start 4 [204, -10] with rb := 10 }.rb⟩ := by decide

theorem witness_WriteThroughImmediateAlwaysFails :
    (([imm 1, imm 2, imm 0] : List Operand)[2]? = some (imm 0) ∧
      readOperand tight (tight.bind [imm 1, imm 2, imm 0]) 0 = .ok 1 ∧
      readOperand tight (tight.bind [imm 1, imm 2, imm 0]) 1 = .ok 2 ∧
      addW tight.params 1 2 = .ok 3 ∧ mulW tight.params 1 2 = .ok 2) ∧
    (([imm 0] : List Operand)[0]? = some (imm 0) ∧ { tight with inq := [5] }.inq = [5]) ∧
    (tight.fault.cause ≠ some .incompatibleMode ∧ Instr.hlt ∈ [Instr.out, Instr.jt, Instr.jf, Instr.arb, Instr.hlt] ∧
      exec (.hlt []) tight = .next { tight with status := .halted }) :=
  ⟨by decide, by decide, by decide, by simp, rfl⟩

/-- A machine whose instruction at 0 has three operands, `M[5]` the destination. -/
def three (c : Nat) : State := start c [0, 0, 0, 0, 99, 7]

/-- The operands `3, 4, M[5]`. -/
def threeOps : List Operand := [imm 3, imm 4, pos 5]

/-- For AddStoresTheSum, MulStoresTheProduct, LtStoresTheSignedComparison and EqStoresTheEquality. -/
theorem witness_ThreeOperandResults :
    readOperand (three 1) ((three 1).bind threeOps) 0 = .ok 3 ∧ readOperand (three 1) ((three 1).bind threeOps) 1 = .ok 4 ∧
    targetOperand (three 1).params ((three 1).bind threeOps) 2 = .ok 5 ∧ addW (three 1).params 3 4 = .ok 7 ∧
    mulW (three 1).params 3 4 = .ok 12 ∧
    (three 1).mem.write (three 1).params 5 7 = .ok ⟨[(4, 99), (5, 7)], 6, .extended⟩ ∧
    (three 1).mem.write (three 1).params 5 12 = .ok ⟨[(4, 99), (5, 12)], 6, .extended⟩ ∧
    (three 1).mem.write (three 1).params 5 (if (3 : Int) < 4 then 1 else 0) = .ok ⟨[(4, 99), (5, 1)], 6, .extended⟩ ∧
    (three 1).mem.write (three 1).params 5 (if (3 : Int) = 4 then 1 else 0) = .ok ⟨[(4, 99)], 6, .extended⟩ ∧
    ipFits (three 1).params 6 ((three 1).ip + 1 + threeOps.length) := by decide

theorem witness_ThreeOperandInstructionsRaiseInOrder :
    ((Instr.add, addW) ∈ [(Instr.add, addW), (Instr.mul, mulW), (Instr.lt, fun _ a b => .ok (if a < b then 1 else 0)),
      (Instr.eq, fun _ a b => .ok (if a = b then 1 else 0))]) ∧
    readOperand tight (tight.bind [pos (-1), imm 2, pos 0]) 0 = .error ⟨.negativeAddress, -1⟩ ∧
    readOperand tight (tight.bind [pos 0, pos 1, pos 0]) 0 = .ok 7 ∧
    readOperand tight (tight.bind [pos 0, pos 1, pos 0]) 1 = .error ⟨.outOfBounds, 1⟩ ∧
    addW tight.params 9223372036854775807 1 = .error ⟨.arithmeticOverflow, 0⟩ ∧
    storeOperand tight (tight.bind [imm 3, imm 4, imm 0]) 2 7 = .error ⟨.incompatibleMode, 2⟩ ∧
    storeOperand tight (tight.bind [imm 3, imm 4, pos 0]) 2 7 = .ok ⟨[(0, 7)], 1, .strict⟩ ∧
    ¬ ipFits tight.params 1 (tight.ip + 1 + ([imm 3, imm 4, pos 0] : List Operand).length) :=
  ⟨by simp, by decide, by decide, by decide, by decide, by decide, by decide, by decide⟩

theorem witness_InStoresTheOldestInput :
    { start 3 [3, 2, 9] with inq := [5, 6] }.inq = 5 :: [6] ∧
    targetOperand (start 3 [3, 2, 9]).params ((start 3 [3, 2, 9]).bind [pos 2]) 0 = .ok 2 ∧
    (start 3 [3, 2, 9]).mem.write (start 3 [3, 2, 9]).params 2 5 = .ok ⟨[(0, 3), (1, 2), (2, 5)], 3, .extended⟩ ∧
    ipFits (start 3 [3, 2, 9]).params 3 ((start 3 [3, 2, 9]).ip + 1 + ([pos 2] : List Operand).length) ∧
    storeOperand { tight with inq := [5, 6] } ({ tight with inq := [5, 6] }.bind [pos 1]) 0 5 = .error ⟨.outOfBounds, 1⟩ := by decide

theorem witness_InYieldsOnAnEmptyChannel : tight.inq = [] := by decide

theorem witness_OutPushesItsOperand : (start 4 [4, 0]).params.outputYield = false ∧
    readOperand (start 4 [4, 0]) ((start 4 [4, 0]).bind [pos 0]) 0 = .ok 4 ∧
    ipFits (start 4 [4, 0]).params (start 4 [4, 0]).mem.len ((start 4 [4, 0]).ip + 1 + ([pos 0] : List Operand).length) ∧
    readOperand tight (tight.bind [pos 1]) 0 = .error ⟨.outOfBounds, 1⟩ ∧ tight.params.outputYield = false := by decide

/-- A machine that yields after each output. -/
def yielding (oyp : Bool) : State := { start 4 [4, 0] with params := { outputYield := true }, oyp := oyp }

theorem witness_OutYieldsOnceForEachValue : (yielding false).params.outputYield = true ∧
    (yielding true).params.outputYield = true ∧ (yielding false).oyp = false ∧ (yielding true).oyp = true ∧
    readOperand (yielding false) ((yielding false).bind [pos 0]) 0 = .ok 4 ∧
    readOperand (yielding false) ((yielding false).bind [pos (-1)]) 0 = .error ⟨.negativeAddress, -1⟩ ∧
    ipFits (yielding true).params (yielding true).mem.len ((yielding true).ip + 1 + ([pos 0] : List Operand).length) := by decide

/-- For JtJumpsWhenNonZero and JfJumpsWhenZero: a jump to the length itself, and a fall through to it. -/
theorem witness_JumpResults :
    readOperand (start 5 [0, 0, 0]) ((start 5 [0, 0, 0]).bind [imm (-7), imm 3]) 0 = .ok (-7) ∧
    readOperand (start 5 [0, 0, 0]) ((start 5 [0, 0, 0]).bind [imm (-7), imm 3]) 1 = .ok 3 ∧
    readOperand (start 5 [0, 0, 0]) ((start 5 [0, 0, 0]).bind [imm 0, imm 3]) 0 = .ok 0 ∧
    (-7 : Word) ≠ 0 ∧ (0 : Int) ≤ 3 ∧ ipFits (start 5 [0, 0, 0]).params (start 5 [0, 0, 0]).mem.len (3 : Int).toNat ∧
    ipFits (start 5 [0, 0, 0]).params (start 5 [0, 0, 0]).mem.len
      ((start 5 [0, 0, 0]).ip + 1 + ([imm 0, imm 3] : List Operand).length) := by decide

theorem witness_JumpsRaiseInOrder :
    ((Instr.jf = Instr.jt ∧ (fun c : Word => c = 0) = fun c => c ≠ 0) ∨
      (Instr.jf = Instr.jf ∧ (fun c : Word => c = 0) = fun c => c = 0)) ∧
    readOperand tight (tight.bind [pos 1, imm 0]) 0 = .error ⟨.outOfBounds, 1⟩ ∧
    readOperand tight (tight.bind [imm 0, pos (-1)]) 0 = .ok 0 ∧
    readOperand tight (tight.bind [imm 0, pos (-1)]) 1 = .error ⟨.negativeAddress, -1⟩ ∧
    (readOperand tight (tight.bind [imm 0, imm (-1)]) 1 = .ok (-1) ∧ (-1 : Int) < 0) ∧
    (readOperand tight (tight.bind [imm 0, imm 2]) 1 = .ok 2 ∧ (0 : Int) ≤ 2 ∧ ¬ ipFits tight.params tight.mem.len (2 : Int).toNat) ∧
    (readOperand tight (tight.bind [imm 7, imm 2]) 0 = .ok 7 ∧ ¬ (7 : Word) = 0 ∧
      ¬ ipFits tight.params tight.mem.len (tight.ip + 1 + 2)) :=
  ⟨.inr ⟨rfl, rfl⟩, by decide, by decide, by decide, by decide, by decide, by decide⟩

theorem witness_ArbMovesTheBase :
    (readOperand (start 9 [9, 1]) ((start 9 [9, 1]).bind [pos 1]) 0 = .ok 1 ∧
      addW (start 9 [9, 1]).params (start 9 [9, 1]).rb 1 = .ok 1 ∧
      ipFits (start 9 [9, 1]).params (start 9 [9, 1]).mem.len ((start 9 [9, 1]).ip + 1 + ([pos 1] : List Operand).length)) ∧
    addW tight.params { tight with rb := 9223372036854775807 }.rb 1 = .error ⟨.arithmeticOverflow, 0⟩ ∧
    readOperand tight (tight.bind [pos 1]) 0 = .error ⟨.outOfBounds, 1⟩ ∧
    (readOperand tight (tight.bind [imm 1]) 0 = .ok 1 ∧ addW tight.params tight.rb 1 = .ok 1 ∧
      ¬ ipFits tight.params tight.mem.len (tight.ip + 1 + ([imm 1] : List Operand).length)) := by decide

theorem witness_HltStopsAndStaysStopped : 10099 % 100 = 99 ∧
    ({ start 99 [99] with status := .halted }.status = .halted ∧
      fetchInstr { start 99 [99] with status := .halted } = .ok (.hlt [])) ∧ (start 99 [99]).inq = [] := by decide

theorem witness_ActionTreesRunInOrder : 1 ≤ tight.params.wordBits ∧ InWord tight.params.wordBits 9223372036854775807 ∧
    readOperand tight [⟨.position, 0, 0⟩] 0 = .ok 7 ∧
    readOperand tight [⟨.position, 0, 0⟩] 1 = .error ⟨.operandIndexOutOfRange, 1⟩ ∧
    storeOperand tight [⟨.position, 0, 0⟩] 0 9 = .ok ⟨[(0, 9)], 1, .strict⟩ ∧
    storeOperand tight [⟨.immediate, 0, 0⟩] 0 9 = .error ⟨.incompatibleMode, 0⟩ ∧ tight.inq = [] ∧
    { tight with inq := [5] }.inq = [5] := by decide

/-- A machine that lists one custom handler as CUSTOM(0). -/
def custom (code : HCode) : State := { start 42 [42, 0] with params := { custom := [code] } }

theorem witness_CustomRunsItsTree :
    runAction [] (customTree (custom (.ret .quit)).params 0) (custom (.ret .quit)) = .ok .quit (custom (.ret .quit)) ∧
    (runAction [] (customTree (custom (.ret .cont)).params 0) (custom (.ret .cont)) = .ok .cont (custom (.ret .cont)) ∧
      ipFits (custom (.ret .cont)).params (custom (.ret .cont)).mem.len ((custom (.ret .cont)).ip + 1 + 0)) ∧
    (runAction [] (customTree (custom (.ret (.jumpTo (.lit 2)))).params 0) (custom (.ret (.jumpTo (.lit 2)))) =
      .ok (.jumpTo 2) (custom (.ret (.jumpTo (.lit 2)))) ∧ (0 : Int) ≤ 2 ∧
      ipFits (custom (.ret (.jumpTo (.lit 2)))).params (custom (.ret (.jumpTo (.lit 2)))).mem.len (2 : Int).toNat) ∧
    (runAction [] (customTree (custom (.ret (.adjustRelativeBase (.lit 5)))).params 0)
      (custom (.ret (.adjustRelativeBase (.lit 5)))) = .ok (.adjustRelativeBase 5) (custom (.ret (.adjustRelativeBase (.lit 5)))) ∧
      addW {} 0 5 = .ok 5) ∧
    runAction [] (customTree (custom copyProgram).params 0) (custom copyProgram) =
      .error ⟨.operandIndexOutOfRange, 0⟩ (custom copyProgram) :=
  ⟨rfl, ⟨rfl, by decide⟩, ⟨rfl, by decide, by decide⟩, ⟨rfl, by decide⟩, rfl⟩

/-- The largest base, and a handler that adds 1 to it. -/
def topBase : State := { custom (.ret (.adjustRelativeBase (.lit 1))) with rb := 9223372036854775807 }

/-- The raises of a directive, for CustomRunsItsTree: the targets -1 and 3 on a memory of two cells, a base that overflows, and
three operands. -/
theorem witness_CustomDirectivesThatRaise :
    (runAction [] (customTree (custom (.ret (.jumpTo (.lit (-1))))).params 0) (custom (.ret (.jumpTo (.lit (-1))))) =
      .ok (.jumpTo (-1)) (custom (.ret (.jumpTo (.lit (-1))))) ∧ (-1 : Int) < 0) ∧
    (runAction [] (customTree (custom (.ret (.jumpTo (.lit 3)))).params 0) (custom (.ret (.jumpTo (.lit 3)))) =
      .ok (.jumpTo 3) (custom (.ret (.jumpTo (.lit 3)))) ∧ (0 : Int) ≤ 3 ∧
      ¬ ipFits (custom (.ret (.jumpTo (.lit 3)))).params (custom (.ret (.jumpTo (.lit 3)))).mem.len (3 : Int).toNat) ∧
    (runAction [] (customTree topBase.params 0) topBase = .ok (.adjustRelativeBase 1) topBase ∧
      addW topBase.params topBase.rb 1 = .error ⟨.arithmeticOverflow, 0⟩) ∧
    (¬ ipFits (custom (.ret .cont)).params (custom (.ret .cont)).mem.len ((custom (.ret .cont)).ip + 1 + 3) ∧
      runAction ((custom (.ret .cont)).bind [imm 1, imm 2, imm 3]) (customTree (custom (.ret .cont)).params 0)
        (custom (.ret .cont)) = .ok .cont (custom (.ret .cont)) ∧
      ∃ u, runAction (topBase.bind [imm 1, imm 2, imm 3]) (customTree topBase.params 0) { topBase with rb := 0 } =
        .ok (.adjustRelativeBase 1) u ∧ addW u.params u.rb 1 = .ok 1 ∧ ¬ ipFits u.params u.mem.len (u.ip + 1 + 3)) :=
  ⟨⟨rfl, by decide⟩, ⟨rfl, by decide, by decide⟩, ⟨rfl, by decide⟩, by decide, rfl, _, rfl, by decide, by decide⟩

theorem witness_CustomCopyCopies : 1 ≤ (custom copyProgram).params.wordBits ∧
    (custom copyProgram).params.custom[(0 : Fin 0x8000).val]? = some copyProgram ∧
    readOperand (custom copyProgram) ((custom copyProgram).bind [pos 0, pos 2]) 0 = .ok 42 ∧
    InWord (custom copyProgram).params.wordBits 42 ∧
    storeOperand (custom copyProgram) ((custom copyProgram).bind [pos 0, pos 2]) 1 42 =
      .ok ⟨[(0, 42), (2, 42)], 3, .extended⟩ ∧
    ipFits (custom copyProgram).params 3 ((custom copyProgram).ip + 1 + ([pos 0, pos 2] : List Operand).length) := by decide

theorem witness_ContinueAdvancesPastTheOperands :
    (arbHandler [] tight = .error ⟨.operandIndexOutOfRange, 0⟩ tight ∧
      inHandler [⟨.position, 0, 0⟩] { tight with inq := [5] } =
        .ok .cont { tight with mem := ⟨[(0, 5)], 1, .strict⟩, inq := [] } ∧ 0 + 1 + 0 < 2 ^ (tight.params.wordBits - 1) ∧ ipFits tight.params 1 (0 + 1 + 0)) ∧
    (Instr.add ∈ [Instr.add, Instr.mul, Instr.inp, Instr.out, Instr.lt, Instr.eq] ∧ (three 1).status = .running ∧
      ∃ t, exec (.add threeOps) (three 1) = .next t ∧ t.status = .running) :=
  ⟨⟨rfl, rfl, by decide, by decide⟩, by simp, by decide, _, rfl, by decide⟩

theorem witness_QuitKeepsTheInstructionPointer : haltHandler [] tight = .ok .quit tight ∧
    (tight.status = .running ∧ ∃ t, exec (.hlt []) tight = .next t ∧ t.status = .halted) :=
  ⟨rfl, by decide, _, rfl, by decide⟩

theorem witness_EndCheckComparesWithTheNewLength :
    (inHandler [⟨.position, 0, 0⟩] { tight with inq := [5] } =
        .ok .cont { tight with mem := ⟨[(0, 5)], 1, .strict⟩, inq := [] } ∧ ¬ ipFits tight.params 1 (0 + 1 + 1)) ∧
    (jumpHandler conditionHolds [⟨.immediate, 1, 0⟩, ⟨.immediate, -1, 0⟩] tight = .ok (.jumpTo (-1)) tight ∧ (-1 : Int) < 0) ∧
    (jumpHandler conditionHolds [⟨.immediate, 1, 0⟩, ⟨.immediate, 2, 0⟩] tight = .ok (.jumpTo 2) tight ∧ (0 : Int) ≤ 2 ∧
      ¬ ipFits tight.params tight.mem.len (2 : Int).toNat) ∧
    (arbHandler [⟨.immediate, 1, 0⟩] { tight with rb := 9223372036854775807 } =
        .ok (.adjustRelativeBase 1) { tight with rb := 9223372036854775807 } ∧
      addW tight.params 9223372036854775807 1 = .error ⟨.arithmeticOverflow, 0⟩) ∧
    (arbHandler [⟨.immediate, 1, 0⟩] tight = .ok (.adjustRelativeBase 1) tight ∧ addW tight.params tight.rb 1 = .ok 1) ∧
    7 < 2 ^ (({ wordBits := 4 } : Params).wordBits - 1) ∧
    ((three 1).status = .running ∧ ∃ t, exec (.add threeOps) (three 1) = .next t ∧ t.status = .running) :=
  ⟨⟨rfl, by decide⟩, ⟨rfl, by decide⟩, ⟨rfl, by decide, by decide⟩, ⟨rfl, by decide⟩, ⟨rfl, by decide⟩, by decide,
    by decide, _, rfl, by decide⟩

/-- A fault of the handler, and one of the end check. -/
theorem witness_FaultsArePrecise : InWord tight.params.wordBits (-9223372036854775808) ∧ tight.status = .running ∧
    (∃ t, exec (.out [pos 1]) tight = .next t ∧ t.status = .faulted ∧ t.fault.cause ≠ some .unexpectedEndOfProgram) ∧
    (∃ t, exec (.out [pos 0]) tight = .next t ∧ t.status = .faulted ∧ t.fault.cause = some .unexpectedEndOfProgram) :=
  ⟨by decide, by decide, ⟨_, rfl, by decide, by decide⟩, ⟨_, rfl, by decide, by decide⟩⟩

theorem witness_FaultIsTerminal : (enterFault 0 ⟨.unknownOpcode, 0⟩ tight).status = .faulted ∧
    (∃ t, register 1 3 1 (enterFault 0 ⟨.unknownOpcode, 0⟩ tight) = .ok t) ∧
    (∃ t, pushInput 5 (enterFault 0 ⟨.unknownOpcode, 0⟩ tight) = .ok t) ∧
    (∃ r t, popOutput (enterFault 0 ⟨.unknownOpcode, 0⟩ tight) = .ok (r, t)) :=
  ⟨rfl, ⟨_, rfl⟩, ⟨_, rfl⟩, ⟨_, _, rfl⟩⟩

theorem witness_StepKeepsTheInvariant : (three 1).Inv ∧ ∃ t, step (three 1) = .next t := ⟨by decide, _, rfl⟩

theorem witness_ConstructionMeetsTheInvariant : ({ wordBits := 2 } : Params).wf := by decide

/-- For ProgramsNeverChangeTheTable and LengthNeverShrinks: a step that stops, one that grows memory, one under STRICT. -/
theorem witness_StepsThatAnswer : (∃ t, step (start 3 [3, 9]) = .next t) ∧
    (∃ t, step { start 3 [3, 9] with inq := [5] } = .next t ∧ (start 3 [3, 9]).mem.len < t.mem.len) ∧
    (∃ t, step tight = .next t ∧ tight.mem.policy = .strict) :=
  ⟨⟨_, rfl⟩, ⟨_, rfl, by decide⟩, ⟨_, rfl, by decide⟩⟩

theorem witness_OnlyAdjustRelativeBaseMovesTheBase :
    (∃ t, exec (.arb [imm 1]) tight = .next t ∧ t.rb ≠ tight.rb) ∧
    (∃ t, exec (.custom 0 []) (custom (.ret (.adjustRelativeBase (.lit 5)))) = .next t ∧
      t.rb ≠ (custom (.ret (.adjustRelativeBase (.lit 5)))).rb) :=
  ⟨⟨_, rfl, by decide⟩, ⟨_, rfl, by decide⟩⟩

theorem witness_ThreeOperandFrame : Instr.add ∈ [Instr.add, Instr.mul, Instr.lt, Instr.eq] ∧ (three 1).mem.wf ∧
    (∃ t, exec (.add threeOps) (three 1) = .next t ∧ t.status ≠ .faulted) ∧
    targetOperand (three 1).params ((three 1).bind threeOps) 2 = .ok 5 ∧ (4 : Int) ≠ 5 ∧
    (∃ t, exec (.add [imm 3, imm 4, imm 0]) (three 1) = .next t) ∧
    targetOperand (three 1).params ((three 1).bind [imm 3, imm 4, imm 0]) 2 = .error ⟨.incompatibleMode, 2⟩ :=
  ⟨by simp, by decide, ⟨_, rfl, by decide⟩, by decide, by decide, ⟨_, rfl⟩, by decide⟩

theorem witness_InFrame : (start 3 [3, 2, 9]).mem.wf ∧
    (∃ t, exec (.inp [pos 2]) { start 3 [3, 2, 9] with inq := [5] } = .next t ∧ t.status ≠ .faulted) ∧
    targetOperand (start 3 [3, 2, 9]).params ((start 3 [3, 2, 9]).bind [pos 2]) 0 = .ok 2 ∧ (1 : Int) ≠ 2 ∧
    (∃ t, exec (.inp [imm 2]) { start 3 [3, 2, 9] with inq := [5] } = .next t) ∧
    targetOperand (start 3 [3, 2, 9]).params ((start 3 [3, 2, 9]).bind [imm 2]) 0 = .error ⟨.incompatibleMode, 0⟩ :=
  ⟨by decide, ⟨_, rfl, by decide⟩, by decide, by decide, ⟨_, rfl⟩, by decide⟩

theorem witness_NonStoringFrame : Instr.jf ∈ [Instr.jt, Instr.jf] ∧
    (∃ t, exec (.jf [imm 0, imm 1]) tight = .next t ∧ t.status ≠ .faulted) ∧ (∃ t, exec (.hlt []) tight = .next t) ∧
    (∃ t, exec (.arb [imm 1]) (three 9) = .next t ∧ t.status ≠ .faulted) ∧
    (∃ t, exec (.out [pos 0]) (start 4 [4, 0]) = .next t ∧ t.status ≠ .faulted) ∧
    (start 4 [4, 0]).params.outputYield = false :=
  ⟨by simp, ⟨_, rfl, by decide⟩, ⟨_, rfl⟩, ⟨_, rfl, by decide⟩, ⟨_, rfl, by decide⟩, by decide⟩

theorem witness_CustomFrame : (custom copyProgram).mem.wf ∧
    (∃ t, exec (.custom 0 [pos 0, pos 2]) (custom copyProgram) = .next t ∧ t.status ≠ .faulted) ∧
    (∀ j, targetOperand (custom copyProgram).params ((custom copyProgram).bind [pos 0, pos 2]) j ≠ .ok 1) := by
  refine ⟨by decide, ⟨_, rfl, by decide⟩, fun j => ?_⟩
  match j with
  | 0 => decide
  | 1 => decide
  | j + 2 => exact fun h => nomatch h

/-- The codes and the opcodes at the ends of the valid ranges. -/
theorem witness_RegisterReplacesOneEntry : State.reset.status ≠ .running ∧ 99 < 100 ∧ 99 < 100 ∧
    ((11 : Nat) = 0 ∨ (11 ≤ 11 ∧ 11 < 0x8000) ∨ 0x10000 ≤ 11) ∧
    ((0x7FFF : Nat) = 0 ∨ (11 ≤ 0x7FFF ∧ 0x7FFF < 0x8000) ∨ 0x10000 ≤ 0x7FFF) ∧ (3 : Fin 100).val ≠ 99 ∧
    ((10, HandlerKind.halt) ∈ [(1, HandlerKind.add), (2, HandlerKind.mul), (3, HandlerKind.inp), (4, HandlerKind.out),
        (5, HandlerKind.jt), (6, HandlerKind.jf), (7, HandlerKind.lt), (8, HandlerKind.eq), (9, HandlerKind.arb),
        (10, HandlerKind.halt)]) ∧
    ∃ k : Fin 0x8000, 0xFFFF = 0x8000 + k.val :=
  ⟨by decide, by decide, by decide, by decide, by decide, by decide, by decide, 0x7FFF, rfl⟩

/-- For ReferenceIsaInstallsTheTenHandlers. -/
theorem witness_RegisterReferenceIsa : State.reset.status ≠ .running := by decide

/-- Also for LoadTextOfTheSpellingIsLoadImage. -/
theorem witness_LoadImageResetsEverything : 1 ≤ ({} : Params).wordBits ∧
    (∀ w ∈ [1101, -9223372036854775808, 9223372036854775807], InWord ({} : Params).wordBits w) ∧
    ([1101, -9223372036854775808, 9223372036854775807] : List Int) ≠ [] := by decide

/-- V-TXT-5. -/
theorem witness_LoadTextReportsTheFirstBadToken : (splitAtCommas ['1', ',', 'x'])[1]? = some ['x'] ∧
    tokenWord {} ['x'] = none ∧
    (∀ i u, i < 1 → (splitAtCommas ['1', ',', 'x'])[i]? = some u → tokenWord {} u ≠ none) := by
  refine ⟨by decide, by decide, fun i u hi h => ?_⟩
  obtain rfl : i = 0 := by omega
  cases h
  decide

theorem witness_ReadRegFollowsTheMap : State.reset.status ≠ .running ∧ ((9 ≤ 9 ∧ 9 < 0x100) ∨ 0x164 ≤ 9) ∧
    ((9 ≤ 0xFF ∧ 0xFF < 0x100) ∨ 0x164 ≤ 0xFF) ∧ ((9 ≤ 0x164 ∧ 0x164 < 0x100) ∨ 0x164 ≤ 0x164) := by decide

/-- A step that goes on, one that stops and one that faults. -/
theorem witness_RunFollowsItsSteps : tight.status = .running ∧ State.reset.status = .halted ∧
    (enterFault 0 ⟨.unknownOpcode, 0⟩ tight).status = .faulted ∧
    (∃ t, step (start 5 [1105, 1, 0]) = .next t ∧ t.status = .running) ∧
    (∃ t, step (start 99 [99]) = .next t ∧ t.status = .halted) ∧ (∃ t, step tight = .next t ∧ t.status = .faulted) :=
  ⟨by decide, by decide, by decide, ⟨_, rfl, by decide⟩, ⟨_, rfl, by decide⟩, ⟨_, rfl, by decide⟩⟩

/-- A machine before a run whose only instruction is IN. -/
def reader : State := { start 3 [3, 0] with status := .halted }

/-- A machine before a run that yields after its first output; an OUT and a HLT. -/
def writer : State :=
  { State.constructed { outputYield := true } (memory [4, 0, 99] .extended) with
    lut := lutSet (only 4) 99 (tableEntry 99) }

/-- The resumed run ends at the HLT. -/
theorem witness_ResumedOutputRun : writer.status = .halted ∧ writer.params.outputYield = true ∧ writer.oyp = false ∧
    (∃ s1, run 1 writer = .ok (.returned .ok s1) ∧ s1.oyp = true ∧
      ∃ r t, run 2 s1 = .ok (.returned r t) ∧ t.oyp = false) :=
  ⟨by decide, by decide, by decide, _, rfl, by decide, _, _, rfl, by decide⟩

/-- The first clause; the second is `witness_ResumedOutputRun`. -/
theorem witness_ResumedRunEndsAsAnUninterruptedOne : referenceKindsOnly reader.lut ∧ reader.status = .halted ∧
    run 1 reader = .ok (.returned .ok reader) ∧ fetchInstr reader = .ok (.inp [pos 0]) ∧ reader.inq = [] ∧
    (∃ r t, run 2 (reader.withInput [99]) = .ok (.returned r t)) := by
  refine ⟨fun c r k h => ?_, by decide, rfl, by decide, by decide, _, _, rfl⟩
  by_cases hc : c.val = 3
  · obtain rfl : c = 3 := Fin.ext hc
    have : reader.lut[(3 : Fin 100)] = some ⟨1, .inp⟩ := by decide
    rw [this] at h
    cases h
    exact fun h => nomatch h
  · have : reader.lut[c] = none := by
      have := lutSet_other emptyLut (c := 3) c.2 (Ne.symm hc) ⟨1, .inp⟩
      refine Eq.trans this ?_
      simp [emptyLut]
    rw [this] at h
    cases h

/-- V-JMP-12. -/
theorem witness_SelfJumpNeverReturns :
    let s := { start 5 [1105, 1, 0] with status := .halted }
    s.status = .halted ∧ (1 : Word) ≠ 0 ∧ ipFits s.params s.mem.len s.ip ∧ fetchInstr s = .ok (.jt [imm 1, imm (s.ip : Int)]) := by decide

/-- Two machines between runs; the first has an output. -/
def pair : World := [some { State.reset with outq := [5, 6] }, some State.reset]

/-- Two machines, the second RUNNING. -/
def pairRunning : World := [some State.reset, some (start 5 [1105, 1, 0])]

theorem oneRuns_pairRunning : pairRunning.oneRuns := by
  intro g h s t hs ht hr hr'
  match g, h, hs, ht with
  | 0, _, hs, _ => cases hs; exact absurd hr (by decide)
  | 1, 0, _, ht => cases ht; exact absurd hr' (by decide)
  | 1, 1, _, _ => rfl
  | g + 2, _, hs, _ => cases hs
  | _, h + 2, _, ht => cases ht

theorem witness_MachinesShareNothing :
    (pair.inProgress = false ∧ pair.machine 1 = some State.reset ∧
      (∃ a t, applyCommand (.pushInput 5) State.reset = .ok (a, t)) ∧
      applyCommand (.register 100 0 1) State.reset = .error (.registration 100)) ∧
    (pairRunning.machine 1 = some (start 5 [1105, 1, 0]) ∧ (start 5 [1105, 1, 0]).status = .running) ∧
    (pairRunning.oneRuns ∧ (∃ t, step (start 5 [1105, 1, 0]) = .next t) ∧
      ∃ w', pairRunning.loadText {} ['9', '9'] .strict = .ok w') ∧
    (pair.oneRuns ∧ (∃ a w', pair.command 0 (.run 3) = .ok (a, w')) ∧ ∃ w', pair.drop 0 = .ok w') ∧
    ((1 : Nat) ≠ 0 ∧ pair.machine 0 = some { State.reset with outq := [5, 6] } ∧
      { State.reset with outq := [5, 6] }.outq = 5 :: [6] ∧ 1 ≤ State.reset.params.wordBits ∧
      InWord State.reset.params.wordBits 5) := by
  refine ⟨⟨by decide, rfl, ⟨_, _, rfl⟩, rfl⟩, ⟨rfl, by decide⟩, ⟨oneRuns_pairRunning, ⟨_, rfl⟩, _, rfl⟩, ⟨?_, ⟨_, _, rfl⟩, _, rfl⟩,
    by decide, rfl, rfl, by decide, by decide⟩
  intro g h s t hs ht hr hr'
  match g, hs with
  | 0, hs => cases hs; exact absurd hr (by decide)
  | 1, hs => cases hs; exact absurd hr (by decide)
  | g + 2, hs => cases hs

theorem witness_HostChannelsAreQueues : State.reset.status ≠ .running ∧ 1 ≤ State.reset.params.wordBits ∧
    InWord State.reset.params.wordBits 9223372036854775807 ∧ State.reset.outq = [] ∧
    { State.reset with outq := [5, 6] }.outq = 5 :: [6] ∧ tight.status = .running := by decide

end Sys2Proof.Machine.Tests
end

/-! Proofs of the memory family (20_memory.md): what `M[a]` and the length are after a write. -/

namespace Sys2Proof.Machine

/-- An unallocated cell counts as 0 (00_scope.md R10). -/
theorem Memory.cell_of_len_le {m : Memory} {a : Nat} (ha : m.len ≤ a) : m.cell a = 0 :=
  if_neg (Nat.not_lt.2 ha)

theorem Memory.cell_write_same {p : Params} {m m' : Memory} {a : Nat} {v : Word} (hw : m.wf)
    (h : m.write p a v = .ok m') : m'.cell a = v := by
  obtain ⟨-, -, hcells, -⟩ := Memory.write_eq_ok h
  rw [(Memory.write_wf hw h).cell_eq, hcells, Int.toNat_natCast, cellAt_setCell_same hw.1]

theorem Memory.cell_write_other {p : Params} {m m' : Memory} {a b : Nat} {v : Word} (hw : m.wf)
    (h : m.write p a v = .ok m') (hb : b ≠ a) : m'.cell b = m.cell b := by
  obtain ⟨-, -, hcells, -⟩ := Memory.write_eq_ok h
  rw [(Memory.write_wf hw h).cell_eq, hw.cell_eq, hcells, Int.toNat_natCast, cellAt_setCell_other hw.1 hb]

/-- A write at or beyond the length makes the written cell the last one (20_memory.md R54). -/
theorem Memory.write_len_of_len_le {p : Params} {m m' : Memory} {a : Nat} {v : Word}
    (h : m.write p a v = .ok m') (ha : m.len ≤ a) : m'.len = a + 1 := by
  obtain ⟨-, -, -, ⟨hlt, -⟩ | ⟨-, -, -, hlen⟩⟩ := Memory.write_eq_ok h
  · omega
  · simpa using hlen

/-- Settles O13: a write leaves every other cell alone, and the skipped cells were unallocated, so they hold 0. -/
theorem growthZeroFills : Obligations.GrowthZeroFills := by
  intro p m m' a v hw ha h
  refine ⟨fun j hj hja => ?_, Memory.cell_write_same hw h, Memory.write_len_of_len_le h ha⟩
  rw [Memory.cell_write_other hw h (Nat.ne_of_lt hja), Memory.cell_of_len_le hj]

end Sys2Proof.Machine

/-! Proofs of the encoding family (30_encoding.md): what building one operand answers (R83, R101). -/

namespace Sys2Proof

variable {cell : Nat → Except Trap Word} {q i : Nat}

/-- The raw cell is read before the mode digit is looked at (40_execution_loop.md R101). -/
theorem buildOperand_of_cell_error {t : Trap} (h : cell (1 + i) = .error t) :
    buildOperand cell q i = .error t := by
  simp only [buildOperand, h]

theorem buildOperand_of_mode {raw : Word} {mode : Mode} (h : cell (1 + i) = .ok raw)
    (hm : modeOfDigit (decimalDigit i q) = some mode) : buildOperand cell q i = .ok ⟨mode, raw⟩ := by
  simp only [buildOperand, h, hm]

theorem buildOperand_of_digit_gt {raw : Word} (h : cell (1 + i) = .ok raw) (hd : 2 < decimalDigit i q) :
    buildOperand cell q i = .error ⟨.invalidMode, 10 * i + decimalDigit i q⟩ := by
  simp only [buildOperand, h, modeOfDigit_of_gt hd]

end Sys2Proof

namespace Sys2Proof.Machine

/-- Settles O6: one rule for each answer of the operand builder; `decimalDigit i q` is the statement's digit. -/
theorem operandConstructionChecksItsMode : Obligations.OperandConstructionChecksItsMode := by
  intro cell q i raw trap
  refine ⟨fun h => ⟨fun hd => ?position, fun hd => ?immediate, fun hd => ?relative, fun hd => ?invalid⟩,
    buildOperand_of_cell_error⟩
  case position => exact buildOperand_of_mode h (congrArg modeOfDigit hd)
  case immediate => exact buildOperand_of_mode h (congrArg modeOfDigit hd)
  case relative => exact buildOperand_of_mode h (congrArg modeOfDigit hd)
  case invalid => exact buildOperand_of_digit_gt h hd

end Sys2Proof.Machine

/-! Proofs of the execution loop family (40_execution_loop.md): how a step comes to stop (R121), and the table after a
sequence of REGISTER commands (R111, R134). -/

namespace Sys2Proof

/-- The table after the registrations of a list, in order; `registerAll_eq_lutSetAll` ties it to the host's commands. -/
def lutSetAll (l : List (Nat × Registration)) (lut : Lut) : Lut := l.foldl (fun lut e => lutSet lut e.1 e.2) lut

variable {l : List (Nat × Registration)} {lut : Lut} {d : Nat}

theorem lutSetAll_cons (c : Nat) (r : Registration) :
    lutSetAll ((c, r) :: l) lut = lutSetAll l (lutSet lut c r) := rfl

theorem lutSetAll_of_notMem (hd : d < 100) (h : d ∉ l.map Prod.fst) : (lutSetAll l lut)[d] = lut[d] := by
  induction l generalizing lut with
  | nil => rfl
  | cons e rest ih =>
    obtain ⟨hne, hrest⟩ := not_or.1 (mt List.mem_cons.2 h)
    rw [lutSetAll_cons, ih hrest, lutSet_other lut hd (Ne.symm hne)]

/-- No later registration touches an opcode that is listed once. -/
theorem lutSetAll_of_mem {r : Registration} (hd : d < 100) (hn : (l.map Prod.fst).Nodup) (h : (d, r) ∈ l) :
    (lutSetAll l lut)[d] = some r := by
  induction l generalizing lut with
  | nil => cases h
  | cons e rest ih =>
    obtain ⟨hfresh, hn⟩ := List.nodup_cons.1 hn
    rcases List.mem_cons.1 h with rfl | h
    · rw [lutSetAll_cons, lutSetAll_of_notMem hd hfresh, lutSet_same lut hd]
    · rw [lutSetAll_cons, ih hn h]

theorem lutSetAll_referenceIsa {r : Registration} (hd : d < 100) (h : (d, r) ∈ referenceIsa) :
    (lutSetAll referenceIsa lut)[d] = some r := lutSetAll_of_mem hd (by decide) h

theorem notMem_referenceIsa : ∀ c : Fin 100, c.val = 0 ∨ (10 ≤ c.val ∧ c.val ≤ 98) →
    c.val ∉ referenceIsa.map Prod.fst := by decide

end Sys2Proof

namespace Sys2Proof.Machine

/-- The codes from 0x8000 on are the custom kinds' (10_state.md R37). -/
theorem kindOfCode_of_le {n : Nat} (h : 0x8000 ≤ n ∧ n - 0x8000 < 0x8000) :
    kindOfCode n = some (.custom ⟨n - 0x8000, h.2⟩) := by
  unfold kindOfCode
  split
  case h_11 => exact dif_pos h
  all_goals omega

theorem kindOfCode_code (k : HandlerKind) : kindOfCode k.code = some k := by
  cases k with
  | custom k =>
    have hk : 0x8000 ≤ 0x8000 + k.val ∧ 0x8000 + k.val - 0x8000 < 0x8000 := by omega
    simp [HandlerKind.code, kindOfCode_of_le hk]
  | _ => rfl

theorem register_kind_code {s : State} (hs : s.status ≠ .running) {c : Nat} (hc : c < 100) (r : Registration) :
    register c r.arity r.kind.code s = .ok { s with lut := lutSet s.lut c r } := by
  simp only [register, betweenRuns, if_neg hs, if_neg (Nat.not_lt.2 (Nat.le_of_lt_succ hc)), kindOfCode_code]

theorem registerAll_eq_lutSetAll {l : List (Nat × Registration)} {s : State} (hs : s.status ≠ .running)
    (hl : ∀ e ∈ l, e.1 < 100) : registerAll l s = .ok { s with lut := lutSetAll l s.lut } := by
  induction l generalizing s with
  | nil => rfl
  | cons e rest ih =>
    obtain ⟨hc, hrest⟩ := List.forall_mem_cons.1 hl
    simp only [registerAll, register_kind_code hs hc]
    exact ih hs hrest

/-- Only `Quit` ends a running machine's instruction HALTED, so the state is the handler's but for the status. -/
theorem exec_eq_halted {i : Instr} {s t : State} (hs : s.status = .running) (h : exec i s = .next t)
    (ht : t.status = .halted) :
    ∃ u, handlerOf s.params i (bindOps s.rb i.operands) s = .ok .quit u ∧ Keep s u ∧
      t = { u with status := .halted } := by
  rcases exec_inv h with ⟨trap, u, -, -, -, rfl⟩ | ⟨d, u, hq, hk, hd⟩
  · cases ht
  · cases hd with
    | stopped hd => exact ⟨u, hd ▸ hq, hk, rfl⟩
    | raised => cases ht
    | moved =>
      obtain ⟨⟨-, -, -, -, hstatus, -⟩, -⟩ := hk
      cases ht.symm.trans (hstatus.trans hs)
    | ranPast => cases ht

/-- Settles O37: applying `Quit` changes the status alone, and a handler leaves `ip` and `rb`. -/
theorem quitKeepsTheInstructionPointer : Obligations.QuitKeepsTheInstructionPointer := by
  refine ⟨fun ip0 n h s u hq => completeStep_of_ok hq, fun i s t hs h ht => ?_⟩
  obtain ⟨u, -, ⟨⟨-, hip, hrb, -⟩, -⟩, rfl⟩ := exec_eq_halted hs h ht
  exact ⟨hip, hrb⟩

/-- Settles O51: the ten opcodes are distinct and below 100, so each entry is the one registered. -/
theorem referenceIsaInstallsTheTenHandlers : Obligations.ReferenceIsaInstallsTheTenHandlers := by
  intro s hs
  have entry {d : Nat} {r : Registration} (hd : d < 100) (h : (d, r) ∈ referenceIsa) :=
    lutSetAll_referenceIsa (lut := s.lut) hd h
  refine ⟨_, registerAll_eq_lutSetAll hs (by decide), rfl, entry _ (by decide), entry _ (by decide),
    entry _ (by decide), entry _ (by decide), entry _ (by decide), entry _ (by decide), entry _ (by decide),
    entry _ (by decide), entry _ (by decide), entry _ (by decide),
    fun c hc => lutSetAll_of_notMem c.isLt (notMem_referenceIsa c hc)⟩

end Sys2Proof.Machine

/-! Proofs of the exceptions family (60_exceptions.md): what each stage of the fetch raises (R202-R204, R206), and that
an access at or beyond the length raises under STRICT only (R206). -/

namespace Sys2Proof

variable {lut : Lut} {cell : Nat → Except Trap Word} {w q i : Nat} {t : Trap}

/-- Step 1 of the fetch (40_execution_loop.md R113). -/
theorem decodeFrom_of_cell_error (h : cell 0 = .error t) : decodeFrom lut cell = .error t := by
  simp only [decodeFrom, h]

/-- Step 2 of the fetch (40_execution_loop.md R114): the table is not consulted. -/
theorem decodeFrom_of_neg {w : Word} (h : cell 0 = .ok w) (hw : w < 0) :
    decodeFrom lut cell = .error ⟨.invalidOpcode, w⟩ := by
  simp only [decodeFrom, h, if_pos hw]

/-- Step 3 of the fetch (40_execution_loop.md R115). -/
theorem decodeFrom_of_absent (h : cell 0 = .ok (w : Int)) (he : lutEntry lut w = none) :
    decodeFrom lut cell = .error ⟨.unknownOpcode, (w % 100 : Nat)⟩ := by
  simp only [decodeFrom, h, if_neg (Int.natCast_nonneg w).not_gt, Int.toNat_natCast, he]

/-- Step 4 of the fetch (40_execution_loop.md R116). -/
theorem decodeFrom_of_buildOperands_error {r : Registration} (h : cell 0 = .ok (w : Int))
    (he : lutEntry lut w = some r) (hb : buildOperands cell (w / 100) 0 r.arity = .error t) :
    decodeFrom lut cell = .error t := by
  simp only [decodeFrom, h, if_neg (Int.natCast_nonneg w).not_gt, Int.toNat_natCast, he, hb]

/-- Everything the decoder can raise, by the step of the fetch that raises it. -/
theorem decodeFrom_eq_error (h : decodeFrom lut cell = .error t) :
    cell 0 = .error t ∨ t.cause = .invalidOpcode ∨ t.cause = .unknownOpcode ∨
      ∃ (w : Nat) (r : Registration), cell 0 = .ok (w : Int) ∧ lutEntry lut w = some r ∧
        buildOperands cell (w / 100) 0 r.arity = .error t := by
  unfold decodeFrom at h
  split at h
  · rename_i hc
    cases h
    exact .inl hc
  · rename_i w hc
    refine .inr ?_
    split at h
    · cases h
      exact .inl rfl
    · rename_i hw
      obtain ⟨w, rfl⟩ := Int.eq_ofNat_of_zero_le (Int.not_lt.1 hw)
      refine .inr ?_
      split at h
      · cases h
        exact .inl rfl
      · rename_i r he
        split at h
        · rename_i hb
          cases h
          exact .inr ⟨w, r, hc, he, hb⟩
        · cases h

theorem buildOperand_of_digit_le {raw : Word} (h : cell (1 + i) = .ok raw) (hd : decimalDigit i q ≤ 2) :
    ∃ o, buildOperand cell q i = .ok o := by
  obtain ⟨mode, hm⟩ := modeOfDigit_of_le hd
  exact ⟨_, buildOperand_of_mode h hm⟩

/-- An operand's construction fails with its raw read or with its mode digit. -/
theorem buildOperand_eq_error (h : buildOperand cell q i = .error t) :
    cell (1 + i) = .error t ∨ 2 < decimalDigit i q := by
  cases hc : cell (1 + i) with
  | error e =>
    cases (buildOperand_of_cell_error hc).symm.trans h
    exact .inl rfl
  | ok raw =>
    refine .inr (Nat.lt_of_not_le fun hd => ?_)
    obtain ⟨o, ho⟩ := buildOperand_of_digit_le hc hd
    cases ho.symm.trans h

/-- The first mode digit above 2 below the arity decides the fault, when the raw cells up to it can be read. -/
theorem buildOperands_of_digit_gt {n : Nat} (hi : i < n) (hc : ∀ j, j ≤ i → ∃ v, cell (1 + j) = .ok v)
    (hlt : ∀ j, j < i → decimalDigit j q ≤ 2) (hd : 2 < decimalDigit i q) :
    buildOperands cell q 0 n = .error ⟨.invalidMode, 10 * i + decimalDigit i q⟩ := by
  refine buildOperands_of_error (j := i) (fun j hj => ?_) hi ?_
  · obtain ⟨v, hv⟩ := hc j (Nat.le_of_lt hj)
    rw [Nat.zero_add]
    exact buildOperand_of_digit_le hv (hlt j hj)
  · obtain ⟨v, hv⟩ := hc i (Nat.le_refl i)
    rw [Nat.zero_add]
    exact buildOperand_of_digit_gt hv hd

/-- The reference registration leaves an opcode's entry invalid exactly if it does not list the opcode. -/
theorem referenceLut_eq_none_iff {c : Nat} (hc : c < 100) :
    referenceLut[c] = none ↔ c ∉ referenceIsa.map Prod.fst := by
  refine ⟨fun h hmem => ?_, fun h => ?_⟩
  · obtain ⟨⟨_, r⟩, hr, rfl⟩ := List.mem_map.1 hmem
    cases h.symm.trans (lutSetAll_referenceIsa (lut := emptyLut) hc hr)
  · exact (lutSetAll_of_notMem (lut := emptyLut) hc h).trans (Vector.getElem_replicate hc)

theorem notMem_referenceIsa_iff : ∀ c : Fin 100,
    c.val ∉ referenceIsa.map Prod.fst ↔ c.val = 0 ∨ (10 ≤ c.val ∧ c.val ≤ 98) := by decide

end Sys2Proof

namespace Sys2Proof.Machine

theorem step_of_fetch_error {s : State} {t : Trap} (hs : s.status = .running) (h : fetchInstr s = .error t) :
    step s = .next (enterFault s.ip t s) := by
  simp only [step, hs, h]

theorem Memory.read_error_cause_ne_invalidMode {m : Memory} {a : Int} {t : Trap} (h : m.read a = .error t) :
    t.cause ≠ .invalidMode := by
  rcases Memory.read_error h with ⟨-, rfl⟩ | ⟨-, -, rfl⟩ <;> exact nofun

theorem Memory.read_of_strict {m : Memory} {a : Int} (hp : m.policy = .strict) (ha : (m.len : Int) ≤ a) :
    m.read a = .error ⟨.outOfBounds, a⟩ := by
  have hneg : ¬ a < 0 := by omega
  simp only [Memory.read, if_neg hneg, if_neg ha.not_gt, hp]

theorem Memory.write_of_strict {p : Params} {m : Memory} {a : Int} {v : Word} (hp : m.policy = .strict)
    (ha : (m.len : Int) ≤ a) : m.write p a v = .error ⟨.outOfBounds, a⟩ := by
  have hneg : ¬ a < 0 := by omega
  simp only [Memory.write, if_neg hneg, if_neg ha.not_gt, hp]

theorem Memory.strict_of_read_outOfBounds {m : Memory} {a info : Int}
    (h : m.read a = .error ⟨.outOfBounds, info⟩) : m.policy = .strict := by
  rcases Memory.read_error h with ⟨-, ht⟩ | ⟨-, hp, -⟩
  · cases ht
  · exact hp

theorem Memory.strict_of_write_outOfBounds {p : Params} {m : Memory} {a info : Int} {v : Word}
    (h : m.write p a v = .error ⟨.outOfBounds, info⟩) : m.policy = .strict := by
  rcases Memory.write_error h with ⟨-, ht⟩ | ⟨-, hp, -⟩ | ⟨-, -, -, ht⟩
  · cases ht
  · exact hp
  · cases ht

/-- An operand that can be written through reads the cell that it would write (40_execution_loop.md R102, R103). -/
theorem readOperand_of_target {s : State} {ops : List Op} {i : Nat} {a : Int}
    (h : targetOperand s.params ops i = .ok a) : readOperand s ops i = s.mem.read a := by
  unfold targetOperand at h
  unfold readOperand
  cases ho : ops[i]? with
  | none => simp [ho] at h
  | some o =>
    cases hm : o.mode with
    | immediate => simp [ho, hm] at h
    | position =>
      simp only [ho, hm, Except.ok.injEq] at h ⊢
      rw [h]
    | relative =>
      simp only [ho, hm] at h ⊢
      simp only [h]

theorem storeOperand_eq_write {s : State} {ops : List Op} {i : Nat} {a : Int} (v : Word)
    (h : targetOperand s.params ops i = .ok a) : storeOperand s ops i v = s.mem.write s.params a v := by
  simp only [storeOperand, h]

/-- Settles O9: the operands below `i` are built and operand `i` fails on its digit; conversely no other stage of the
fetch, and no read, raises the cause. -/
theorem invalidModeComesFromAnOperandBelowTheArity : Obligations.InvalidModeComesFromAnOperandBelowTheArity := by
  intro s
  refine ⟨fun w r i hs hw he hi hc hlt hd => ?raised, fun info h => ?only, rfl⟩
  case raised =>
    exact step_of_fetch_error hs
      (decodeFrom_of_buildOperands_error hw he (buildOperands_of_digit_gt hi hc hlt hd))
  case only =>
    rcases decodeFrom_eq_error h with hread | hcause | hcause | ⟨w, r, hw, he, hb⟩
    · exact absurd rfl (Memory.read_error_cause_ne_invalidMode hread)
    · cases hcause
    · cases hcause
    · obtain ⟨i, hi, hop⟩ := buildOperands_error hb
      rw [Nat.zero_add] at hop
      rcases buildOperand_eq_error hop with hread | hd
      · exact absurd rfl (Memory.read_error_cause_ne_invalidMode hread)
      · exact ⟨w, r, i, hw, he, hi, hd⟩

/-- Settles O14: the fetch, the raw reads and the operand accesses each are one `MemRead` or `MemWrite`. -/
theorem outOfBoundsOnlyUnderStrict : Obligations.OutOfBoundsOnlyUnderStrict := by
  intro p m a v
  refine ⟨fun hp ha => ⟨Memory.read_of_strict hp ha, Memory.write_of_strict hp ha⟩,
    fun hp info => ⟨?_, ?_⟩, ?_, rfl⟩
  · exact fun h => nomatch hp.symm.trans (Memory.strict_of_read_outOfBounds h)
  · exact fun h => nomatch hp.symm.trans (Memory.strict_of_write_outOfBounds h)
  · rintro s rfl hp
    refine ⟨fun hs hip => ?fetch, fun q i hi => ?rawRead, fun ops i ht ha => ⟨?read, ?write⟩⟩
    case fetch =>
      exact step_of_fetch_error hs (decodeFrom_of_cell_error (Memory.read_of_strict hp (Int.ofNat_le.2 hip)))
    case rawRead => exact buildOperand_of_cell_error (Memory.read_of_strict hp (Int.ofNat_le.2 hi))
    case read => exact (readOperand_of_target ht).trans (Memory.read_of_strict hp ha)
    case write => exact (storeOperand_eq_write v ht).trans (Memory.write_of_strict hp ha)

/-- Settles O7: the sign is checked before the table is consulted. -/
theorem negativeWordIsInvalidOpcode : Obligations.NegativeWordIsInvalidOpcode := by
  intro s w hs hw hneg
  exact ⟨step_of_fetch_error hs (decodeFrom_of_neg hw hneg), rfl⟩

/-- Settles O8: the lookup fails, and the reference registration lists every opcode but 0 and 10..98. -/
theorem absentEntryIsUnknownOpcode : Obligations.AbsentEntryIsUnknownOpcode :=
  ⟨fun _ _ hs hw he => step_of_fetch_error hs (decodeFrom_of_absent hw he), rfl,
    fun c => (referenceLut_eq_none_iff c.isLt).trans (notMem_referenceIsa_iff c)⟩

end Sys2Proof.Machine

/-! Proofs about the decoder on encoded cells (30_encoding.md R80-R90) and the step that fetches them
(40_execution_loop.md R112-R117). -/

namespace Sys2Proof

variable {lut : Lut} {cell : Nat → Except Trap Word} {i : Instr} {r : Registration}

theorem decodeFrom_of_buildOperands {w : Nat} {ops : List Operand} (h : cell 0 = .ok (w : Int))
    (he : lutEntry lut w = some r) (hb : buildOperands cell (w / 100) 0 r.arity = .ok ops) :
    decodeFrom lut cell = .ok (Instr.ofKind r.kind ops) := by
  simp only [decodeFrom, h, if_neg (Int.natCast_nonneg w).not_gt, Int.toNat_natCast, he, hb]

/-- Cells that read as an encoded instruction decode to it, whatever the other cells hold. -/
theorem decodeFrom_encodeAt {c : Nat} (hc : c < 100) (hr : lut[c] = some r) (hk : r.kind = i.kind)
    (ha : r.arity.val = i.operands.length)
    (hcell : ∀ (j : Nat) (v : Word), (encodeAt c i)[j]? = some v → cell j = .ok v) :
    decodeFrom lut cell = .ok i := by
  have hw : cell 0 = .ok (canonicalWord c i.operands : Int) := hcell 0 _ rfl
  have he : lutEntry lut (canonicalWord c i.operands) = some r :=
    (lutEntry_of_mod lut hc (canonicalWord_mod hc _)).trans hr
  have hb : buildOperands cell (canonicalWord c i.operands / 100) 0 r.arity = .ok i.operands := by
    rw [canonicalWord_div hc, ha]
    refine buildOperands_of_list _ 0 (fun j o ho => ?raw) (fun j o ho => ?digit)
    case raw => exact hcell _ _ (by simp [encodeAt, Nat.add_comm 1, ho])
    case digit => rw [Nat.zero_add, decimalDigit_modeNumber _ _ _ ho]
  rw [decodeFrom_of_buildOperands hw he hb, hk, ofKind_of_instr]

theorem decode_encodeAt_append {c : Nat} (hc : c < 100) (hr : lut[c] = some r) (hk : r.kind = i.kind)
    (ha : r.arity.val = i.operands.length) (rest : List Word) : decode lut (encodeAt c i ++ rest) = .ok i := by
  refine decodeFrom_encodeAt hc hr hk ha fun j v hv => ?_
  obtain ⟨hj, -⟩ := List.getElem?_eq_some_iff.1 hv
  rw [List.getD_eq_getElem?_getD, List.getElem?_append_left hj, hv]
  rfl

/-- Every cell of a well-formed instruction's encoding is a word (30_encoding.md R85, R90). -/
theorem inWord_of_mem_encodeAt {p : Params} {c : Nat} (hwf : i.wf p c = true) {v : Word} (hv : v ∈ encodeAt c i) :
    InWord p.wordBits v := by
  simp only [Instr.wf, rawsOk, wordOk, Bool.and_eq_true, List.all_eq_true, decide_eq_true_eq] at hwf
  obtain ⟨⟨-, hraws⟩, hword⟩ := hwf
  rcases List.mem_cons.1 hv with rfl | hv
  · unfold canonicalWord InWord
    omega
  · obtain ⟨o, ho, rfl⟩ := List.mem_map.1 hv
    exact hraws o ho

/-- The encoder finds an opcode whenever the table has one for the instruction, and its cells decode back. -/
theorem encode_decodes {c : Nat} (hc : c < 100) (hr : lut[c] = some r) (hk : r.kind = i.kind)
    (ha : r.arity.val = i.operands.length) :
    ∃ cells, encode lut i = some cells ∧ ∀ rest, decode lut (cells ++ rest) = .ok i := by
  have hne : opcodesFor i 0 lut.toList ≠ [] :=
    opcodesFor_ne_nil (j := c) (r := r) (by simp [hc, hr]) ⟨hk, ha⟩
  unfold encode
  cases hop : opcodesFor i 0 lut.toList with
  | nil => exact absurd hop hne
  | cons c' more =>
    obtain ⟨j, r', rfl, hj, hk', ha'⟩ := mem_opcodesFor (hop ▸ List.mem_cons_self : c' ∈ opcodesFor i 0 lut.toList)
    obtain ⟨hlt, hget⟩ := List.getElem?_eq_some_iff.1 hj
    rw [Nat.zero_add]
    exact ⟨_, rfl, decode_encodeAt_append (by simpa using hlt) (by simpa using hget) hk' ha'⟩

/-- Settles O3: a canonical word carries its opcode in its two low digits and the modes above them. -/
theorem encodedInstructionDecodesToItself : Obligations.EncodedInstructionDecodesToItself := by
  intro p lut c i r hwf hr hk ha
  exact ⟨fun _ => inWord_of_mem_encodeAt hwf, decode_encodeAt_append c.isLt hr hk ha, encode_decodes c.isLt hr hk ha⟩

end Sys2Proof

/-! Proofs of the machine's invariant (10_state.md R22, R28; 40_execution_loop.md R118-R122): a handler keeps it, every
end of a directive keeps it, and so does taking a fault. -/

namespace Sys2Proof.Machine

variable {s u t : State} {bits : Nat}

theorem inv_iff_sound : s.Inv ↔ Sound s.params.wordBits s ∧ s.ipOk ∧ s.faultOk :=
  ⟨fun ⟨hp, hm, hw, hi, hf, hl⟩ => ⟨⟨rfl, hp, hm, hw, hl⟩, hi, hf⟩,
    fun ⟨⟨_, hp, hm, hw, hl⟩, hi, hf⟩ => ⟨hp, hm, hw, hi, hf, hl⟩⟩

/-- Taking a fault needs nothing of where `ip` stands but that it is a value of its register. -/
theorem inv_enterFault {ip0 : Nat} {trap : Trap} (hs : Sound bits s) (hip : s.ip < ipRange s.params)
    (h0 : ip0 < ipRange s.params) : (enterFault ip0 trap s).Inv := by
  obtain ⟨-, hp, hm, hw, hl⟩ := hs
  exact ⟨hp, hm, hw, ⟨hip, fun h => absurd rfl h⟩,
    ⟨fun h => absurd rfl h, fun _ => nofun, h0, heldInfo_inWord _ _⟩, hl⟩

theorem Sound.setRb {r : Word} (hs : Sound bits s) (hr : InWord bits r) : Sound bits { s with rb := r } := by
  obtain ⟨rfl, hp, hm, ⟨hc, -, hio⟩, hl⟩ := hs
  exact ⟨rfl, hp, hm, ⟨hc, hr, hio⟩, hl⟩

/-- The base after a directive is the old one or a result of `add_W`. -/
theorem rbAfter_inWord {d : Directive} {r : Word} (hs : Sound bits s) (h : RbAfter d s r) : InWord bits r := by
  obtain ⟨rfl, -, -, ⟨-, hrb, -⟩, -⟩ := hs
  rcases h with rfl | ⟨x, -, h⟩
  · exact hrb
  · exact addW_inWord h

/-- A handler's effects leave `ip`, status and record alone, and the length does not shrink. -/
theorem Keep.inv (hk : Keep s u) (hs : s.Inv) (hu : Sound bits u) : u.Inv := by
  obtain ⟨⟨hp, hip, -, -, hst, hf, -⟩, hlen, -⟩ := hk
  obtain ⟨-, ⟨hi, hil⟩, hfault⟩ := inv_iff_sound.1 hs
  have hsu : Sound u.params.wordBits u := hu.1 ▸ hu
  refine inv_iff_sound.2 ⟨hsu, ⟨by rw [hip, hp]; exact hi, fun h => ?_⟩, by simpa only [State.faultOk, hp, hst, hf]⟩
  rw [hip]
  exact (hil (hst ▸ h)).trans hlen

/-- Every end of a directive keeps the invariant on a machine that is not FAULTED. -/
theorem DirectiveEnd.inv {ip0 : Nat} {d : Directive} (h : DirectiveEnd ip0 d u t) (hu : u.Inv)
    (h0 : ip0 < ipRange u.params) (hst : u.status ≠ .faulted) : t.Inv := by
  obtain ⟨hs, ⟨hip, hlen⟩, hclear, -, hfip, hinfo⟩ := inv_iff_sound.1 hu
  cases h with
  | stopped => exact inv_iff_sound.2 ⟨hs, ⟨hip, fun _ => hlen hst⟩, fun _ => hclear hst, nofun, hfip, hinfo⟩
  | raised => exact inv_enterFault hs hip h0
  | moved r a hr ha =>
    exact inv_iff_sound.2 ⟨hs.setRb (rbAfter_inWord hs hr), ⟨ha.2, fun _ => ha.1⟩, hclear, fun h => absurd h hst,
      hfip, hinfo⟩
  | ranPast r a hr ha =>
    exact inv_enterFault (s := { u with rb := r, ip := heldIp u.params a }) (hs.setRb (rbAfter_inWord hs hr))
      (heldIp_lt _ _) h0

/-- The raw values of a fetched instruction are words of the memory. -/
theorem opsOk_of_fetch {i : Instr} (hs : Sound bits s) (h : fetchInstr s = .ok i) :
    OpsOk bits (bindOps s.rb i.operands) := by
  obtain ⟨w, r, ops, -, -, -, hb, rfl⟩ := decodeFrom_eq_ok h
  rw [ofKind_operands]
  intro op hop
  obtain ⟨o, ho, rfl⟩ := List.mem_map.1 hop
  obtain ⟨j, hj⟩ := raw_of_buildOperands hb o ho
  exact Memory.read_inWord (hs.1 ▸ hs.2.2.2.1.1) hj

theorem exec_keeps_inv {i : Instr} (hs : s.Inv) (hst : s.status ≠ .faulted)
    (ho : OpsOk s.params.wordBits (bindOps s.rb i.operands)) (h : exec i s = .next t) : t.Inv := by
  obtain ⟨hsound, ⟨hip, -⟩, -⟩ := inv_iff_sound.1 hs
  obtain ⟨hok, herr⟩ := sound_handlerOf s.params i ho s hsound
  rcases exec_inv h with ⟨trap, u, hh, ⟨⟨hp, hiu, -⟩, -⟩, -, rfl⟩ | ⟨d, u, hh, hk, hd⟩
  · exact inv_enterFault (herr _ _ hh) (by rw [hiu, hp]; exact hip) (by rw [hp]; exact hip)
  · obtain ⟨⟨hp, -, -, -, hsu, -⟩, -⟩ := id hk
    exact hd.inv (hk.inv hs (hok _ _ hh).1) (by rw [hp]; exact hip) (by rwa [hsu])

/-- Settles O41: a step is nothing, a fetch's fault, or one instruction on operands read from memory. -/
theorem stepKeepsTheInvariant : Obligations.StepKeepsTheInvariant := by
  intro s t hs h
  rcases step_cases s with ⟨-, he⟩ | ⟨hr, i, hf, he⟩ | ⟨-, trap, -, he⟩
  · cases h.symm.trans he
    exact hs
  · obtain ⟨hsound, -⟩ := inv_iff_sound.1 hs
    exact exec_keeps_inv hs (by simp [hr]) (opsOk_of_fetch hsound hf) (he.symm.trans h)
  · cases h.symm.trans he
    obtain ⟨hsound, ⟨hip, -⟩, -⟩ := inv_iff_sound.1 hs
    exact inv_enterFault hsound hip hip

/-- Settles O42: the image's words are wrapped into range, and every other element starts at 0 or empty. -/
theorem constructionMeetsTheInvariant : Obligations.ConstructionMeetsTheInvariant := by
  have constructed_inv (p : Params) (image : List Int) (policy : MemPolicy) (hp : p.wf) :
      (loadImage p image policy).Inv := by
    refine ⟨hp, ?mem, ⟨fun c hc => ?word, zero_inWord _, nofun, nofun⟩, ⟨halfRange_pos _, fun _ => Nat.zero_le _⟩,
      ⟨fun _ => rfl, nofun, halfRange_pos _, zero_inWord _⟩, nofun⟩
    case mem => simpa [loadImage] using imageMemory_wf (image.map (wrapWord p.wordBits)) policy
    case word =>
      obtain ⟨-, -, -, hmem⟩ := imageCells_addr hc
      obtain ⟨x, -, hx⟩ := List.mem_map.1 hmem
      exact hx ▸ wrapWord_inWord _ _
  exact ⟨constructed_inv {} [] .extended (by decide), constructed_inv⟩

end Sys2Proof.Machine

/-! Proofs about the step's fetch (30_encoding.md R84, 40_execution_loop.md R112-R117, 60_exceptions.md R215). -/

namespace Sys2Proof

variable {lut : Lut} {cell cell' : Nat → Except Trap Word} {w w' : Nat}

/-- The digits of a number below place `n` do not see what is added at place `n` and above. -/
theorem decimalDigit_add_pow_mul {j n : Nat} (h : j < n) (q x : Nat) :
    decimalDigit j (q + 10 ^ n * x) = decimalDigit j q := by
  obtain ⟨k, rfl⟩ := Nat.exists_eq_add_of_lt h
  have hsplit : q + 10 ^ (j + k + 1) * x = q + 10 ^ j * (10 * (10 ^ k * x)) := by ring
  rw [decimalDigit, hsplit, Nat.add_mul_div_left _ _ (by positivity), Nat.add_mul_mod_self_left, decimalDigit]

/-- The decoder looks at a word's opcode, at its mode digits below the arity, and at the raw cells. -/
theorem decodeFrom_congr {r : Registration} (hw : cell 0 = .ok (w : Int)) (hw' : cell' 0 = .ok (w' : Int))
    (he : lutEntry lut w = some r) (he' : lutEntry lut w' = some r) (hc : ∀ j, cell (1 + j) = cell' (1 + j))
    (hq : ∀ j, j < r.arity.val → decimalDigit j (w / 100) = decimalDigit j (w' / 100)) :
    decodeFrom lut cell = decodeFrom lut cell' := by
  have hb : buildOperands cell (w / 100) 0 r.arity = buildOperands cell' (w' / 100) 0 r.arity :=
    buildOperands_congr (fun j _ _ => hc j) fun j _ hj => hq j (by omega)
  cases hops : buildOperands cell' (w' / 100) 0 r.arity with
  | error t =>
    rw [decodeFrom_of_buildOperands_error hw he (hb.trans hops), decodeFrom_of_buildOperands_error hw' he' hops]
  | ok ops => rw [decodeFrom_of_buildOperands hw he (hb.trans hops), decodeFrom_of_buildOperands hw' he' hops]

/-- The first raw cell below the arity that cannot be read decides the fault, when the operands before it are built. -/
theorem buildOperands_of_cell_error {q i n : Nat} {t : Trap} (hi : i < n)
    (hlt : ∀ j, j < i → (∃ v, cell (1 + j) = .ok v) ∧ decimalDigit j q ≤ 2) (he : cell (1 + i) = .error t) :
    buildOperands cell q 0 n = .error t := by
  refine buildOperands_of_error (j := i) (fun j hj => ?_) hi ?_
  · obtain ⟨⟨v, hv⟩, hd⟩ := hlt j hj
    rw [Nat.zero_add]
    exact buildOperand_of_digit_le hv hd
  · rw [Nat.zero_add]
    exact buildOperand_of_cell_error he

/-- Settles O5: the opcode and the digits below the arity stand below the places that change. -/
theorem excessDigitsAreIgnored : Obligations.ExcessDigitsAreIgnored := by
  intro lut w x r rest he
  have hmod : (w + 100 * 10 ^ r.arity.val * x) % 100 = w % 100 := by
    rw [Nat.mul_assoc, Nat.add_mul_mod_self_left]
  have hdiv : (w + 100 * 10 ^ r.arity.val * x) / 100 = w / 100 + 10 ^ r.arity.val * x := by
    rw [Nat.mul_assoc, Nat.add_mul_div_left _ _ (by decide)]
  have he' : lutEntry lut (w + 100 * 10 ^ r.arity.val * x) = some r :=
    ((lutEntry_of_mod lut (Nat.mod_lt _ (by decide)) hmod).trans rfl).trans he
  refine decodeFrom_congr rfl rfl he' he (fun j => by simp [Nat.add_comm 1]) fun j hj => ?_
  rw [hdiv, decimalDigit_add_pow_mul hj]

/-- A word under the reference registration, by the row of its opcode. -/
theorem decode_referenceLut {c : Nat} {r : Registration} {ops : List Operand} {rest : List Word} (hc : w % 100 = c)
    (hr : (c, r) ∈ referenceIsa)
    (hb : buildOperands (fun j => .ok (((w : Int) :: rest).getD j 0)) (w / 100) 0 r.arity = .ok ops) :
    decode referenceLut ((w : Int) :: rest) = .ok (Instr.ofKind r.kind ops) := by
  have hlt : c < 100 := hc ▸ Nat.mod_lt _ (by decide)
  exact decodeFrom_of_buildOperands rfl
    ((lutEntry_of_mod _ hlt hc).trans (lutSetAll_referenceIsa (lut := emptyLut) hlt hr)) hb

/-- Settles O4: each word's opcode has its row of the reference registration. -/
theorem writtenOutWordsDecode : Obligations.WrittenOutWordsDecode :=
  ⟨decode_referenceLut (w := 1002) (r := ⟨3, .mul⟩) rfl (by decide) rfl,
    decode_referenceLut (w := 21101) (r := ⟨3, .add⟩) rfl (by decide) rfl,
    decode_referenceLut (w := 204) (r := ⟨1, .out⟩) rfl (by decide) rfl,
    decode_referenceLut (w := 203) (r := ⟨1, .inp⟩) rfl (by decide) rfl,
    decode_referenceLut (w := 109) (r := ⟨1, .arb⟩) rfl (by decide) rfl,
    decode_referenceLut (w := 1006) (r := ⟨2, .jf⟩) rfl (by decide) rfl,
    decode_referenceLut (w := 1105) (r := ⟨2, .jt⟩) rfl (by decide) rfl,
    decode_referenceLut (w := 1107) (r := ⟨3, .lt⟩) rfl (by decide) rfl,
    decode_referenceLut (w := 1008) (r := ⟨3, .eq⟩) rfl (by decide) rfl,
    decode_referenceLut (w := 99) (r := ⟨0, .halt⟩) rfl (by decide) rfl⟩

end Sys2Proof

namespace Sys2Proof.Machine

theorem step_of_fetch_ok {s : State} {i : Instr} (hs : s.status = .running) (h : fetchInstr s = .ok i) :
    step s = exec i s := by
  simp only [step, hs, h]

theorem step_of_not_running {s : State} (hs : s.status ≠ .running) : step s = .next s := by
  unfold step
  cases h : s.status with
  | running => exact absurd h hs
  | halted => rfl
  | faulted => rfl

/-- Settles O1: the three cases of the step. -/
theorem stepRunsTheDecodedInstruction : Obligations.StepRunsTheDecodedInstruction :=
  fun _ => ⟨fun _ => step_of_fetch_ok, fun _ => step_of_fetch_error, step_of_not_running⟩

/-- Settles O2: the fetch decodes the cells from `ip` on. -/
theorem stepRunsAnEncodedInstruction : Obligations.StepRunsAnEncodedInstruction :=
  fun _ c _ _ hs hr hk ha hcell => step_of_fetch_ok hs (decodeFrom_encodeAt c.isLt hr hk ha hcell)

/-- Settles O10: the operands before `i` are built, and the raw read of `i` comes before its digit's check. -/
theorem rawReadFailsBeforeTheModeCheck : Obligations.RawReadFailsBeforeTheModeCheck :=
  fun _ _ _ _ _ hs hw he hi hlt herr =>
    step_of_fetch_error hs
      (decodeFrom_of_buildOperands_error hw he (buildOperands_of_cell_error hi hlt herr))

end Sys2Proof.Machine

/-! Proofs about directives, the end check and the taking of faults (40_execution_loop.md R118-R122, 60_exceptions.md
R212, R214), and what a whole step leaves alone. -/

namespace Sys2Proof.Machine

variable {α : Type} {i : Instr} {s t u : State} {ip0 n a : Nat} {d : Directive} {x : Word} {ops : List Op}

/-! ### A directive's end, case by case -/

theorem afterDirective_cont : afterDirective ip0 n .cont u = movedTo ip0 (ip0 + 1 + n) u := rfl

theorem afterDirective_jumpTo_of_neg (hx : x < 0) :
    afterDirective ip0 n (.jumpTo x) u = enterFault ip0 ⟨.negativeAddress, x⟩ u := if_pos hx

theorem afterDirective_jumpTo_of_nonneg (hx : 0 ≤ x) :
    afterDirective ip0 n (.jumpTo x) u = movedTo ip0 x.toNat u := if_neg (Int.not_lt.2 hx)

theorem afterDirective_adjust_of_ok {r : Word} (h : addW u.params u.rb x = .ok r) :
    afterDirective ip0 n (.adjustRelativeBase x) u = movedTo ip0 (ip0 + 1 + n) { u with rb := r } := by
  simp only [afterDirective, h]

theorem afterDirective_adjust_of_error {trap : Trap} (h : addW u.params u.rb x = .error trap) :
    afterDirective ip0 n (.adjustRelativeBase x) u = enterFault ip0 trap u := by
  simp only [afterDirective, h]

/-- A move keeps the base, whether it passes the end check or not. -/
theorem movedTo_rb : (movedTo ip0 a u).rb = u.rb := by
  unfold movedTo
  split <;> rfl

theorem movedTo_ip_of_lt (h : a < ipRange u.params) : (movedTo ip0 a u).ip = a := by
  unfold movedTo
  split
  · rfl
  · exact heldIp_of_lt h

theorem movedTo_of_not_faulted (h : (movedTo ip0 a u).status ≠ .faulted) : movedTo ip0 a u = { u with ip := a } := by
  by_cases hf : ipFits u.params u.mem.len a
  · exact movedTo_of_fits hf
  · exact absurd (congrArg State.status (movedTo_of_not_fits hf)) h

/-! ### The three ways an instruction can end on a running machine -/

theorem exec_eq_running (h : exec i s = .next t) (ht : t.status = .running) :
    ∃ d u r a, handlerOf s.params i (bindOps s.rb i.operands) s = .ok d u ∧ Keep s u ∧ RbAfter d u r ∧
      ipFits u.params u.mem.len a ∧ t = { u with rb := r, ip := a } := by
  rcases exec_inv h with ⟨trap, u, -, -, -, rfl⟩ | ⟨d, u, hh, hk, hd⟩
  · cases ht
  · cases hd with
    | stopped => cases ht
    | raised => cases ht
    | moved r a hr ha => exact ⟨d, u, r, a, hh, hk, hr, ha, rfl⟩
    | ranPast => cases ht

theorem exec_eq_faulted (hs : s.status = .running) (h : exec i s = .next t) (ht : t.status = .faulted) :
    (∃ trap u, trap.cause ≠ .unexpectedEndOfProgram ∧ Keep s u ∧ t = enterFault s.ip trap u) ∨
      ∃ r a u, ¬ ipFits u.params u.mem.len a ∧ Keep s u ∧ t =
        enterFault s.ip ⟨.unexpectedEndOfProgram, heldIp u.params a⟩ { u with rb := r, ip := heldIp u.params a } := by
  rcases exec_inv h with ⟨trap, u, -, hk, hc, rfl⟩ | ⟨d, u, -, hk, hd⟩
  · refine .inl ⟨trap, u, fun he => ?_, hk, rfl⟩
    simp [HandlerCause, he] at hc
  · obtain ⟨⟨-, -, -, -, hst, -⟩, -⟩ := id hk
    cases hd with
    | stopped => cases ht
    | raised trap hc => exact .inl ⟨trap, u, hc, hk, rfl⟩
    | moved r a hr ha => cases ht.symm.trans (hst.trans hs)
    | ranPast r a hr ha => exact .inr ⟨r, a, u, ha, hk, rfl⟩

theorem exec_faulted_record (hs : s.status = .running) (h : exec i s = .next t) (ht : t.status = .faulted) :
    t.fault.fip = s.ip ∧ t.fault.cause ≠ none := by
  rcases exec_eq_faulted hs h ht with ⟨trap, u, -, -, rfl⟩ | ⟨r, a, u, -, -, rfl⟩ <;> exact ⟨rfl, nofun⟩

/-! ### What a step leaves alone -/

/-- An instruction is its handler's effects, and then a change of `rb`, `ip`, `status` and `fault` at most. -/
theorem exec_frame (h : exec i s = .next t) :
    ∃ u, Keep s u ∧ t = { u with rb := t.rb, ip := t.ip, status := t.status, fault := t.fault } := by
  rcases exec_inv h with ⟨trap, u, -, hk, -, rfl⟩ | ⟨d, u, -, hk, hd⟩
  · exact ⟨u, hk, rfl⟩
  · exact ⟨u, hk, (directiveEnd_frame hd).1⟩

theorem step_frame (h : step s = .next t) :
    ∃ u, Keep s u ∧ t = { u with rb := t.rb, ip := t.ip, status := t.status, fault := t.fault } := by
  rcases step_cases s with ⟨-, he⟩ | ⟨-, i, -, he⟩ | ⟨-, trap, -, he⟩
  · cases h.symm.trans he
    exact ⟨s, Keep.refl s, rfl⟩
  · exact exec_frame (he.symm.trans h)
  · cases h.symm.trans he
    exact ⟨s, Keep.refl s, rfl⟩

/-- Settles O43: neither a handler's effects nor the end of a step reach the three. -/
theorem programsNeverChangeTheTable : Obligations.ProgramsNeverChangeTheTable := by
  intro s t h
  obtain ⟨u, ⟨⟨hp, -, -, hl, -, -, hpol⟩, -⟩, he⟩ := step_frame h
  rw [he]
  exact ⟨hl, hp, hpol⟩

/-- Settles O44: only a handler's writes reach the length. -/
theorem lengthNeverShrinks : Obligations.LengthNeverShrinks := by
  intro s t h
  obtain ⟨u, ⟨-, hlen, hstrict⟩, he⟩ := step_frame h
  rw [he]
  exact ⟨hlen, hstrict⟩

/-- Settles O39: a raise leaves `ip` and `rb` as the handler found them, but for a failed end check. -/
theorem faultsArePrecise : Obligations.FaultsArePrecise := by
  refine ⟨fun ip0 trap s => ⟨rfl, rfl, rfl, heldInfo_inWord _ _, heldInfo_of_inWord⟩, fun i s t hs h ht => ?_⟩
  obtain ⟨hfip, hcause⟩ := exec_faulted_record hs h ht
  refine ⟨hfip, hcause, ?_⟩
  rcases exec_eq_faulted hs h ht with ⟨trap, u, hc, hk, rfl⟩ | ⟨r, a, u, ha, hk, rfl⟩ <;>
    obtain ⟨⟨hp, hip, hrb, hl, -, -, hpol⟩, -⟩ := hk
  · exact ⟨fun _ => ⟨hip, hrb⟩, fun he => absurd (Option.some.inj he) hc, hl, hp, hpol⟩
  · exact ⟨fun hne => absurd rfl hne,
      fun _ => ⟨heldInfo_of_inWord (inWord_of_lt_ipRange (heldIp_lt u.params a)), a, rfl, ha⟩, hl, hp, hpol⟩

/-- Settles O38: each directive's end is `movedTo` at its new address, or the raise before it. -/
theorem endCheckComparesWithTheNewLength : Obligations.EndCheckComparesWithTheNewLength := by
  refine ⟨fun ip0 n h s u => ⟨fun hh hf => ?cont, fun t hh ht => ?negative, fun t hh ht hf => ?jump,
    fun x trap hh he => ?overflow, fun x r hh hr hf => ?adjust⟩,
    fun p a => ⟨heldIp_of_lt, heldIp_lt p a⟩, fun i s t hs h ht => ?running⟩
  case cont => rw [completeStep_of_ok hh, afterDirective_cont, movedTo_of_not_fits hf]
  case negative => rw [completeStep_of_ok hh, afterDirective_jumpTo_of_neg ht]
  case jump => rw [completeStep_of_ok hh, afterDirective_jumpTo_of_nonneg ht, movedTo_of_not_fits hf]
  case overflow => rw [completeStep_of_ok hh, afterDirective_adjust_of_error he]
  case adjust =>
    rw [completeStep_of_ok hh, afterDirective_adjust_of_ok hr]
    exact movedTo_of_not_fits (s := { u with rb := r }) hf
  case running =>
    obtain ⟨d, u, r, a, -, -, -, ha, rfl⟩ := exec_eq_running h ht
    exact ha

/-! ### The directives a handler can return -/

/-- Every directive the handler returns, from any state, meets `P`. -/
def Returns (P : Directive → Prop) (h : Handler Directive) : Prop := ∀ s d u, h s = .ok d u → P d

theorem Returns.pure {P : Directive → Prop} (hd : P d) : Returns P (Pure.pure d : Handler Directive) := by
  intro s d' u h
  cases h
  exact hd

theorem Returns.bind {P : Directive → Prop} {h : Handler α} {k : α → Handler Directive} (hk : ∀ b, Returns P (k b)) :
    Returns P (h >>= k) := by
  intro s d u hh
  rw [bind_apply] at hh
  split at hh
  · exact hk _ _ _ _ hh
  · cases hh

/-- The directives of a handler that neither jumps nor moves the base. -/
def ContinuesOrQuits (d : Directive) : Prop := d = .cont ∨ d = .quit

theorem returns_arithmeticHandler (f : Params → Word → Word → Except Trap Word) :
    Returns ContinuesOrQuits (arithmeticHandler f ops) :=
  .bind fun _ => .bind fun _ => .bind fun _ => .bind fun _ => .bind fun _ => .pure (.inl rfl)

theorem returns_compareHandler (test : Word → Word → Bool) : Returns ContinuesOrQuits (compareHandler test ops) :=
  .bind fun _ => .bind fun _ => .bind fun _ => .pure (.inl rfl)

theorem returns_inHandler : Returns ContinuesOrQuits (inHandler ops) := by
  refine .bind fun v => ?_
  cases v with
  | none => exact .pure (.inr rfl)
  | some v => exact .bind fun _ => .pure (.inl rfl)

theorem returns_outHandler : Returns ContinuesOrQuits (outHandler ops) := by
  refine .bind fun s => ?_
  split
  · split
    · exact .bind fun _ => .pure (.inl rfl)
    · exact .bind fun _ => .bind fun _ => .bind fun _ => .pure (.inr rfl)
  · exact .bind fun _ => .bind fun _ => .pure (.inl rfl)

theorem returns_haltHandler : Returns ContinuesOrQuits (haltHandler ops) := .pure (.inr rfl)

theorem returns_jumpHandler (taken : Word → Bool) :
    Returns (fun d => d = .cont ∨ ∃ x, d = .jumpTo x) (jumpHandler taken ops) := by
  refine .bind fun c => .bind fun x => .pure ?_
  cases taken c with
  | true => exact .inr ⟨x, rfl⟩
  | false => exact .inl rfl

theorem returns_handlerOf_cont_or_quit (p : Params) {mk : List Operand → Instr}
    (hmk : mk ∈ [Instr.add, Instr.mul, Instr.inp, Instr.out, Instr.lt, Instr.eq]) (l : List Operand) :
    (mk l).operands = l ∧ Returns ContinuesOrQuits (handlerOf p (mk l) ops) := by
  simp only [List.mem_cons, List.not_mem_nil, or_false] at hmk
  rcases hmk with rfl | rfl | rfl | rfl | rfl | rfl
  · exact ⟨rfl, returns_arithmeticHandler addW⟩
  · exact ⟨rfl, returns_arithmeticHandler mulW⟩
  · exact ⟨rfl, returns_inHandler⟩
  · exact ⟨rfl, returns_outHandler⟩
  · exact ⟨rfl, returns_compareHandler lessThan⟩
  · exact ⟨rfl, returns_compareHandler sameWord⟩

/-- Only ARB and custom handlers return `AdjustRelativeBase`, ARB with what its operand reads as. -/
theorem handlerOf_eq_adjust {p : Params} (h : handlerOf p i ops s = .ok (.adjustRelativeBase x) u) :
    (∃ l, i = .arb l ∧ readOperand s ops 0 = .ok x) ∨ ∃ k l, i = .custom k l := by
  have no_adjust {g : Handler Directive} (hg : Returns ContinuesOrQuits g) : g s ≠ .ok (.adjustRelativeBase x) u :=
    fun he => by rcases hg _ _ _ he with hd | hd <;> cases hd
  have no_jump_adjust (taken : Word → Bool) : jumpHandler taken ops s ≠ .ok (.adjustRelativeBase x) u :=
    fun he => by rcases returns_jumpHandler taken _ _ _ he with hd | ⟨_, hd⟩ <;> cases hd
  cases i with
  | add l => exact absurd h (no_adjust (returns_arithmeticHandler addW))
  | mul l => exact absurd h (no_adjust (returns_arithmeticHandler mulW))
  | inp l => exact absurd h (no_adjust returns_inHandler)
  | out l => exact absurd h (no_adjust returns_outHandler)
  | jt l => exact absurd h (no_jump_adjust _)
  | jf l => exact absurd h (no_jump_adjust _)
  | lt l => exact absurd h (no_adjust (returns_compareHandler lessThan))
  | eq l => exact absurd h (no_adjust (returns_compareHandler sameWord))
  | arb l =>
    refine .inl ⟨l, rfl, ?_⟩
    rw [handlerOf, arbHandler_apply] at h
    split at h <;> cases h
    assumption
  | hlt l => exact absurd h (no_adjust (returns_haltHandler (ops := ops)))
  | custom k l => exact .inr ⟨k, l, rfl⟩

/-- Settles O36: `Continue` moves to the address past the operands, and the six return it or stop. -/
theorem continueAdvancesPastTheOperands : Obligations.ContinueAdvancesPastTheOperands := by
  refine ⟨fun ip0 n h s u hh => ?_, fun s t l mk hmk hs h ht => ?_⟩
  · rw [completeStep_of_ok hh, afterDirective_cont]
    exact ⟨movedTo_ip_of_lt, movedTo_rb, movedTo_of_fits⟩
  · obtain ⟨hops, hret⟩ := returns_handlerOf_cont_or_quit s.params hmk (ops := bindOps s.rb (mk l).operands) l
    obtain ⟨t', ht', hc⟩ := exec_cases (mk l) s
    cases h.symm.trans ht'
    rcases hc with ⟨trap, u, -, -, -, rfl⟩ | ⟨d, u, hh, ⟨⟨-, -, hrb, -⟩, -⟩, rfl⟩
    · cases ht
    · rcases hret _ _ _ hh with rfl | rfl
      · rw [afterDirective_cont] at ht ⊢
        rw [movedTo_of_not_faulted (by simp [ht]), hops]
        exact ⟨rfl, hrb⟩
      · cases ht

/-- Settles O45: after a fault or another directive the base is the handler's, which is the old one. -/
theorem onlyAdjustRelativeBaseMovesTheBase : Obligations.OnlyAdjustRelativeBaseMovesTheBase := by
  intro i s t h hne
  rcases exec_inv h with ⟨trap, u, -, ⟨⟨-, -, hrb, -⟩, -⟩, -, rfl⟩ | ⟨d, u, hh, ⟨⟨hp, -, hrb, -⟩, -⟩, hd⟩
  · exact absurd hrb hne
  · obtain ⟨-, -, hr⟩ := directiveEnd_frame hd
    rcases hr with hr | ⟨x, rfl, hr⟩
    · exact absurd (hr.trans hrb) hne
    · rw [hp, hrb] at hr
      rcases handlerOf_eq_adjust hh with ⟨l, rfl, hx⟩ | ⟨k, l, rfl⟩
      · exact .inl ⟨l, x, rfl, hx, hr⟩
      · exact .inr ⟨k, l, x, u, rfl, hh, hr⟩

end Sys2Proof.Machine

/-! Proofs about memory, word arithmetic and operands (20_memory.md R53, R54; 41_arithmetic.md R150;
40_execution_loop.md R100-R106). -/

namespace Sys2Proof.Machine

/-! ### Memory and arithmetic -/

section Memory
variable {p : Params} {m : Memory} {a : Int} {v : Word}

theorem Memory.read_of_neg (h : a < 0) : m.read a = .error ⟨.negativeAddress, a⟩ := if_pos h

theorem Memory.read_of_lt (h0 : 0 ≤ a) (h : a < m.len) : m.read a = .ok (m.cell a.toNat) := by
  rw [Memory.cell, if_pos (by omega)]
  exact Memory.read_eq_ok.2 ⟨h0, .inl ⟨h, rfl⟩⟩

theorem Memory.read_of_extended (h0 : 0 ≤ a) (h : (m.len : Int) ≤ a) (hp : m.policy = .extended) : m.read a = .ok 0 :=
  Memory.read_eq_ok.2 ⟨h0, .inr ⟨h, hp, rfl⟩⟩

theorem Memory.write_of_neg (h : a < 0) : m.write p a v = .error ⟨.negativeAddress, a⟩ := if_pos h

theorem Memory.write_of_lt (h0 : 0 ≤ a) (h : a < m.len) :
    m.write p a v = .ok { m with cells := setCell m.cells a.toNat v } := by
  rw [Memory.write, if_neg h0.not_gt, if_pos h]

theorem Memory.write_of_extended (h0 : 0 ≤ a) (h : (m.len : Int) ≤ a) (hp : m.policy = .extended) :
    m.write p a v = if beyondCap p a then .error ⟨.capacityExceeded, a⟩
      else .ok { m with cells := setCell m.cells a.toNat v, len := a.toNat + 1 } := by
  simp only [Memory.write, if_neg h0.not_gt, if_neg h.not_gt, hp]

theorem beyondCap_iff : beyondCap p a = true ↔ ∃ cap : Nat, p.memCap = some cap ∧ (cap : Int) ≤ a := by
  unfold beyondCap
  cases p.memCap <;> simp

theorem settle_of_fault {x : Int} (h : ¬ InWord p.wordBits x) (hp : p.overflow = .fault) :
    settle p x = .error ⟨.arithmeticOverflow, 0⟩ := by
  simp only [settle, if_neg h, hp]

theorem settle_of_wrap {x : Int} (h : ¬ InWord p.wordBits x) (hp : p.overflow = .wrap) :
    settle p x = .ok (wrapWord p.wordBits x) := by
  simp only [settle, if_neg h, hp]

end Memory

/-- Settles O11: the rule of each range of addresses. -/
theorem memReadFollowsItsRule : Obligations.MemReadFollowsItsRule :=
  fun _ _ => ⟨Memory.read_of_neg, Memory.read_of_lt, fun _ h hp => Memory.read_of_strict hp h, Memory.read_of_extended⟩

/-- Settles O12: where the write succeeds, what reads back is the general rule of reading after writing. -/
theorem memWriteFollowsItsRule : Obligations.MemWriteFollowsItsRule := by
  intro p m a v hw
  have reads_back {m' : Memory} (h : m.write p a v = .ok m') :
      m'.read a = .ok v ∧ ∀ b, b ≠ a → m'.read b = m.read b :=
    ⟨Memory.read_write_same hw h, fun _ => Memory.read_write_other hw h⟩
  refine ⟨Memory.write_of_neg, fun h0 h => ?allocated, fun _ h hp => Memory.write_of_strict hp h,
    fun h0 h hp hcap => ?capped, fun h0 h hp hcap => ?growth⟩
  case allocated => exact ⟨_, Memory.write_of_lt h0 h, rfl, rfl, reads_back (Memory.write_of_lt h0 h)⟩
  case capped => rw [Memory.write_of_extended h0 h hp, if_pos (beyondCap_iff.2 hcap)]
  case growth =>
    have hfree : ¬ beyondCap p a = true := fun hb => by
      obtain ⟨cap, hc, hle⟩ := beyondCap_iff.1 hb
      exact hle.not_gt (hcap cap hc)
    have hwrite := (Memory.write_of_extended (p := p) (v := v) h0 h hp).trans (if_neg hfree)
    refine ⟨_, hwrite, ?_, rfl, reads_back hwrite⟩
    simp [Int.toNat_of_nonneg h0]

/-- Settles O15: both are `settle` of the exact result. -/
theorem wordArithmeticByPolicy : Obligations.WordArithmeticByPolicy := by
  intro p a b f x hf
  have hsettle : f p a b = settle p x := by rcases hf with ⟨rfl, rfl⟩ | ⟨rfl, rfl⟩ <;> rfl
  rw [hsettle]
  exact ⟨settle_of_inWord, settle_of_fault,
    fun h hp => ⟨_, settle_of_wrap h hp, wrapWord_inWord _ _, wrapWord_congruent _ _⟩⟩

/-! ### Operands -/

section Operands
variable {p : Params} {s : State} {rb : Word} {l : List Operand} {ops ops' : List Op} {i : Nat} {o : Operand} {v : Word}
  {trap : Trap}

theorem bindOps_getElem?_none (h : l[i]? = none) : (bindOps rb l)[i]? = none := by simp [bindOps, h]

theorem targetOperand_of_none (h : ops[i]? = none) :
    targetOperand p ops i = .error ⟨.operandIndexOutOfRange, i⟩ := by
  simp only [targetOperand, h]

theorem targetOperand_of_position (h : l[i]? = some o) (hm : o.mode = .position) :
    targetOperand p (bindOps rb l) i = .ok o.raw := by
  simp only [targetOperand, bindOps_getElem? h, hm]

theorem targetOperand_of_immediate (h : l[i]? = some o) (hm : o.mode = .immediate) :
    targetOperand p (bindOps rb l) i = .error ⟨.incompatibleMode, i⟩ := by
  simp only [targetOperand, bindOps_getElem? h, hm]

theorem targetOperand_of_relative (h : l[i]? = some o) (hm : o.mode = .relative) :
    targetOperand p (bindOps rb l) i = addW p o.raw rb := by
  simp only [targetOperand, bindOps_getElem? h, hm, Op.relativeAddress]

theorem readOperand_of_none (h : ops[i]? = none) : readOperand s ops i = .error ⟨.operandIndexOutOfRange, i⟩ := by
  simp only [readOperand, h]

theorem readOperand_of_immediate (h : l[i]? = some o) (hm : o.mode = .immediate) :
    readOperand s (bindOps rb l) i = .ok o.raw := by
  simp only [readOperand, bindOps_getElem? h, hm]

theorem readOperand_of_relative_error (h : l[i]? = some o) (hm : o.mode = .relative)
    (he : addW s.params o.raw rb = .error trap) : readOperand s (bindOps rb l) i = .error trap := by
  simp only [readOperand, bindOps_getElem? h, hm, Op.relativeAddress, he]

theorem storeOperand_of_target_error (h : targetOperand s.params ops i = .error trap) :
    storeOperand s ops i v = .error trap := by
  simp only [storeOperand, h]

/-- Settles O16: a read and a store follow the operand's target, where the mode gives one. -/
theorem operandFormsReadAndWrite : Obligations.OperandFormsReadAndWrite := by
  intro s l i v
  refine ⟨fun h => ?none, fun o h => ⟨fun hm => ?position, fun hm => ?immediate, fun hm => ⟨fun a ha => ?relative,
    fun trap he => ?overflow⟩⟩⟩
  case none =>
    have hb := bindOps_getElem?_none (rb := s.rb) h
    exact ⟨readOperand_of_none hb, storeOperand_of_target_error (targetOperand_of_none hb), targetOperand_of_none hb⟩
  case position =>
    have ht := targetOperand_of_position (p := s.params) (rb := s.rb) h hm
    exact ⟨readOperand_of_target ht, storeOperand_eq_write v ht⟩
  case immediate =>
    exact ⟨readOperand_of_immediate h hm, storeOperand_of_target_error (targetOperand_of_immediate h hm)⟩
  case relative =>
    have ht := (targetOperand_of_relative h hm).trans ha
    exact ⟨readOperand_of_target ht, storeOperand_eq_write v ht⟩
  case overflow =>
    exact ⟨readOperand_of_relative_error h hm he,
      storeOperand_of_target_error ((targetOperand_of_relative h hm).trans he)⟩

/-- An operand list is read and written at each index by that operand alone. -/
theorem readOperand_congr_ops (h : ops[i]? = ops'[i]?) : readOperand s ops i = readOperand s ops' i := by
  simp only [readOperand, h]

theorem targetOperand_congr_ops (h : ops[i]? = ops'[i]?) : targetOperand p ops i = targetOperand p ops' i := by
  simp only [targetOperand, h]

end Operands

/-! ### The nodes of an action tree (40_execution_loop.md R110) -/

section Trees
variable {ops : List Op} {i : Nat} {s : State}

theorem runAction_read (k : Word → HAction) :
    runAction ops (.read i k) s = match readOperand s ops i with
      | .ok v => runAction ops (k v) s
      | .error e => .error e s := by
  rw [runAction, bind_apply, opRead_apply]
  cases readOperand s ops i <;> rfl

theorem runAction_write (v : Word) (k : HAction) :
    runAction ops (.write i v k) s = match storeOperand s ops i (wrapWord s.params.wordBits v) with
      | .ok m => runAction ops k { s with mem := m }
      | .error e => .error e s := by
  simp only [runAction, bind_apply, castWord, opWrite_apply]
  cases storeOperand s ops i (wrapWord s.params.wordBits v) <;> rfl

theorem runAction_inPop (k : Option Word → HAction) :
    runAction ops (.inPop k) s = match s.inq with
      | [] => runAction ops (k none) s
      | v :: rest => runAction ops (k (some v)) { s with inq := rest } := by
  rw [runAction, bind_apply, inPop]
  cases s.inq <;> rfl

theorem runAction_outPush (v : Word) (k : HAction) :
    runAction ops (.outPush v k) s = runAction ops k { s with outq := s.outq ++ [wrapWord s.params.wordBits v] } := rfl

theorem runAction_ret (d : Directive) : runAction ops (.ret d) s = castDirective d s := rfl

end Trees

/-! ### Operand lists that no handler can tell apart (40_execution_loop.md R106) -/

/-- On every state with parameters `p`, both lists read and store alike at every index. -/
def OpsAgree (p : Params) (ops ops' : List Op) : Prop :=
  ∀ i, targetOperand p ops i = targetOperand p ops' i ∧
    ∀ s : State, s.params = p → readOperand s ops i = readOperand s ops' i

section Agree
variable {p : Params} {ops ops' : List Op} {s : State}

theorem OpsAgree.read (h : OpsAgree p ops ops') (hs : s.params = p) (i : Nat) :
    readOperand s ops i = readOperand s ops' i := (h i).2 s hs

theorem OpsAgree.store (h : OpsAgree p ops ops') (hs : s.params = p) (i : Nat) (v : Word) :
    storeOperand s ops i v = storeOperand s ops' i v := by
  simp only [storeOperand, hs, (h i).1]

theorem runAction_congr_ops (h : OpsAgree p ops ops') (tree : HAction) (hs : s.params = p) :
    runAction ops tree s = runAction ops' tree s := by
  induction tree generalizing s with
  | read i k ih =>
    simp only [runAction_read, h.read hs]
    cases readOperand s ops' i with
    | ok v => exact ih v hs
    | error e => rfl
  | write i v k ih =>
    simp only [runAction_write, h.store hs]
    cases storeOperand s ops' i (wrapWord s.params.wordBits v) with
    | ok m => exact ih hs
    | error e => rfl
  | inPop k ih =>
    simp only [runAction_inPop]
    cases s.inq with
    | nil => exact ih none hs
    | cons v rest => exact ih (some v) hs
  | outPush v k ih => exact ih hs
  | ret d => rfl

theorem outHandler_congr_ops (h : OpsAgree p ops ops') (hs : s.params = p) :
    outHandler ops s = outHandler ops' s := by
  cases hy : s.params.outputYield with
  | false => simp only [outHandler_apply_plain _ _ hy, h.read hs]
  | true =>
    cases ho : s.oyp with
    | false => simp only [outHandler_apply_yield _ _ hy ho, h.read hs]
    | true => rw [outHandler_apply_resumed _ _ hy ho, outHandler_apply_resumed _ _ hy ho]

theorem handlerOf_congr_ops (h : OpsAgree p ops ops') (i : Instr) (hs : s.params = p) :
    handlerOf p i ops s = handlerOf p i ops' s := by
  have arithmetic (f) : arithmeticHandler f ops s = arithmeticHandler f ops' s := by
    simp only [arithmeticHandler_apply, h.read hs, h.store hs]
  have compare (test) : compareHandler test ops s = compareHandler test ops' s := by
    simp only [compareHandler_apply, h.read hs, h.store hs]
  have jump (taken) : jumpHandler taken ops s = jumpHandler taken ops' s := by
    simp only [jumpHandler_apply, h.read hs]
  cases i with
  | add _ => exact arithmetic addW
  | mul _ => exact arithmetic mulW
  | inp _ =>
    have store_rest (rest : List Word) (v : Word) := h.store (s := { s with inq := rest }) hs 0 v
    simp only [handlerOf, inHandler_apply, store_rest]
  | out _ => exact outHandler_congr_ops h hs
  | jt _ => exact jump _
  | jf _ => exact jump _
  | lt _ => exact compare lessThan
  | eq _ => exact compare sameWord
  | arb _ => simp only [handlerOf, arbHandler_apply, h.read hs]
  | hlt _ => rfl
  | custom k _ => exact runAction_congr_ops h _ hs

/-- A Relative operand of raw `a - rb` and a Position operand of raw `a` name the same cell. -/
theorem opsAgree_relative {rb : Word} {l : List Operand} {j : Nat} {a : Int} (ha : InWord p.wordBits a)
    (hj : l[j]? = some ⟨.relative, a - rb⟩) :
    OpsAgree p (bindOps rb (l.set j ⟨.position, a⟩)) (bindOps rb l) := by
  intro i
  by_cases hij : j = i
  · subst hij
    have hset : (l.set j ⟨.position, a⟩)[j]? = some ⟨.position, a⟩ := by
      rw [List.getElem?_set_self (List.getElem?_eq_some_iff.1 hj).1]
    have hpos : targetOperand p (bindOps rb (l.set j ⟨.position, a⟩)) j = .ok a := targetOperand_of_position hset rfl
    have hrel : targetOperand p (bindOps rb l) j = .ok a := by
      rw [targetOperand_of_relative hj rfl, addW, sub_add_cancel, settle_of_inWord ha]
    refine ⟨hpos.trans hrel.symm, fun s hs => ?_⟩
    subst hs
    rw [readOperand_of_target hpos, readOperand_of_target hrel]
  · have hsame : (bindOps rb (l.set j ⟨.position, a⟩))[i]? = (bindOps rb l)[i]? := by
      simp only [bindOps, List.getElem?_map, List.getElem?_set_ne hij]
    exact ⟨targetOperand_congr_ops hsame, fun _ _ => readOperand_congr_ops hsame⟩

/-- A step depends on its handler's end alone. -/
theorem completeStep_congr {ip0 n : Nat} {h h' : Handler Directive} (hh : h s = h' s) :
    completeStep ip0 n h s = completeStep ip0 n h' s := by
  simp only [completeStep, EStateM.bind, hh]

/-- The handler looks at the instruction's kind, not at the operands it carries. -/
theorem handlerOf_ofKind (kind : HandlerKind) (l l' : List Operand) :
    handlerOf p (Instr.ofKind kind l) = handlerOf p (Instr.ofKind kind l') := by
  cases kind <;> rfl

end Agree

/-- Settles O17: no handler can tell the two operand lists apart, and they are equally long. -/
theorem relativeReachesThePositionCell : Obligations.RelativeReachesThePositionCell := by
  intro s kind l j a _ ha hj
  simp only [exec_eq, ofKind_operands, List.length_set, handlerOf_ofKind kind (l.set j ⟨.position, a⟩) l]
  exact congrArg _ (completeStep_congr (handlerOf_congr_ops (opsAgree_relative ha hj) _ rfl))

end Sys2Proof.Machine

/-! Proofs about what each instruction does (41_arithmetic.md, 42_io.md, 43_jumps.md, 44_compare.md,
45_base_and_halt.md): an instruction is its handler's end, applied by one rule, and each handler has one rule for each of
its ends. -/

namespace Sys2Proof.Machine

variable {mk : List Operand → Instr} {h : Params → List Op → Handler Directive} {s t u : State} {l : List Operand}
  {ops : List Op} {trap : Trap} {d : Directive} {f : Params → Word → Word → Except Trap Word} {a b c r v x : Word}
  {m : Memory}

/-! ### Instructions as handlers -/

/-- The instructions `mk` makes run the handler `h` on the operands `mk` was given. -/
structure Runs (mk : List Operand → Instr) (h : Params → List Op → Handler Directive) : Prop where
  operands : ∀ l, (mk l).operands = l
  handler : ∀ p l ops s, handlerOf p (mk l) ops s = h p ops s

/-- A comparison is an arithmetic instruction whose result is 1 or 0. -/
theorem compareHandler_eq_arithmeticHandler {test : Word → Word → Bool}
    (hf : ∀ p a b, f p a b = .ok (truthWord (test a b))) (ops : List Op) (s : State) :
    compareHandler test ops s = arithmeticHandler f ops s := by
  simp only [compareHandler_apply, arithmeticHandler_apply, hf]

theorem runs_add : Runs .add fun _ => arithmeticHandler addW := ⟨fun _ => rfl, fun _ _ _ _ => rfl⟩

theorem runs_mul : Runs .mul fun _ => arithmeticHandler mulW := ⟨fun _ => rfl, fun _ _ _ _ => rfl⟩

theorem runs_lt : Runs .lt fun _ => arithmeticHandler fun _ a b => .ok (if a < b then 1 else 0) :=
  ⟨fun _ => rfl, fun _ _ => compareHandler_eq_arithmeticHandler fun _ a b => by simp [truthWord, lessThan]⟩

theorem runs_eq : Runs .eq fun _ => arithmeticHandler fun _ a b => .ok (if a = b then 1 else 0) :=
  ⟨fun _ => rfl, fun _ _ => compareHandler_eq_arithmeticHandler fun _ a b => by simp [truthWord, sameWord]⟩

theorem runs_inp : Runs .inp fun _ => inHandler := ⟨fun _ => rfl, fun _ _ _ _ => rfl⟩

theorem runs_out : Runs .out fun _ => outHandler := ⟨fun _ => rfl, fun _ _ _ _ => rfl⟩

theorem runs_jt : Runs .jt fun _ => jumpHandler conditionHolds := ⟨fun _ => rfl, fun _ _ _ _ => rfl⟩

theorem runs_jf : Runs .jf fun _ => jumpHandler fun c => !conditionHolds c := ⟨fun _ => rfl, fun _ _ _ _ => rfl⟩

theorem runs_arb : Runs .arb fun _ => arbHandler := ⟨fun _ => rfl, fun _ _ _ _ => rfl⟩

theorem runs_hlt : Runs .hlt fun _ => haltHandler := ⟨fun _ => rfl, fun _ _ _ _ => rfl⟩

theorem runs_custom (k : Fin 0x8000) : Runs (.custom k) fun p => customHandler p k :=
  ⟨fun _ => rfl, fun _ _ _ _ => rfl⟩

theorem Runs.exec_of_error (hr : Runs mk h) (hh : h s.params (s.bind l) s = .error trap u) :
    exec (mk l) s = .next (enterFault s.ip trap u) :=
  Machine.exec_of_error (by rw [hr.handler, hr.operands, hh])

theorem Runs.exec_of_ok (hr : Runs mk h) (hh : h s.params (s.bind l) s = .ok d u) :
    exec (mk l) s = .next (afterDirective s.ip l.length d u) := by
  rw [Machine.exec_of_ok (d := d) (s' := u) (by rw [hr.handler, hr.operands, hh]), hr.operands]

theorem Runs.exec_of_quit (hr : Runs mk h) (hh : h s.params (s.bind l) s = .ok .quit u) :
    exec (mk l) s = .next { u with status := .halted } := hr.exec_of_ok hh

theorem Runs.exec_of_fits (hr : Runs mk h) (hh : h s.params (s.bind l) s = .ok .cont u)
    (hf : ipFits u.params u.mem.len (s.ip + 1 + l.length)) :
    exec (mk l) s = .next { u with ip := s.ip + 1 + l.length } := by
  rw [hr.exec_of_ok hh, afterDirective_cont, movedTo_of_fits hf]

theorem Runs.exec_of_ranPast (hr : Runs mk h) (hh : h s.params (s.bind l) s = .ok .cont u)
    (hf : ¬ ipFits u.params u.mem.len (s.ip + 1 + l.length)) :
    exec (mk l) s = .next (enterFault s.ip ⟨.unexpectedEndOfProgram, heldIp u.params (s.ip + 1 + l.length)⟩
      { u with ip := heldIp u.params (s.ip + 1 + l.length) }) := by
  rw [hr.exec_of_ok hh, afterDirective_cont, movedTo_of_not_fits hf]

/-- The two ways an instruction that answers `t` can have ended. -/
theorem Runs.exec_inv (hr : Runs mk h) (he : exec (mk l) s = .next t) :
    (∃ trap u, h s.params (s.bind l) s = .error trap u ∧ t = enterFault s.ip trap u) ∨
      ∃ d u, h s.params (s.bind l) s = .ok d u ∧ t = afterDirective s.ip l.length d u := by
  cases hh : h s.params (s.bind l) s with
  | error trap u =>
    cases he.symm.trans (hr.exec_of_error hh)
    exact .inl ⟨trap, u, rfl, rfl⟩
  | ok d u =>
    cases he.symm.trans (hr.exec_of_ok hh)
    exact .inr ⟨d, u, rfl, rfl⟩

/-! ### ADD, MUL, LT, EQ -/

theorem arithmeticHandler_of_read0_error (h0 : readOperand s ops 0 = .error trap) :
    arithmeticHandler f ops s = .error trap s := by
  simp only [arithmeticHandler_apply, h0]

theorem arithmeticHandler_of_read1_error (h0 : readOperand s ops 0 = .ok a) (h1 : readOperand s ops 1 = .error trap) :
    arithmeticHandler f ops s = .error trap s := by
  simp only [arithmeticHandler_apply, h0, h1]

theorem arithmeticHandler_of_result_error (h0 : readOperand s ops 0 = .ok a) (h1 : readOperand s ops 1 = .ok b)
    (hf : f s.params a b = .error trap) : arithmeticHandler f ops s = .error trap s := by
  simp only [arithmeticHandler_apply, h0, h1, hf]

theorem arithmeticHandler_of_store_error (h0 : readOperand s ops 0 = .ok a) (h1 : readOperand s ops 1 = .ok b)
    (hf : f s.params a b = .ok r) (hst : storeOperand s ops 2 r = .error trap) :
    arithmeticHandler f ops s = .error trap s := by
  simp only [arithmeticHandler_apply, h0, h1, hf, hst]

theorem arithmeticHandler_of_store (h0 : readOperand s ops 0 = .ok a) (h1 : readOperand s ops 1 = .ok b)
    (hf : f s.params a b = .ok r) (hst : storeOperand s ops 2 r = .ok m) :
    arithmeticHandler f ops s = .ok .cont { s with mem := m } := by
  simp only [arithmeticHandler_apply, h0, h1, hf, hst]

/-- An arithmetic instruction that completes stores its result at operand 2's address. -/
theorem Runs.stores {d : Int} (hr : Runs mk fun _ => arithmeticHandler f) (h0 : readOperand s (s.bind l) 0 = .ok a)
    (h1 : readOperand s (s.bind l) 1 = .ok b) (hf : f s.params a b = .ok r)
    (ht : targetOperand s.params (s.bind l) 2 = .ok d) (hm : s.mem.write s.params d r = .ok m)
    (hfits : ipFits s.params m.len (s.ip + 1 + l.length)) :
    exec (mk l) s = .next { s with mem := m, ip := s.ip + 1 + l.length } :=
  hr.exec_of_fits (arithmeticHandler_of_store h0 h1 hf (storeOperand_of_target ht hm)) hfits

/-- Settles O19: ADD's result is the sum. -/
theorem addStoresTheSum : Obligations.AddStoresTheSum :=
  fun _ _ _ _ _ _ _ h0 h1 hf ht hm hfits => runs_add.stores h0 h1 hf ht hm hfits

/-- Settles O20: MUL's result is the product. -/
theorem mulStoresTheProduct : Obligations.MulStoresTheProduct :=
  fun _ _ _ _ _ _ _ h0 h1 hf ht hm hfits => runs_mul.stores h0 h1 hf ht hm hfits

/-- Settles O21: the comparison always has a result. -/
theorem ltStoresTheSignedComparison : Obligations.LtStoresTheSignedComparison :=
  fun _ _ _ _ _ _ h0 h1 ht hm hfits => runs_lt.stores h0 h1 rfl ht hm hfits

/-- Settles O22: the comparison always has a result. -/
theorem eqStoresTheEquality : Obligations.EqStoresTheEquality :=
  fun _ _ _ _ _ _ h0 h1 ht hm hfits => runs_eq.stores h0 h1 rfl ht hm hfits

theorem runs_of_mem_threeOperand (hmk : (mk, f) ∈ [(Instr.add, addW), (Instr.mul, mulW),
    (Instr.lt, fun _ a b => .ok (if a < b then 1 else 0)), (Instr.eq, fun _ a b => .ok (if a = b then 1 else 0))]) :
    Runs mk fun _ => arithmeticHandler f := by
  simp only [List.mem_cons, Prod.mk.injEq, List.not_mem_nil, or_false] at hmk
  rcases hmk with ⟨rfl, rfl⟩ | ⟨rfl, rfl⟩ | ⟨rfl, rfl⟩ | ⟨rfl, rfl⟩
  · exact runs_add
  · exact runs_mul
  · exact runs_lt
  · exact runs_eq

/-- Settles O23: the raises of the handler are its reads, its result and its store, and the end check comes after. -/
theorem threeOperandInstructionsRaiseInOrder : Obligations.ThreeOperandInstructionsRaiseInOrder := by
  intro s l mk f hmk trap
  have hr := runs_of_mem_threeOperand hmk
  exact ⟨fun h0 => hr.exec_of_error (arithmeticHandler_of_read0_error h0),
    fun _ h0 h1 => hr.exec_of_error (arithmeticHandler_of_read1_error h0 h1),
    fun _ _ h0 h1 hf => hr.exec_of_error (arithmeticHandler_of_result_error h0 h1 hf),
    fun _ _ _ h0 h1 hf hst => hr.exec_of_error (arithmeticHandler_of_store_error h0 h1 hf hst),
    fun _ _ _ _ h0 h1 hf hst hfits => hr.exec_of_ranPast (arithmeticHandler_of_store h0 h1 hf hst) hfits⟩

/-! ### IN and OUT -/

theorem inHandler_of_empty (hq : s.inq = []) : inHandler ops s = .ok .quit s := by
  simp only [inHandler_apply, hq]

/-- The store does not see the input channel, so it is the one before the pop. -/
theorem inHandler_of_store {rest : List Word} (hq : s.inq = v :: rest) (hst : storeOperand s ops 0 v = .ok m) :
    inHandler ops s = .ok .cont { s with inq := rest, mem := m } := by
  have hst' : storeOperand { s with inq := rest } ops 0 v = .ok m := hst
  simp only [inHandler_apply, hq, hst']

theorem inHandler_of_store_error {rest : List Word} (hq : s.inq = v :: rest)
    (hst : storeOperand s ops 0 v = .error trap) : inHandler ops s = .error trap { s with inq := rest } := by
  have hst' : storeOperand { s with inq := rest } ops 0 v = .error trap := hst
  simp only [inHandler_apply, hq, hst']

/-- Settles O24: the pop comes before the write, so a write that raises has lost the value. -/
theorem inStoresTheOldestInput : Obligations.InStoresTheOldestInput :=
  fun _ _ _ _ hq =>
    ⟨fun _ _ ht hm hfits => runs_inp.exec_of_fits (inHandler_of_store hq (storeOperand_of_target ht hm)) hfits,
      fun _ hst => runs_inp.exec_of_error (inHandler_of_store_error hq hst)⟩

/-- Settles O25: the handler quits before it looks at its operand. -/
theorem inYieldsOnAnEmptyChannel : Obligations.InYieldsOnAnEmptyChannel :=
  fun _ _ hq => runs_inp.exec_of_quit (inHandler_of_empty hq)

theorem outHandler_of_read_error (hy : s.params.outputYield = true → s.oyp = false)
    (h0 : readOperand s ops 0 = .error trap) : outHandler ops s = .error trap s := by
  cases hp : s.params.outputYield with
  | false => simp only [outHandler_apply_plain _ _ hp, h0]
  | true => simp only [outHandler_apply_yield _ _ hp (hy hp), h0]

theorem outHandler_of_plain (hy : s.params.outputYield = false) (h0 : readOperand s ops 0 = .ok v) :
    outHandler ops s = .ok .cont { s with outq := s.outq ++ [v] } := by
  simp only [outHandler_apply_plain _ _ hy, h0]

theorem outHandler_of_yield (hy : s.params.outputYield = true) (ho : s.oyp = false)
    (h0 : readOperand s ops 0 = .ok v) :
    outHandler ops s = .ok .quit { s with outq := s.outq ++ [v], oyp := true } := by
  simp only [outHandler_apply_yield _ _ hy ho, h0]

/-- Settles O26: the read comes before the push. -/
theorem outPushesItsOperand : Obligations.OutPushesItsOperand :=
  fun _ _ hy => ⟨fun _ h0 hfits => runs_out.exec_of_fits (outHandler_of_plain hy h0) hfits,
    fun _ h0 => runs_out.exec_of_error (outHandler_of_read_error (fun ht => nomatch hy.symm.trans ht) h0)⟩

/-- Settles O27: the latch tells the first execution from the resumed one. -/
theorem outYieldsOnceForEachValue : Obligations.OutYieldsOnceForEachValue :=
  fun _ _ hy => ⟨fun _ ho h0 => runs_out.exec_of_quit (outHandler_of_yield hy ho h0),
    fun _ ho h0 => runs_out.exec_of_error (outHandler_of_read_error (fun _ => ho) h0),
    fun ho hfits => runs_out.exec_of_fits (outHandler_apply_resumed _ _ hy ho) hfits⟩

/-! ### JT and JF -/

section Jumps
variable {taken : Word → Bool}

theorem jumpHandler_of_read0_error (h0 : readOperand s ops 0 = .error trap) :
    jumpHandler taken ops s = .error trap s := by
  simp only [jumpHandler_apply, h0]

theorem jumpHandler_of_read1_error (h0 : readOperand s ops 0 = .ok c) (h1 : readOperand s ops 1 = .error trap) :
    jumpHandler taken ops s = .error trap s := by
  simp only [jumpHandler_apply, h0, h1]

theorem jumpHandler_of_taken (h0 : readOperand s ops 0 = .ok c) (h1 : readOperand s ops 1 = .ok x)
    (hc : taken c = true) : jumpHandler taken ops s = .ok (.jumpTo x) s := by
  simp only [jumpHandler_apply, h0, h1, hc, if_true]

theorem jumpHandler_of_not_taken (h0 : readOperand s ops 0 = .ok c) (h1 : readOperand s ops 1 = .ok x)
    (hc : taken c = false) : jumpHandler taken ops s = .ok .cont s := by
  simp only [jumpHandler_apply, h0, h1, hc, Bool.false_eq_true, if_false]

theorem Runs.exec_of_taken (hr : Runs mk fun _ => jumpHandler taken) (h0 : readOperand s (s.bind l) 0 = .ok c)
    (h1 : readOperand s (s.bind l) 1 = .ok x) (hc : taken c = true) (hx : 0 ≤ x) :
    exec (mk l) s = .next (movedTo s.ip x.toNat s) := by
  rw [hr.exec_of_ok (jumpHandler_of_taken h0 h1 hc), afterDirective_jumpTo_of_nonneg hx]

theorem Runs.exec_of_taken_fits (hr : Runs mk fun _ => jumpHandler taken) (h0 : readOperand s (s.bind l) 0 = .ok c)
    (h1 : readOperand s (s.bind l) 1 = .ok x) (hc : taken c = true) (hx : 0 ≤ x)
    (hfits : ipFits s.params s.mem.len x.toNat) : exec (mk l) s = .next { s with ip := x.toNat } := by
  rw [hr.exec_of_taken h0 h1 hc hx, movedTo_of_fits hfits]

theorem conditionHolds_iff : conditionHolds c = true ↔ c ≠ 0 := decide_eq_true_iff

theorem not_conditionHolds_iff : (!conditionHolds c) = true ↔ c = 0 := by simp [conditionHolds]

/-- Settles O28: JT is taken when its condition is not 0. -/
theorem jtJumpsWhenNonZero : Obligations.JtJumpsWhenNonZero :=
  fun _ _ _ _ h0 h1 => ⟨fun hc hx hfits => runs_jt.exec_of_taken_fits h0 h1 (conditionHolds_iff.2 hc) hx hfits,
    fun hc hfits => runs_jt.exec_of_fits (jumpHandler_of_not_taken h0 h1 (by simp [conditionHolds, hc])) hfits⟩

/-- Settles O29: JF is taken when its condition is 0. -/
theorem jfJumpsWhenZero : Obligations.JfJumpsWhenZero :=
  fun _ _ _ _ h0 h1 => ⟨fun hc hx hfits => runs_jf.exec_of_taken_fits h0 h1 (not_conditionHolds_iff.2 hc) hx hfits,
    fun hc hfits => runs_jf.exec_of_fits (jumpHandler_of_not_taken h0 h1 (by simp [conditionHolds, hc])) hfits⟩

/-- The two jumps, each with its test as the model computes it. -/
theorem runs_jump {P : Word → Prop}
    (hmk : (mk = Instr.jt ∧ P = fun c => c ≠ 0) ∨ (mk = Instr.jf ∧ P = fun c => c = 0)) :
    ∃ taken : Word → Bool, Runs mk (fun _ => jumpHandler taken) ∧ ∀ c, taken c = true ↔ P c := by
  rcases hmk with ⟨rfl, rfl⟩ | ⟨rfl, rfl⟩
  · exact ⟨_, runs_jt, fun _ => conditionHolds_iff⟩
  · exact ⟨_, runs_jf, fun _ => not_conditionHolds_iff⟩

end Jumps

/-- Settles O30: both reads come before the choice, and the end check after it. -/
theorem jumpsRaiseInOrder : Obligations.JumpsRaiseInOrder := by
  intro s l mk P hmk
  obtain ⟨taken, hr, htaken⟩ := runs_jump hmk
  refine ⟨fun trap h0 => hr.exec_of_error (jumpHandler_of_read0_error h0),
    fun c trap h0 h1 => hr.exec_of_error (jumpHandler_of_read1_error h0 h1), fun c x h0 h1 hc hx => ?negative,
    fun c x h0 h1 hc hx hfits => ?past, fun c x h0 h1 hc hfits => ?through⟩
  case negative =>
    rw [hr.exec_of_ok (jumpHandler_of_taken h0 h1 ((htaken c).2 hc)), afterDirective_jumpTo_of_neg hx]
  case past => rw [hr.exec_of_taken h0 h1 ((htaken c).2 hc) hx, movedTo_of_not_fits hfits]
  case through =>
    have hnot : taken c = false := Bool.eq_false_iff.2 (mt (htaken c).1 hc)
    exact hr.exec_of_ranPast (jumpHandler_of_not_taken h0 h1 hnot) hfits

/-! ### ARB -/

theorem arbHandler_of_read (h0 : readOperand s ops 0 = .ok x) : arbHandler ops s = .ok (.adjustRelativeBase x) s := by
  simp only [arbHandler_apply, h0]

theorem arbHandler_of_read_error (h0 : readOperand s ops 0 = .error trap) : arbHandler ops s = .error trap s := by
  simp only [arbHandler_apply, h0]

/-- Settles O31: the base moves before the end check, and not at all when the sum raises. -/
theorem arbMovesTheBase : Obligations.ArbMovesTheBase := by
  intro s l
  have moves {x r : Word} (h0 : readOperand s (s.bind l) 0 = .ok x) (hr : addW s.params s.rb x = .ok r) :
      exec (.arb l) s = .next (movedTo s.ip (s.ip + 1 + l.length) { s with rb := r }) := by
    rw [runs_arb.exec_of_ok (arbHandler_of_read h0), afterDirective_adjust_of_ok hr]
  refine ⟨fun x r h0 hr hfits => ?fits, fun x trap h0 he => ?overflow,
    fun trap h0 => runs_arb.exec_of_error (arbHandler_of_read_error h0), fun x r h0 hr hfits => ?past⟩
  case fits => exact (moves h0 hr).trans (congrArg _ (movedTo_of_fits hfits))
  case overflow => rw [runs_arb.exec_of_ok (arbHandler_of_read h0), afterDirective_adjust_of_error he]
  case past => exact (moves h0 hr).trans (congrArg _ (movedTo_of_not_fits hfits))

/-! ### Writes through an Immediate operand (60_exceptions.md R205) -/

/-- The handler raises `cause` from no state. -/
def NeverRaises {α : Type} (cause : FaultCause) (h : Handler α) : Prop := ∀ s e u, h s = .error e u → e.cause ≠ cause

section Raises
variable {α β : Type} {cause : FaultCause}

theorem NeverRaises.pure (a : α) : NeverRaises cause (Pure.pure a : Handler α) := fun _ _ _ h => nomatch h

theorem NeverRaises.bind {h : Handler α} {k : α → Handler β} (hh : NeverRaises cause h)
    (hk : ∀ a, NeverRaises cause (k a)) : NeverRaises cause (h >>= k) := by
  intro s e u he
  rw [bind_apply] at he
  split at he
  · exact hk _ _ _ _ he
  · rename_i hs
    cases he
    exact hh _ _ _ hs

theorem neverRaises_get : NeverRaises cause (MonadState.get : Handler State) := fun _ _ _ h => nomatch h

theorem neverRaises_outPush (v : Word) : NeverRaises cause (outPush v) := fun _ _ _ h => nomatch h

theorem neverRaises_setOyp (b : Bool) : NeverRaises cause (setOyp b) := fun _ _ _ h => nomatch h

/-- A read is never a write. -/
theorem opRead_neverRaises_incompatibleMode (i : Nat) : NeverRaises .incompatibleMode (opRead ops i) := by
  intro s e u he
  rw [opRead_apply] at he
  split at he
  · cases he
  · rename_i hread
    cases he
    rcases readOperand_error hread with hc | hc | hc | hc <;> simp [hc]

theorem outHandler_neverRaises_incompatibleMode : NeverRaises .incompatibleMode (outHandler ops) := by
  refine .bind neverRaises_get fun s => ?_
  split
  · split
    · exact .bind (neverRaises_setOyp _) fun _ => .pure _
    · exact .bind (opRead_neverRaises_incompatibleMode _) fun _ => .bind (neverRaises_outPush _) fun _ =>
        .bind (neverRaises_setOyp _) fun _ => .pure _
  · exact .bind (opRead_neverRaises_incompatibleMode _) fun _ => .bind (neverRaises_outPush _) fun _ => .pure _

theorem jumpHandler_neverRaises_incompatibleMode (taken : Word → Bool) :
    NeverRaises .incompatibleMode (jumpHandler taken ops) :=
  .bind (opRead_neverRaises_incompatibleMode _) fun _ => .bind (opRead_neverRaises_incompatibleMode _) fun _ => .pure _

theorem arbHandler_neverRaises_incompatibleMode : NeverRaises .incompatibleMode (arbHandler ops) :=
  .bind (opRead_neverRaises_incompatibleMode _) fun _ => .pure _

end Raises

/-- The causes that applying a directive can record. -/
theorem afterDirective_cause {ip0 n : Nat} :
    (afterDirective ip0 n d u).fault = u.fault ∨
      (afterDirective ip0 n d u).fault.cause ∈ [some .unexpectedEndOfProgram, some .negativeAddress,
        some .arithmeticOverflow] := by
  have moved (a : Nat) (w : State) : (movedTo ip0 a w).fault = w.fault ∨
      (movedTo ip0 a w).fault.cause = some .unexpectedEndOfProgram := by
    unfold movedTo
    split
    · exact .inl rfl
    · exact .inr rfl
  have moved_mem (a : Nat) (w : State) (hw : w.fault = u.fault) : (movedTo ip0 a w).fault = u.fault ∨
      (movedTo ip0 a w).fault.cause ∈ [some .unexpectedEndOfProgram, some .negativeAddress,
        some .arithmeticOverflow] := by
    rcases moved a w with he | he
    · exact .inl (he.trans hw)
    · exact .inr (by simp [he])
  cases d with
  | quit => exact .inl rfl
  | cont => exact moved_mem _ u rfl
  | jumpTo x =>
    by_cases hx : x < 0
    · rw [afterDirective_jumpTo_of_neg hx]
      exact .inr (by simp)
    · rw [afterDirective_jumpTo_of_nonneg (Int.not_lt.1 hx)]
      exact moved_mem _ u rfl
  | adjustRelativeBase x =>
    cases hr : addW u.params u.rb x with
    | error trap =>
      rw [afterDirective_adjust_of_error hr]
      exact .inr (by simp [addW_error hr])
    | ok r =>
      rw [afterDirective_adjust_of_ok hr]
      exact moved_mem _ { u with rb := r } rfl

/-- An instruction whose handler never raises the cause does not come to record it. -/
theorem exec_cause_ne_incompatibleMode {i : Instr} (hs : s.fault.cause ≠ some .incompatibleMode)
    (hn : NeverRaises .incompatibleMode (handlerOf s.params i (bindOps s.rb i.operands))) (he : exec i s = .next t) :
    t.fault.cause ≠ some .incompatibleMode := by
  obtain ⟨t', ht', hc⟩ := exec_cases i s
  cases he.symm.trans ht'
  rcases hc with ⟨trap, u, hh, -, -, rfl⟩ | ⟨d, u, -, ⟨⟨-, -, -, -, -, hf, -⟩, -⟩, rfl⟩
  · exact fun h => hn _ _ _ hh (Option.some.inj h)
  · rcases afterDirective_cause (d := d) (u := u) (ip0 := s.ip) (n := i.operands.length) with hfault | hcause
    · rwa [hfault, hf]
    · intro h
      simp [h] at hcause

/-- Settles O18: an Immediate operand has no address to store to, and the other five never store. -/
theorem writeThroughImmediateAlwaysFails : Obligations.WriteThroughImmediateAlwaysFails := by
  have store_error (s : State) (l : List Operand) (i : Nat) (raw v : Word) (hi : l[i]? = some ⟨.immediate, raw⟩) :
      storeOperand s (s.bind l) i v = .error ⟨.incompatibleMode, i⟩ :=
    storeOperand_of_target_error (targetOperand_of_immediate hi rfl)
  refine ⟨store_error, fun s l raw a b r hi h0 h1 => ?three, fun s l raw v rest hi hq => ?inp,
    fun s t l mk hmk hs he => ?others, rfl⟩
  case three =>
    have raises {mk f} {r : Word} (hr : Runs mk fun _ => arithmeticHandler f) (hf : f s.params a b = .ok r) :
        exec (mk l) s = .next (enterFault s.ip ⟨.incompatibleMode, 2⟩ s) :=
      hr.exec_of_error (arithmeticHandler_of_store_error h0 h1 hf (store_error s l 2 raw r hi))
    exact ⟨raises runs_add, raises runs_mul, raises runs_lt rfl, raises runs_eq rfl⟩
  case inp => exact runs_inp.exec_of_error (inHandler_of_store_error hq (store_error s l 0 raw v hi))
  case others =>
    simp only [List.mem_cons, List.not_mem_nil, or_false] at hmk
    refine exec_cause_ne_incompatibleMode hs ?_ he
    rcases hmk with rfl | rfl | rfl | rfl | rfl
    · exact outHandler_neverRaises_incompatibleMode
    · exact jumpHandler_neverRaises_incompatibleMode _
    · exact jumpHandler_neverRaises_incompatibleMode _
    · exact arbHandler_neverRaises_incompatibleMode
    · exact .pure _

end Sys2Proof.Machine

/-! Frames of the reference instructions (40_execution_loop.md R107, R109, R118-R122), and custom handlers
(40_execution_loop.md R110): what their trees do, and what they leave alone whatever the tree. -/

namespace Sys2Proof.Machine

variable {mk : List Operand → Instr} {s t u : State} {l : List Operand} {ops : List Op} {trap : Trap} {d : Directive}
  {f : Params → Word → Word → Except Trap Word} {v x : Word} {ip0 n a : Nat}

/-! ### What a handler's end leaves of the state it began on -/

@[simp] theorem movedTo_mem : (movedTo ip0 a u).mem = u.mem := by
  unfold movedTo
  split <;> rfl

/-- A move changes `ip`, and on a failed end check status and record. -/
theorem movedTo_frame :
    movedTo ip0 a u = { u with
      ip := (movedTo ip0 a u).ip, status := (movedTo ip0 a u).status, fault := (movedTo ip0 a u).fault } ∧
    ((movedTo ip0 a u).status ≠ .faulted →
      (movedTo ip0 a u).status = u.status ∧ (movedTo ip0 a u).fault = u.fault) := by
  unfold movedTo
  split
  · exact ⟨rfl, fun _ => ⟨rfl, rfl⟩⟩
  · exact ⟨rfl, fun h => absurd rfl h⟩

theorem arithmeticHandler_eq_error (h : arithmeticHandler f ops s = .error trap u) : u = s := by
  rw [arithmeticHandler_apply] at h
  split at h
  · cases h; rfl
  · split at h
    · cases h; rfl
    · split at h
      · cases h; rfl
      · split at h <;> cases h
        rfl

theorem arithmeticHandler_eq_ok (h : arithmeticHandler f ops s = .ok d u) :
    d = .cont ∧ ∃ r m, storeOperand s ops 2 r = .ok m ∧ u = { s with mem := m } := by
  rw [arithmeticHandler_apply] at h
  split at h
  · cases h
  · split at h
    · cases h
    · split at h
      · cases h
      · rename_i r _
        split at h
        · cases h
        · rename_i m hst
          cases h
          exact ⟨rfl, r, m, hst, rfl⟩

theorem inHandler_eq_error (h : inHandler ops s = .error trap u) : u = { s with inq := s.inq.tail } := by
  cases hq : s.inq with
  | nil => cases (inHandler_of_empty hq).symm.trans h
  | cons v rest =>
    cases hst : storeOperand s ops 0 v with
    | error e =>
      cases (inHandler_of_store_error hq hst).symm.trans h
      rfl
    | ok m => cases (inHandler_of_store hq hst).symm.trans h

theorem inHandler_eq_ok (h : inHandler ops s = .ok d u) :
    (d = .quit ∧ s.inq = [] ∧ u = s) ∨
      d = .cont ∧ ∃ v rest m, s.inq = v :: rest ∧ storeOperand s ops 0 v = .ok m ∧
        u = { s with inq := rest, mem := m } := by
  cases hq : s.inq with
  | nil =>
    cases (inHandler_of_empty hq).symm.trans h
    exact .inl ⟨rfl, rfl, rfl⟩
  | cons v rest =>
    cases hst : storeOperand s ops 0 v with
    | error e => cases (inHandler_of_store_error hq hst).symm.trans h
    | ok m =>
      cases (inHandler_of_store hq hst).symm.trans h
      exact .inr ⟨rfl, v, rest, m, rfl, hst, rfl⟩

theorem jumpHandler_eq_error {taken : Word → Bool} (h : jumpHandler taken ops s = .error trap u) : u = s := by
  rw [jumpHandler_apply] at h
  split at h
  · cases h; rfl
  · split at h <;> cases h
    rfl

theorem jumpHandler_eq_ok {taken : Word → Bool} (h : jumpHandler taken ops s = .ok d u) :
    u = s ∧ (d = .cont ∨ ∃ x, d = .jumpTo x) := by
  refine ⟨?_, returns_jumpHandler taken _ _ _ h⟩
  rw [jumpHandler_apply] at h
  split at h
  · cases h
  · split at h <;> cases h
    rfl

theorem arbHandler_eq_error (h : arbHandler ops s = .error trap u) : u = s := by
  rw [arbHandler_apply] at h
  split at h <;> cases h
  rfl

theorem arbHandler_eq_ok (h : arbHandler ops s = .ok d u) : u = s ∧ ∃ x, d = .adjustRelativeBase x := by
  rw [arbHandler_apply] at h
  split at h <;> cases h
  exact ⟨rfl, _, rfl⟩

/-- The three ways OUT's handler returns: the push without OUTPUT_YIELD, the yield, and the resumed OUT. -/
theorem outHandler_eq_ok (h : outHandler ops s = .ok d u) :
    (∃ v, s.params.outputYield = false ∧ readOperand s ops 0 = .ok v ∧ d = .cont ∧
        u = { s with outq := s.outq ++ [v] }) ∨
      (∃ v, s.params.outputYield = true ∧ s.oyp = false ∧ readOperand s ops 0 = .ok v ∧ d = .quit ∧
        u = { s with outq := s.outq ++ [v], oyp := true }) ∨
      s.params.outputYield = true ∧ s.oyp = true ∧ d = .cont ∧ u = { s with oyp := false } := by
  cases hy : s.params.outputYield with
  | false =>
    rw [outHandler_apply_plain _ _ hy] at h
    split at h <;> cases h
    exact .inl ⟨_, rfl, by assumption, rfl, rfl⟩
  | true =>
    cases ho : s.oyp with
    | false =>
      rw [outHandler_apply_yield _ _ hy ho] at h
      split at h <;> cases h
      exact .inr (.inl ⟨_, rfl, rfl, by assumption, rfl, rfl⟩)
    | true =>
      cases (outHandler_apply_resumed _ _ hy ho).symm.trans h
      exact .inr (.inr ⟨rfl, rfl, rfl, rfl⟩)

theorem outHandler_eq_error (h : outHandler ops s = .error trap u) : u = s := by
  cases hy : s.params.outputYield with
  | false =>
    rw [outHandler_apply_plain _ _ hy] at h
    split at h <;> cases h
    rfl
  | true =>
    cases ho : s.oyp with
    | false =>
      rw [outHandler_apply_yield _ _ hy ho] at h
      split at h <;> cases h
      rfl
    | true => cases (outHandler_apply_resumed _ _ hy ho).symm.trans h

/-! ### Frames -/

theorem exists_runs_of_mem_threeOperand (hmk : mk ∈ [Instr.add, Instr.mul, Instr.lt, Instr.eq]) :
    ∃ f, Runs mk fun _ => arithmeticHandler f := by
  simp only [List.mem_cons, List.not_mem_nil, or_false] at hmk
  rcases hmk with rfl | rfl | rfl | rfl
  · exact ⟨_, runs_add⟩
  · exact ⟨_, runs_mul⟩
  · exact ⟨_, runs_lt⟩
  · exact ⟨_, runs_eq⟩

/-- What a store through operand `i` leaves: the policy, and what every other address reads as. -/
theorem storeOperand_frame {i : Nat} {m : Memory} (hw : s.mem.wf) (h : storeOperand s ops i v = .ok m) :
    m.policy = s.mem.policy ∧
      (∀ d, targetOperand s.params ops i = .ok d → ∀ a, a ≠ d → m.read a = s.mem.read a) ∧
      ∀ trap, targetOperand s.params ops i ≠ .error trap := by
  obtain ⟨d, ht, hm⟩ := storeOperand_eq_ok h
  refine ⟨Memory.write_policy hm, fun d' hd' a ha => ?_, fun trap he => nomatch ht.symm.trans he⟩
  cases ht.symm.trans hd'
  exact Memory.read_write_other hw hm ha

/-- Settles O46: the one effect before the end check is the store. -/
theorem threeOperandFrame : Obligations.ThreeOperandFrame := by
  intro s t l mk hmk hw he
  obtain ⟨f, hr⟩ := exists_runs_of_mem_threeOperand hmk
  rcases hr.exec_inv he with ⟨trap, u, hh, rfl⟩ | ⟨d, u, hh, rfl⟩
  · obtain rfl := arithmeticHandler_eq_error hh
    exact ⟨rfl, fun h => absurd rfl h, rfl, fun _ _ _ _ => rfl, fun _ _ => rfl⟩
  · obtain ⟨rfl, r, m, hst, rfl⟩ := arithmeticHandler_eq_ok hh
    obtain ⟨hpol, hother, htarget⟩ := storeOperand_frame hw hst
    obtain ⟨hframe, hstatus⟩ := movedTo_frame (ip0 := s.ip) (a := s.ip + 1 + l.length) (u := { s with mem := m })
    rw [afterDirective_cont, movedTo_mem]
    exact ⟨hframe, hstatus, hpol, hother, fun trap h => absurd h (htarget trap)⟩

/-- Settles O47: the pop, the store, the end check. -/
theorem inFrame : Obligations.InFrame := by
  intro s t l hw he
  rcases runs_inp.exec_inv he with ⟨trap, u, hh, rfl⟩ | ⟨d, u, hh, rfl⟩
  · obtain rfl := inHandler_eq_error hh
    exact ⟨rfl, fun h => absurd rfl h, rfl, fun _ _ _ _ => rfl, fun _ _ => rfl⟩
  · rcases inHandler_eq_ok hh with ⟨rfl, hq, rfl⟩ | ⟨rfl, v, rest, m, hq, hst, rfl⟩
    · have htail : u.inq = u.inq.tail := by rw [hq, List.tail_nil]
      exact ⟨congrArg (fun q => { u with status := .halted, inq := q }) htail, fun _ => rfl, rfl,
        fun _ _ _ _ => rfl, fun _ _ => rfl⟩
    · obtain ⟨hpol, hother, htarget⟩ := storeOperand_frame hw hst
      obtain ⟨hframe, hstatus⟩ :=
        movedTo_frame (ip0 := s.ip) (a := s.ip + 1 + l.length) (u := { s with inq := rest, mem := m })
      rw [afterDirective_cont, movedTo_mem, hq, List.tail_cons]
      exact ⟨hframe, fun h => (hstatus h).2, hpol, hother, fun trap h => absurd h (htarget trap)⟩

/-- The end of a step on the state its handler left, for a directive that cannot move the base. -/
theorem afterDirective_frame (hd : ∀ x, d ≠ .adjustRelativeBase x) :
    afterDirective ip0 n d u = { u with
      ip := (afterDirective ip0 n d u).ip, status := (afterDirective ip0 n d u).status,
      fault := (afterDirective ip0 n d u).fault } := by
  obtain ⟨hframe, -, hrb | ⟨x, hx, -⟩⟩ := directiveEnd_frame (afterDirective_cases ip0 n d u)
  · exact hframe.trans (by rw [hrb])
  · exact absurd hx (hd x)

/-- Frame of the jumps. -/
theorem Runs.jump_frame {taken : Word → Bool} (hr : Runs mk fun _ => jumpHandler taken)
    (he : exec (mk l) s = .next t) :
    t = { s with ip := t.ip, status := t.status, fault := t.fault } ∧
      (t.status ≠ .faulted → t.status = s.status ∧ t.fault = s.fault) := by
  rcases hr.exec_inv he with ⟨trap, u, hh, rfl⟩ | ⟨d, u, hh, rfl⟩
  · obtain rfl := jumpHandler_eq_error hh
    exact ⟨rfl, fun h => absurd rfl h⟩
  · obtain ⟨rfl, hd⟩ := jumpHandler_eq_ok hh
    obtain ⟨-, hstatus, -⟩ := directiveEnd_frame (afterDirective_cases u.ip l.length d u)
    have hquit : d ≠ .quit := by rcases hd with rfl | ⟨x, rfl⟩ <;> nofun
    have hadjust (x : Word) : d ≠ .adjustRelativeBase x := by rcases hd with rfl | ⟨y, rfl⟩ <;> nofun
    exact ⟨afterDirective_frame hadjust, fun h => ⟨(hstatus h).2 hquit, (hstatus h).1⟩⟩

theorem exec_hlt (s : State) (l : List Operand) : exec (.hlt l) s = .next { s with status := .halted } :=
  runs_hlt.exec_of_quit (haltHandler_apply _ s)

theorem exec_arb_frame (he : exec (.arb l) s = .next t) :
    t = { s with ip := t.ip, rb := t.rb, status := t.status, fault := t.fault } ∧
      (t.status ≠ .faulted → t.status = s.status ∧ t.fault = s.fault) := by
  rcases runs_arb.exec_inv he with ⟨trap, u, hh, rfl⟩ | ⟨d, u, hh, rfl⟩
  · obtain rfl := arbHandler_eq_error hh
    exact ⟨rfl, fun h => absurd rfl h⟩
  · obtain ⟨rfl, x, rfl⟩ := arbHandler_eq_ok hh
    obtain ⟨hframe, hstatus, -⟩ := directiveEnd_frame (afterDirective_cases u.ip l.length (.adjustRelativeBase x) u)
    exact ⟨hframe, fun h => ⟨(hstatus h).2 nofun, (hstatus h).1⟩⟩

/-- What OUT's handler leaves: nothing but the output channel and the latch changes. -/
theorem outHandler_frame (hh : outHandler ops s = .ok d u) :
    u = { s with outq := u.outq, oyp := u.oyp } ∧
      (u.outq = s.outq ∨ ∃ v, readOperand s ops 0 = .ok v ∧ u.outq = s.outq ++ [v]) ∧
      (s.params.outputYield = false → u.oyp = s.oyp) := by
  rcases outHandler_eq_ok hh with ⟨v, -, hv, -, rfl⟩ | ⟨v, hy, -, hv, -, rfl⟩ | ⟨hy, -, -, rfl⟩
  · exact ⟨rfl, .inr ⟨v, hv, rfl⟩, fun _ => rfl⟩
  · exact ⟨rfl, .inr ⟨v, hv, rfl⟩, fun hn => nomatch hn.symm.trans hy⟩
  · exact ⟨rfl, .inl rfl, fun hn => nomatch hn.symm.trans hy⟩

theorem exec_out_frame (he : exec (.out l) s = .next t) :
    t = { s with ip := t.ip, status := t.status, fault := t.fault, outq := t.outq, oyp := t.oyp } ∧
      (t.status ≠ .faulted → t.fault = s.fault) ∧
      (t.outq = s.outq ∨ ∃ v, readOperand s (s.bind l) 0 = .ok v ∧ t.outq = s.outq ++ [v]) ∧
      (s.params.outputYield = false → t.oyp = s.oyp) := by
  rcases runs_out.exec_inv he with ⟨trap, u, hh, rfl⟩ | ⟨d, u, hh, ht⟩
  · obtain rfl := outHandler_eq_error hh
    exact ⟨rfl, fun h => absurd rfl h, .inl rfl, fun _ => rfl⟩
  · obtain ⟨hu, hpush, hlatch⟩ := outHandler_frame hh
    have hadjust (x : Word) : d ≠ .adjustRelativeBase x := by
      rcases returns_outHandler _ _ _ hh with rfl | rfl <;> nofun
    obtain ⟨-, hstatus, -⟩ := directiveEnd_frame (afterDirective_cases s.ip l.length d u)
    have hframe := afterDirective_frame (ip0 := s.ip) (n := l.length) (u := u) hadjust
    rw [← ht] at hframe hstatus
    rw [hu] at hframe
    have houtq : t.outq = u.outq := by rw [hframe]
    have hoyp : t.oyp = u.oyp := by rw [hframe]
    rw [houtq, hoyp]
    exact ⟨hframe, fun h => (hstatus h).1.trans (by rw [hu]), hpush, hlatch⟩

/-- Settles O48: one frame for each of the forms. -/
theorem nonStoringFrame : Obligations.NonStoringFrame := by
  intro s t l
  refine ⟨fun mk hmk he => ?jump, fun he => ?hlt, exec_arb_frame, exec_out_frame⟩
  case jump =>
    simp only [List.mem_cons, List.not_mem_nil, or_false] at hmk
    rcases hmk with rfl | rfl
    · exact runs_jt.jump_frame he
    · exact runs_jf.jump_frame he
  case hlt =>
    cases (exec_hlt s l).symm.trans he
    rfl

/-! ### Custom handlers -/

/-- Settles O33: the equation of each node, a word being its own wrapping. -/
theorem actionTreesRunInOrder : Obligations.ActionTreesRunInOrder := by
  intro s ops i v hb hv
  have hcast := wrapWord_of_inWord hb hv
  refine ⟨fun k w h => ?read, fun k trap h => ?readError, fun k m h => ?write, fun k trap h => ?writeError,
    fun k h => ?empty, fun k w rest h => ?pop, fun k => ?push, rfl, rfl, ?jump, ?adjust⟩
  case read => simp only [runAction_read, h]
  case readError => simp only [runAction_read, h]
  case write => simp only [runAction_write, hcast, h]
  case writeError => simp only [runAction_write, hcast, h]
  case empty => simp only [runAction_inPop, h]
  case pop => simp only [runAction_inPop, h]
  case push => rw [runAction_outPush, hcast]
  case jump => simp only [runAction_ret, castDirective, bind_apply, castWord_apply hb hv, pure_apply]
  case adjust => simp only [runAction_ret, castDirective, bind_apply, castWord_apply hb hv, pure_apply]

/-- Settles O34: the end of the tree is the end of the handler, and its directive is applied. -/
theorem customRunsItsTree : Obligations.CustomRunsItsTree := by
  intro s u k l
  have hr := runs_custom k
  refine ⟨hr.exec_of_quit, hr.exec_of_fits, fun t hh ht hfits => ?jump, fun x r hh hx hfits => ?adjust,
    fun trap => hr.exec_of_error, fun t hh ht => ?negative, fun t hh ht hfits => ?jumpPast,
    fun x trap hh hx => ?overflow, fun hfits => ⟨fun hh => hr.exec_of_ranPast hh hfits, fun x r hh hx => ?adjustPast⟩⟩
  case jump => rw [hr.exec_of_ok hh, afterDirective_jumpTo_of_nonneg ht, movedTo_of_fits hfits]
  case adjust =>
    rw [hr.exec_of_ok hh, afterDirective_adjust_of_ok hx, movedTo_of_fits (s := { u with rb := r }) hfits]
  case negative => rw [hr.exec_of_ok hh, afterDirective_jumpTo_of_neg ht]
  case jumpPast => rw [hr.exec_of_ok hh, afterDirective_jumpTo_of_nonneg ht, movedTo_of_not_fits hfits]
  case overflow => rw [hr.exec_of_ok hh, afterDirective_adjust_of_error hx]
  case adjustPast =>
    rw [hr.exec_of_ok hh, afterDirective_adjust_of_ok hx, movedTo_of_not_fits (s := { u with rb := r }) hfits]

/-- The tree of COPY (95_test_vectors.md section 2.10). -/
theorem codeTree_copyProgram : codeTree copyProgram [] = .read 0 fun v => .write 1 v (.ret .cont) := rfl

/-- Settles O35: the tree of COPY is one read and one write of the word read. -/
theorem customCopyCopies : Obligations.CustomCopyCopies := by
  intro s k l v m hb hk h0 hv hst hfits
  have hcustom : customTree s.params k = .read 0 fun v => .write 1 v (.ret .cont) := by
    rw [customTree, hk]
    exact codeTree_copyProgram
  have hh : customHandler s.params k (s.bind l) s = .ok .cont { s with mem := m } := by
    simp only [customHandler, hcustom, runAction_read, h0, runAction_write, wrapWord_of_inWord hb hv, hst]
    rfl
  exact (runs_custom k).exec_of_fits hh hfits

/-- `u` is `s` after part of a custom handler on operands `ops`: queues lost at the front and gained at the end, and
memory changed at operand addresses only. -/
def CustomEffect (ops : List Op) (s u : State) : Prop :=
  u.mem.wf ∧ u.params = s.params ∧ u.oyp = s.oyp ∧ (∃ n, u.inq = s.inq.drop n) ∧ (∃ ws, u.outq = s.outq ++ ws) ∧
    ∀ a, (∀ j, targetOperand s.params ops j ≠ .ok a) → u.mem.read a = s.mem.read a

theorem CustomEffect.refl (hw : s.mem.wf) : CustomEffect ops s s :=
  ⟨hw, rfl, rfl, ⟨0, rfl⟩, ⟨[], (List.append_nil _).symm⟩, fun _ _ => rfl⟩

theorem CustomEffect.write {i : Nat} {d : Int} {m : Memory} (h : CustomEffect ops s u)
    (ht : targetOperand u.params ops i = .ok d) (hm : u.mem.write u.params d v = .ok m) :
    CustomEffect ops s { u with mem := m } := by
  obtain ⟨hw, hp, ho, hin, hout, hread⟩ := h
  refine ⟨Memory.write_wf hw hm, hp, ho, hin, hout, fun a ha => ?_⟩
  have hne : a ≠ d := fun had => ha i (had ▸ hp ▸ ht)
  exact (Memory.read_write_other hw hm hne).trans (hread a ha)

theorem CustomEffect.pop {rest : List Word} (h : CustomEffect ops s u) (hq : u.inq = v :: rest) :
    CustomEffect ops s { u with inq := rest } := by
  obtain ⟨hw, hp, ho, ⟨n, hn⟩, hout, hread⟩ := h
  refine ⟨hw, hp, ho, ⟨n + 1, ?_⟩, hout, hread⟩
  rw [← List.tail_drop, ← hn, hq, List.tail_cons]

theorem CustomEffect.push (h : CustomEffect ops s u) : CustomEffect ops s { u with outq := u.outq ++ [v] } := by
  obtain ⟨hw, hp, ho, hin, ⟨ws, hws⟩, hread⟩ := h
  exact ⟨hw, hp, ho, hin, ⟨ws ++ [v], by simp only [hws, List.append_assoc]⟩, hread⟩

/-- Every tree keeps the effect, however it ends. -/
theorem meets_runAction_customEffect (tree : HAction) :
    Meets (CustomEffect ops s) (runAction ops tree) (fun _ => CustomEffect ops s) fun _ => CustomEffect ops s := by
  have cast (w : Int) : Meets (CustomEffect ops s) (castWord w) (fun _ => CustomEffect ops s)
      fun _ => CustomEffect ops s := Meets.castWord.imp (fun _ h => h) (fun _ _ h => h.1) fun _ _ h => h
  induction tree with
  | read i k ih =>
    exact .bind (Meets.opRead.imp (fun _ h => h) (fun _ _ h => h.1) fun _ _ h => h.1) ih
  | write i w k ih =>
    refine .bind (cast w) fun w' => .bind (Q := fun _ => CustomEffect ops s) ?_ fun _ => ih
    exact (Meets.opWrite fun _ _ _ hu ht hm => hu.write ht hm).imp (fun _ h => h) (fun _ _ h => h) fun _ _ h => h.1
  | inPop k ih =>
    exact .bind (Meets.inPop (Q := fun _ => CustomEffect ops s) (fun _ hu _ => hu) fun _ _ _ hu hq => hu.pop hq) ih
  | outPush w k ih =>
    exact .bind (cast w) fun _ =>
      .bind (Meets.outPush (Q := fun _ => CustomEffect ops s) fun _ hu => hu.push) fun _ => ih
  | ret d =>
    cases d with
    | cont => exact .pure fun _ hu => hu
    | quit => exact .pure fun _ hu => hu
    | jumpTo x => exact .bind (cast x) fun _ => .pure fun _ hu => hu
    | adjustRelativeBase x => exact .bind (cast x) fun _ => .pure fun _ hu => hu

/-- Settles O49: the tree's effect, and then a change of `rb`, `ip`, `status` and `fault` at most. -/
theorem customFrame : Obligations.CustomFrame := by
  intro s t k l hw he
  obtain ⟨hok, herr⟩ := meets_runAction_customEffect (ops := s.bind l) (s := s) (customTree s.params k) s (.refl hw)
  rcases exec_inv he with ⟨trap, u, hh, ⟨⟨-, -, -, hl, -, -, hpol⟩, -⟩, -, rfl⟩ |
    ⟨d, u, hh, ⟨⟨-, -, -, hl, -, hf, hpol⟩, -⟩, hd⟩
  · obtain ⟨-, hp, ho, hin, hout, hread⟩ := herr _ _ hh
    exact ⟨hp, hl, hpol, ho, fun h => absurd rfl h, hin, hout, hread⟩
  · obtain ⟨-, hp, ho, hin, hout, hread⟩ := hok _ _ hh
    obtain ⟨hframe, hstatus, -⟩ := directiveEnd_frame hd
    refine ⟨?_, ?_, ?_, ?_, fun h => (hstatus h).1.trans hf, ?_⟩ <;> rw [hframe]
    · exact hp
    · exact hl
    · exact hpol
    · exact ho
    · exact ⟨hin, hout, hread⟩

end Sys2Proof.Machine

/-! Proofs about RUN (40_execution_loop.md R124, R127, R131, R132): its loop step by step, a machine that stays FAULTED,
a HLT that stops again, and a jump to itself. -/

namespace Sys2Proof.Machine

variable {α : Type} {s t : State} {n : Nat}

/-! ### The loop -/

theorem betweenRuns_of_not_running (hs : s.status ≠ .running) (r : Except HostError α) :
    Machine.betweenRuns s r = r := if_neg hs

theorem betweenRuns_of_running (hs : s.status = .running) (r : Except HostError α) :
    Machine.betweenRuns s r = .error .runInProgress := if_pos hs

theorem run_of_running (hs : s.status = .running) : run n s = .error .runInProgress := betweenRuns_of_running hs _

theorem run_of_faulted (hs : s.status = .faulted) : run n s = .ok (.returned (.err s.fault) s) := by
  rw [run, betweenRuns_of_not_running (by simp [hs]), if_pos hs]

theorem run_of_halted (hs : s.status = .halted) : run n s = .ok (runLoop n { s with status := .running }) := by
  rw [run, betweenRuns_of_not_running (by simp [hs]), if_neg (by simp [hs])]

theorem runLoop_of_step_running (h : step s = .next t) (ht : t.status = .running) :
    runLoop (n + 1) s = runLoop n t := by
  simp only [runLoop, h, ht, if_true]

theorem runLoop_of_step_stopped (h : step s = .next t) (ht : t.status ≠ .running) :
    runLoop (n + 1) s = .returned (runResult t) t := by
  simp only [runLoop, h, if_neg ht]

theorem runResult_of_halted (hs : s.status = .halted) : runResult s = .ok := by
  simp only [runResult, hs]

theorem runResult_of_faulted (hs : s.status = .faulted) : runResult s = .err s.fault := by
  simp only [runResult, hs]

/-- The fault of a step records `ip` at its start and a cause, whether the fetch raised it or the instruction. -/
theorem step_faulted_record (hs : s.status = .running) (h : step s = .next t) (ht : t.status = .faulted) :
    t.fault.fip = s.ip ∧ t.fault.cause ≠ none := by
  rcases step_cases s with ⟨hn, -⟩ | ⟨-, i, -, he⟩ | ⟨-, trap, -, he⟩
  · exact absurd hs hn
  · exact exec_faulted_record hs (he.symm.trans h) ht
  · cases h.symm.trans he
    exact ⟨rfl, nofun⟩

/-- Settles O56: the three states of a machine at RUN, and the three of a machine after a step. -/
theorem runFollowsItsSteps : Obligations.RunFollowsItsSteps := by
  intro s n
  refine ⟨run_of_running, run_of_faulted, run_of_halted, fun hs => ?_⟩
  obtain ⟨t, h⟩ := step_next s
  refine ⟨t, h, runLoop_of_step_running h, fun ht => ?halted, fun ht => ?faulted⟩
  case halted => rw [runLoop_of_step_stopped h (by simp [ht]), runResult_of_halted ht]
  case faulted =>
    obtain ⟨hfip, hcause⟩ := step_faulted_record hs h ht
    exact ⟨hfip, hcause, by rw [runLoop_of_step_stopped h (by simp [ht]), runResult_of_faulted ht]⟩

/-! ### Machines that stay where they are -/

theorem stepMany_of_not_running (hs : s.status ≠ .running) (n : Nat) : stepMany n s = s := by
  induction n with
  | zero => rfl
  | succ n ih => simp only [stepMany, step_of_not_running hs, ih]

/-- A successful REGISTER changes the table alone. -/
theorem register_eq_ok {c kind : Nat} {k : Fin 256} (h : register c k kind s = .ok t) :
    t = { s with lut := t.lut } := by
  unfold register Machine.betweenRuns at h
  split at h
  · cases h
  · split at h
    · cases h
    · split at h <;> cases h
      rfl

theorem pushInput_eq_ok {v : Int} (h : pushInput v s = .ok t) :
    t = { s with inq := s.inq ++ [wrapWord s.params.wordBits v] } := by
  unfold pushInput Machine.betweenRuns at h
  split at h <;> cases h
  rfl

/-- A successful POP_OUTPUT changes the output channel alone. -/
theorem popOutput_eq_ok {v : Option Word} (h : popOutput s = .ok (v, t)) : t = { s with outq := t.outq } := by
  unfold popOutput Machine.betweenRuns at h
  split at h
  · cases h
  · split at h <;> cases h <;> rfl

/-- Settles O40: no step is taken, and the commands that succeed reach neither status nor record. -/
theorem faultIsTerminal : Obligations.FaultIsTerminal := by
  intro s hs
  refine ⟨stepMany_of_not_running (by simp [hs]), fun n => run_of_faulted hs, fun c k kind t h => ?register,
    fun v t h => ?push, fun v t h => ?pop⟩
  case register => rw [register_eq_ok h]; exact ⟨hs, rfl⟩
  case push => rw [pushInput_eq_ok h]; exact ⟨hs, rfl⟩
  case pop => rw [popOutput_eq_ok h]; exact ⟨hs, rfl⟩

/-- Starting the run does not change what the fetch sees. -/
theorem step_setRunning {i : Instr} (h : fetchInstr s = .ok i) :
    step { s with status := .running } = exec i { s with status := .running } :=
  step_of_fetch_ok rfl ((fetchInstr_congr rfl rfl rfl).trans h)

theorem set_status_of_eq {st : Status} (h : s.status = st) : { s with status := st } = s := by
  subst h
  rfl

/-- Settles O32: a halted machine at a HLT is RUNNING for one step, which gives it back. -/
theorem hltStopsAndStaysStopped : Obligations.HltStopsAndStaysStopped := by
  refine ⟨fun w _ hw => decode_referenceLut (r := ⟨0, .halt⟩) hw (by decide) rfl, exec_hlt, fun s l n hs hf => ?_,
    fun s l l' hq => ?_⟩
  · have hstep : step { s with status := .running } = .next s := by
      rw [step_setRunning hf, exec_hlt]
      exact congrArg _ (set_status_of_eq hs)
    rw [run_of_halted hs, runLoop_of_step_stopped hstep (by simp [hs]), runResult_of_halted hs]
  · exact (exec_hlt s l).trans (inYieldsOnAnEmptyChannel s l' hq).symm

/-- A step that answers its own state is taken until the bound is used up. -/
theorem runLoop_of_fixed (hs : s.status = .running) (h : step s = .next s) (n : Nat) :
    runLoop n s = .inProgress s := by
  induction n with
  | zero => rfl
  | succ n ih => rw [runLoop_of_step_running h hs, ih]

/-- Settles O58: the taken jump answers the state it began on. -/
theorem selfJumpNeverReturns : Obligations.SelfJumpNeverReturns := by
  intro s c n hs hc hfits hf
  have hjump : exec (.jt [⟨.immediate, c⟩, ⟨.immediate, (s.ip : Int)⟩]) { s with status := .running } =
      .next { s with status := .running } :=
    runs_jt.exec_of_taken_fits (readOperand_of_immediate (o := ⟨.immediate, c⟩) rfl rfl)
      (readOperand_of_immediate (o := ⟨.immediate, s.ip⟩) rfl rfl) (conditionHolds_iff.2 hc) (Int.natCast_nonneg _)
      hfits
  rw [run_of_halted hs, runLoop_of_fixed rfl ((step_setRunning hf).trans hjump)]

end Sys2Proof.Machine

/-! Proof of resume idempotence (40_execution_loop.md R129). Queued input that is not reached yet, and OUTPUT_YIELD with
its latch, are parts of the state that a step sees in few places. `State.masked` changes those parts, and every step
that does not see them commutes with it. -/

namespace Sys2Proof.Machine

/-- The state with OUTPUT_YIELD, the latch and the input channel changed, and nothing else. -/
def State.masked (y o : Bool → Bool) (q : List Word → List Word) (s : State) : State :=
  { s with params := { s.params with outputYield := y s.params.outputYield }, oyp := o s.oyp, inq := q s.inq }

/-- A handler's end with its state changed. -/
def mapEnd {α : Type} (g : State → State) : EStateM.Result Trap State α → EStateM.Result Trap State α
  | .ok d u => .ok d (g u)
  | .error e u => .error e (g u)

variable {y o : Bool → Bool} {q : List Word → List Word} {s t u v : State} {ops : List Op} {i : Instr}
  {f : Params → Word → Word → Except Trap Word} {r : RunResult} {n m : Nat} {words : List Word}

theorem withInput_eq_masked (s : State) (words : List Word) : s.withInput words = s.masked id id (· ++ words) := rfl

theorem withoutOutputYield_eq_masked (s : State) :
    s.withoutOutputYield = s.masked (fun _ => false) (fun _ => false) id := rfl

/-! ### What commutes with the change -/

@[simp] theorem readOperand_masked (i : Nat) : readOperand (s.masked y o q) ops i = readOperand s ops i := rfl

@[simp] theorem storeOperand_masked (i : Nat) (w : Word) :
    storeOperand (s.masked y o q) ops i w = storeOperand s ops i w := rfl

theorem fetchInstr_masked : fetchInstr (s.masked y o q) = fetchInstr s := fetchInstr_congr rfl rfl rfl

theorem enterFault_masked (ip0 : Nat) (trap : Trap) :
    enterFault ip0 trap (s.masked y o q) = (enterFault ip0 trap s).masked y o q := rfl

theorem movedTo_masked (ip0 a : Nat) : movedTo ip0 a (s.masked y o q) = (movedTo ip0 a s).masked y o q := by
  by_cases h : ipFits s.params s.mem.len a
  · rw [movedTo_of_fits h]
    exact movedTo_of_fits h
  · rw [movedTo_of_not_fits h]
    exact movedTo_of_not_fits h

theorem afterDirective_masked (ip0 n : Nat) (d : Directive) :
    afterDirective ip0 n d (s.masked y o q) = (afterDirective ip0 n d s).masked y o q := by
  cases d with
  | quit => rfl
  | cont => exact movedTo_masked ip0 (ip0 + 1 + n)
  | jumpTo x =>
    by_cases hx : x < 0
    · rw [afterDirective_jumpTo_of_neg hx, afterDirective_jumpTo_of_neg hx, enterFault_masked]
    · have hx' := Int.not_lt.1 hx
      rw [afterDirective_jumpTo_of_nonneg hx', afterDirective_jumpTo_of_nonneg hx', movedTo_masked]
  | adjustRelativeBase x =>
    cases hr : addW s.params s.rb x with
    | error trap =>
      rw [afterDirective_adjust_of_error hr]
      exact afterDirective_adjust_of_error hr
    | ok r =>
      rw [afterDirective_adjust_of_ok hr, ← movedTo_masked]
      exact afterDirective_adjust_of_ok (u := s.masked y o q) hr

theorem arithmeticHandler_masked (hf : ∀ p b x z, f { p with outputYield := b } x z = f p x z) :
    arithmeticHandler f ops (s.masked y o q) = mapEnd (State.masked y o q) (arithmeticHandler f ops s) := by
  have hf' (a b : Word) : f (s.masked y o q).params a b = f s.params a b := hf _ _ _ _
  simp only [arithmeticHandler_apply, readOperand_masked, storeOperand_masked, hf']
  cases readOperand s ops 0 with
  | error e => rfl
  | ok a =>
    cases readOperand s ops 1 with
    | error e => rfl
    | ok b =>
      simp only
      cases f s.params a b with
      | error e => rfl
      | ok r => simp only; cases storeOperand s ops 2 r <;> rfl

theorem jumpHandler_masked (taken : Word → Bool) :
    jumpHandler taken ops (s.masked y o q) = mapEnd (State.masked y o q) (jumpHandler taken ops s) := by
  simp only [jumpHandler_apply, readOperand_masked]
  cases readOperand s ops 0 with
  | error e => rfl
  | ok c => simp only; cases readOperand s ops 1 <;> rfl

theorem arbHandler_masked : arbHandler ops (s.masked y o q) = mapEnd (State.masked y o q) (arbHandler ops s) := by
  simp only [arbHandler_apply, readOperand_masked]
  cases readOperand s ops 0 <;> rfl

/-- A pop sees the channel's head, and whether there is one. -/
theorem inHandler_masked (hpop : ∀ w rest, q (w :: rest) = w :: q rest) (hnil : s.inq = [] → q [] = []) :
    inHandler ops (s.masked y o q) = mapEnd (State.masked y o q) (inHandler ops s) := by
  cases hq : s.inq with
  | nil =>
    have hq' : (s.masked y o q).inq = [] := (congrArg q hq).trans (hnil hq)
    rw [inHandler_of_empty hq, inHandler_of_empty hq', mapEnd]
  | cons w rest =>
    have hq' : (s.masked y o q).inq = w :: q rest := (congrArg q hq).trans (hpop w rest)
    cases hst : storeOperand s ops 0 w with
    | error e =>
      rw [inHandler_of_store_error hq hst, inHandler_of_store_error hq' (by rw [storeOperand_masked, hst])]
      rfl
    | ok m =>
      rw [inHandler_of_store hq hst, inHandler_of_store hq' (by rw [storeOperand_masked, hst])]
      rfl

theorem runAction_masked (hpop : ∀ w rest, q (w :: rest) = w :: q rest) (hnil : q [] = []) (tree : HAction) :
    runAction ops tree (s.masked y o q) = mapEnd (State.masked y o q) (runAction ops tree s) := by
  induction tree generalizing s with
  | read i k ih =>
    simp only [runAction_read, readOperand_masked]
    cases readOperand s ops i with
    | ok w => exact ih w
    | error e => rfl
  | write i w k ih =>
    have hbits : (s.masked y o q).params.wordBits = s.params.wordBits := rfl
    simp only [runAction_write, storeOperand_masked, hbits]
    cases storeOperand s ops i (wrapWord s.params.wordBits w) with
    | ok m => exact ih (s := { s with mem := m })
    | error e => rfl
  | inPop k ih =>
    simp only [runAction_inPop]
    cases hq : s.inq with
    | nil =>
      have hq' : (s.masked y o q).inq = [] := (congrArg q hq).trans hnil
      simp only [hq']
      exact ih none
    | cons w rest =>
      have hq' : (s.masked y o q).inq = w :: q rest := (congrArg q hq).trans (hpop w rest)
      simp only [hq']
      exact ih (some w) (s := { s with inq := rest })
  | outPush w k ih => exact ih (s := { s with outq := s.outq ++ [wrapWord s.params.wordBits w] })
  | ret d => cases d <;> rfl

/-- OUT sees OUTPUT_YIELD and the latch, but not the input channel. -/
theorem outHandler_masked_inq :
    outHandler ops (s.masked id id q) = mapEnd (State.masked id id q) (outHandler ops s) := by
  cases hy : s.params.outputYield with
  | false =>
    rw [outHandler_apply_plain _ _ hy, outHandler_apply_plain _ (s.masked id id q) hy, readOperand_masked]
    cases readOperand s ops 0 <;> rfl
  | true =>
    cases ho : s.oyp with
    | false =>
      rw [outHandler_apply_yield _ _ hy ho, outHandler_apply_yield _ (s.masked id id q) hy ho, readOperand_masked]
      cases readOperand s ops 0 <;> rfl
    | true =>
      rw [outHandler_apply_resumed _ _ hy ho, outHandler_apply_resumed _ (s.masked id id q) hy ho]
      rfl

/-- Every handler but OUT's commutes with the change, if pops see what they saw. -/
theorem handlerOf_masked (hpop : ∀ w rest, q (w :: rest) = w :: q rest)
    (hnil : (∀ k l, i ≠ .custom k l) ∧ (∀ l, i = .inp l → s.inq ≠ []) ∨ q [] = [])
    (hout : ∀ l, i = .out l → outHandler ops (s.masked y o q) = mapEnd (State.masked y o q) (outHandler ops s)) :
    handlerOf (s.masked y o q).params i ops (s.masked y o q) =
      mapEnd (State.masked y o q) (handlerOf s.params i ops s) := by
  cases i with
  | add l => exact arithmeticHandler_masked (f := addW) fun _ _ _ _ => rfl
  | mul l => exact arithmeticHandler_masked (f := mulW) fun _ _ _ _ => rfl
  | inp l =>
    refine inHandler_masked hpop fun hq => ?_
    rcases hnil with ⟨-, hne⟩ | hnil
    · exact absurd hq (hne l rfl)
    · exact hnil
  | out l => exact hout l rfl
  | jt l => exact jumpHandler_masked _
  | jf l => exact jumpHandler_masked _
  | lt l =>
    rw [runs_lt.handler, runs_lt.handler]
    exact arithmeticHandler_masked fun _ _ _ _ => rfl
  | eq l =>
    rw [runs_eq.handler, runs_eq.handler]
    exact arithmeticHandler_masked fun _ _ _ _ => rfl
  | arb l => exact arbHandler_masked
  | hlt l => rfl
  | custom k l =>
    rcases hnil with ⟨hne, -⟩ | hnil
    · exact absurd rfl (hne k l)
    · exact runAction_masked hpop hnil _

/-- A step whose handler commutes with the change commutes with it. -/
theorem step_masked
    (hh : ∀ i, fetchInstr s = .ok i → handlerOf (s.masked y o q).params i (s.bind i.operands) (s.masked y o q) =
      mapEnd (State.masked y o q) (handlerOf s.params i (s.bind i.operands) s))
    (h : step s = .next t) : step (s.masked y o q) = .next (t.masked y o q) := by
  rcases step_cases s with ⟨hn, he⟩ | ⟨hr, i, hf, he⟩ | ⟨hr, trap, hf, he⟩
  · cases h.symm.trans he
    exact step_of_not_running hn
  · rw [step_of_fetch_ok (s := s.masked y o q) hr (fetchInstr_masked.trans hf)]
    have hm := hh i hf
    rw [he] at h
    cases hs : handlerOf s.params i (s.bind i.operands) s with
    | error trap u =>
      rw [hs] at hm
      cases h.symm.trans (exec_of_error hs)
      exact exec_of_error hm
    | ok d u =>
      rw [hs] at hm
      cases h.symm.trans (exec_of_ok hs)
      rw [← afterDirective_masked]
      exact exec_of_ok hm
  · cases h.symm.trans he
    exact step_of_fetch_error hr (fetchInstr_masked.trans hf)

/-! ### Runs -/

/-- A run that has returned does not need the rest of a larger bound. -/
theorem runLoop_mono (h : runLoop n s = .returned r t) (k : Nat) : runLoop (n + k) s = .returned r t := by
  induction n generalizing s with
  | zero => cases h
  | succ n ih =>
    obtain ⟨v, hv⟩ := step_next s
    rw [Nat.add_right_comm]
    by_cases hr : v.status = .running
    · rw [runLoop_of_step_running hv hr] at h ⊢
      exact ih h
    · rw [runLoop_of_step_stopped hv hr] at h ⊢
      exact h

/-- The state of a run that a step has stopped is the one the step answered. -/
theorem runLoop_returned_of_step_stopped (hv : step s = .next v) (hr : v.status ≠ .running)
    (h : runLoop (n + 1) s = .returned r t) : t = v ∧ r = runResult v := by
  obtain ⟨hres, hst⟩ := RunOutcome.returned.inj ((runLoop_of_step_stopped hv hr).symm.trans h)
  exact ⟨hst.symm, hres.symm⟩

theorem runLoop_returned (h : runLoop n s = .returned r t) : t.status ≠ .running ∧ r = runResult t := by
  induction n generalizing s with
  | zero => cases h
  | succ n ih =>
    obtain ⟨v, hv⟩ := step_next s
    by_cases hr : v.status = .running
    · rw [runLoop_of_step_running hv hr] at h
      exact ih h
    · obtain ⟨rfl, hres⟩ := runLoop_returned_of_step_stopped hv hr h
      exact ⟨hr, hres⟩

/-- `Ok` is the result of a HALTED machine. -/
theorem runLoop_returned_ok (h : runLoop n s = .returned .ok t) : t.status = .halted := by
  obtain ⟨hr, hres⟩ := runLoop_returned h
  cases hst : t.status with
  | halted => rfl
  | running => exact absurd hst hr
  | faulted => cases hres.trans (runResult_of_faulted hst)

theorem runLoop_of_run (hs : s.status = .halted) (h : run n s = .ok (.returned r t)) :
    runLoop n { s with status := .running } = .returned r t := Except.ok.inj ((run_of_halted hs).symm.trans h)

/-! ### The input yield -/

/-- Without custom kinds in the table no custom handler is fetched. -/
theorem fetchInstr_ne_custom (hk : referenceKindsOnly s.lut) (hf : fetchInstr s = .ok i) (k : Fin 0x8000)
    (l : List Operand) : i ≠ .custom k l := by
  rintro rfl
  obtain ⟨w, e, ops, -, -, he, -, hi⟩ := decodeFrom_eq_ok hf
  refine hk ⟨w.toNat % 100, Nat.mod_lt _ (by decide)⟩ e k he ?_
  rw [← ofKind_kind e.kind ops, ← hi]
  rfl

/-- A reference handler that returns `Quit` has changed nothing, unless it is OUT's. -/
theorem handlerOf_eq_quit (hi : ∀ k l, i ≠ .custom k l) {p : Params} (h : handlerOf p i ops s = .ok .quit u) :
    u = s ∨ ∃ l, i = .out l := by
  have no_quit {g : Params → Word → Word → Except Trap Word} : arithmeticHandler g ops s ≠ .ok .quit u :=
    fun he => nomatch (arithmeticHandler_eq_ok he).1
  cases i with
  | add l => exact absurd h no_quit
  | mul l => exact absurd h no_quit
  | inp l =>
    rcases inHandler_eq_ok h with ⟨-, -, rfl⟩ | ⟨hd, -⟩
    · exact .inl rfl
    · cases hd
  | out l => exact .inr ⟨l, rfl⟩
  | jt l => exact .inl (jumpHandler_eq_ok h).1
  | jf l => exact .inl (jumpHandler_eq_ok h).1
  | lt l => exact absurd ((runs_lt.handler p l ops s).symm.trans h) no_quit
  | eq l => exact absurd ((runs_eq.handler p l ops s).symm.trans h) no_quit
  | arb l => exact .inl (arbHandler_eq_ok h).1
  | hlt l =>
    cases h
    exact .inl rfl
  | custom k l => exact absurd rfl (hi k l)

/-- A step that halts before an IN has changed nothing but the status. -/
theorem step_halted_at_inp {l : List Operand} (hk : referenceKindsOnly s.lut) (hs : s.status = .running)
    (h : step s = .next t) (ht : t.status = .halted) (hf : fetchInstr t = .ok (.inp l)) :
    s = { t with status := .running } := by
  rcases step_cases s with ⟨hn, -⟩ | ⟨-, i, hfi, he⟩ | ⟨-, trap, -, he⟩
  · exact absurd hs hn
  · obtain ⟨u, hu, -, rfl⟩ := exec_eq_halted hs (he.symm.trans h) ht
    rcases handlerOf_eq_quit (fetchInstr_ne_custom hk hfi) hu with rfl | ⟨l', rfl⟩
    · exact (set_status_of_eq hs).symm
    · obtain ⟨hframe, -⟩ := outHandler_frame hu
      have hsame : fetchInstr { u with status := .halted } = fetchInstr s :=
        fetchInstr_congr (by rw [hframe]) (by rw [hframe]) (by rw [hframe])
      cases hf.symm.trans (hsame.trans hfi)
  · cases h.symm.trans he
    cases ht

/-- A step that leaves the machine RUNNING does not see input queued behind what is there. -/
theorem step_withInput (hk : referenceKindsOnly s.lut) (h : step s = .next t) (ht : t.status = .running) :
    step (s.withInput words) = .next (t.withInput words) := by
  refine step_masked (q := (· ++ words)) (fun i hf => handlerOf_masked (fun _ _ => rfl)
    (.inl ⟨fetchInstr_ne_custom hk hf, fun l hi hq => ?_⟩) fun _ _ => outHandler_masked_inq) h
  subst hi
  by_cases hs : s.status = .running
  · cases ((step_of_fetch_ok hs hf).symm.trans h).symm.trans (inYieldsOnAnEmptyChannel s l hq)
    cases ht
  · cases (step_of_not_running hs).symm.trans h
    exact hs ht

theorem runLoop_resumed_input {l : List Operand} (hk : referenceKindsOnly s.lut) (hs : s.status = .running)
    (h : runLoop n s = .returned .ok u) (hf : fetchInstr u = .ok (.inp l))
    (hm : runLoop m { u.withInput words with status := .running } = .returned r t) :
    runLoop (n + m) (s.withInput words) = .returned r t := by
  induction n generalizing s with
  | zero => cases h
  | succ n ih =>
    obtain ⟨v, hv⟩ := step_next s
    by_cases hr : v.status = .running
    · rw [runLoop_of_step_running hv hr] at h
      rw [Nat.add_right_comm, runLoop_of_step_running (step_withInput hk hv hr) hr]
      exact ih ((programsNeverChangeTheTable s v hv).1 ▸ hk) hr h
    · have hu := runLoop_returned_ok h
      obtain ⟨rfl, -⟩ := runLoop_returned_of_step_stopped hv hr h
      rw [step_halted_at_inp hk hs hv hu hf, Nat.add_comm]
      exact runLoop_mono hm (n + 1)

/-! ### The output yield -/

/-- A step that is no output yield: a fetched OUT cannot read its operand. -/
def NoOutputYield (s : State) : Prop :=
  ∀ l, s.status = .running → fetchInstr s = .ok (.out l) → ∃ e, readOperand s (s.bind l) 0 = .error e

/-- A step with the latch clear that is no output yield sees neither OUTPUT_YIELD nor the latch. -/
theorem step_masked_of_noOutputYield (ho : s.oyp = false) (hn : NoOutputYield s) (hoff : o false = false)
    (h : step s = .next t) : step (s.masked y o id) = .next (t.masked y o id) := by
  by_cases hs : s.status = .running
  · refine step_masked (fun i hf => handlerOf_masked (fun _ _ => rfl) (.inr rfl) fun l hi => ?_) h
    subst hi
    obtain ⟨e, he⟩ := hn l hs hf
    have ho' : (s.masked y o id).oyp = false := (congrArg o ho).trans hoff
    exact (outHandler_of_read_error (fun _ => ho') he).trans
      (congrArg (mapEnd _) (outHandler_of_read_error (fun _ => ho) he).symm)
  · cases (step_of_not_running hs).symm.trans h
    exact step_of_not_running hs

/-- Such a step leaves the latch clear: clearing a clear latch before it and after it changes nothing. -/
theorem oyp_of_noOutputYield (ho : s.oyp = false) (hn : NoOutputYield s) (h : step s = .next t) : t.oyp = false := by
  have hcleared := step_masked_of_noOutputYield (y := id) (o := fun _ => false) ho hn rfl h
  have hsame : s.masked id (fun _ => false) id = s := by simp only [State.masked, id_eq, ← ho]
  rw [hsame, h] at hcleared
  have ht : t = t.masked id (fun _ => false) id := by injection hcleared
  exact congrArg State.oyp ht

/-- A step with OUTPUT_YIELD on and the latch clear leaves the latch clear and is the step without OUTPUT_YIELD, or it
is an output yield. -/
theorem step_latch_clear (hy : s.params.outputYield = true) (ho : s.oyp = false) (h : step s = .next t) :
    (t.oyp = false ∧ step s.withoutOutputYield = .next t.withoutOutputYield) ∨
      ∃ l w, s.status = .running ∧ fetchInstr s = .ok (.out l) ∧ readOperand s (s.bind l) 0 = .ok w ∧
        t = { s with outq := s.outq ++ [w], oyp := true, status := .halted } := by
  by_cases hyield : ∃ l w, s.status = .running ∧ fetchInstr s = .ok (.out l) ∧ readOperand s (s.bind l) 0 = .ok w
  · obtain ⟨l, w, hs, hf, hw⟩ := hyield
    cases ((step_of_fetch_ok hs hf).symm.trans h).symm.trans (runs_out.exec_of_quit (outHandler_of_yield hy ho hw))
    exact .inr ⟨l, w, hs, hf, hw, rfl⟩
  · have hn : NoOutputYield s := fun l hs hf => by
      cases hw : readOperand s (s.bind l) 0 with
      | ok w => exact absurd ⟨l, w, hs, hf, hw⟩ hyield
      | error e => exact ⟨e, rfl⟩
    exact .inl ⟨oyp_of_noOutputYield ho hn h,
      step_masked_of_noOutputYield (y := fun _ => false) (o := fun _ => false) ho hn rfl h⟩

/-- A step's result decides what the run returns, so runs whose next states correspond return corresponding states. -/
theorem runLoop_withoutOutputYield_of_step (hs : step s = .next v) (hu : step u = .next v.withoutOutputYield)
    (hrest : v.status = .running → runLoop n v = .returned r t →
      runLoop n v.withoutOutputYield = .returned r t.withoutOutputYield)
    (h : runLoop (n + 1) s = .returned r t) : runLoop (n + 1) u = .returned r t.withoutOutputYield := by
  by_cases hr : v.status = .running
  · rw [runLoop_of_step_running hs hr] at h
    rw [runLoop_of_step_running hu hr]
    exact hrest hr h
  · obtain ⟨rfl, rfl⟩ := runLoop_returned_of_step_stopped hs hr h
    exact runLoop_of_step_stopped hu hr

/-- A run that ends with the latch clear, having begun so, is the run without OUTPUT_YIELD. -/
theorem runLoop_latch_clear (hy : s.params.outputYield = true) (ho : s.oyp = false)
    (h : runLoop n s = .returned r t) (ht : t.oyp = false) :
    runLoop n s.withoutOutputYield = .returned r t.withoutOutputYield := by
  induction n generalizing s with
  | zero => cases h
  | succ n ih =>
    obtain ⟨v, hv⟩ := step_next s
    rcases step_latch_clear hy ho hv with ⟨hov, hv'⟩ | ⟨l, w, -, -, -, rfl⟩
    · have hyv : v.params.outputYield = true := by rw [(programsNeverChangeTheTable s v hv).2.1, hy]
      exact runLoop_withoutOutputYield_of_step hv hv' (fun _ hn => ih hyv hov hn) h
    · obtain ⟨rfl, -⟩ := runLoop_returned_of_step_stopped hv nofun h
      cases ht

/-- The state after `OutPush` of a word (42_io.md R161). -/
def State.withOutput (s : State) (w : Word) : State := { s with outq := s.outq ++ [w] }

section ResumedOut
variable {l : List Operand} {w : Word}

/-- The resumed OUT clears the latch and moves on from the state with its value pushed. -/
theorem step_resumed_out (hy : s.params.outputYield = true) (ho : s.oyp = false) (hs : s.status = .running)
    (hf : fetchInstr s = .ok (.out l)) :
    step { s with outq := s.outq ++ [w], oyp := true } =
      .next (movedTo s.ip (s.ip + 1 + l.length) (s.withOutput w)) := by
  have hfetch : fetchInstr { s with outq := s.outq ++ [w], oyp := true } = .ok (.out l) :=
    (fetchInstr_congr rfl rfl rfl).trans hf
  have hcleared : { s with outq := s.outq ++ [w], oyp := false } = s.withOutput w := by
    rw [State.withOutput, ← ho]
  have hexec : exec (.out l) { s with outq := s.outq ++ [w], oyp := true } =
      .next (movedTo s.ip (s.ip + 1 + l.length) { s with outq := s.outq ++ [w], oyp := false }) :=
    runs_out.exec_of_ok (outHandler_apply_resumed _ { s with outq := s.outq ++ [w], oyp := true } hy rfl)
  rw [step_of_fetch_ok (s := { s with outq := s.outq ++ [w], oyp := true }) hs hfetch, hexec, hcleared]

/-- OUT without OUTPUT_YIELD pushes its value and moves on at once. -/
theorem step_withoutOutputYield_out (hs : s.status = .running) (hf : fetchInstr s = .ok (.out l))
    (hw : readOperand s (s.bind l) 0 = .ok w) :
    step s.withoutOutputYield =
      .next (movedTo s.ip (s.ip + 1 + l.length) (s.withOutput w)).withoutOutputYield := by
  have hfetch : fetchInstr s.withoutOutputYield = .ok (.out l) := (fetchInstr_congr rfl rfl rfl).trans hf
  rw [withoutOutputYield_eq_masked (movedTo _ _ _), ← movedTo_masked]
  exact (step_of_fetch_ok (s := s.withoutOutputYield) hs hfetch).trans
    (runs_out.exec_of_ok (outHandler_of_plain (s := s.withoutOutputYield) rfl hw))

/-- The resumed OUT ends where the OUT that never yielded ends. -/
theorem runLoop_resumed_out (hy : s.params.outputYield = true) (ho : s.oyp = false)
    (hs : s.status = .running) (hf : fetchInstr s = .ok (.out l)) (hw : readOperand s (s.bind l) 0 = .ok w)
    (h : runLoop n { s with outq := s.outq ++ [w], oyp := true } = .returned r t) (ht : t.oyp = false) :
    runLoop n s.withoutOutputYield = .returned r t.withoutOutputYield := by
  cases n with
  | zero => cases h
  | succ n =>
    have hframe := (movedTo_frame (ip0 := s.ip) (a := s.ip + 1 + l.length) (u := s.withOutput w)).1
    refine runLoop_withoutOutputYield_of_step (step_resumed_out hy ho hs hf)
      (step_withoutOutputYield_out hs hf hw) (fun _ hn => runLoop_latch_clear ?_ ?_ hn ht) h
    · rw [hframe]
      exact hy
    · rw [hframe]
      exact ho

end ResumedOut

theorem runLoop_resumed_output (hy : s.params.outputYield = true) (ho : s.oyp = false)
    (h : runLoop n s = .returned .ok u) (hu : u.oyp = true)
    (hm : runLoop m { u with status := .running } = .returned r t) (ht : t.oyp = false) :
    runLoop (n + m) s.withoutOutputYield = .returned r t.withoutOutputYield := by
  induction n generalizing s with
  | zero => cases h
  | succ n ih =>
    obtain ⟨v, hv⟩ := step_next s
    rcases step_latch_clear hy ho hv with ⟨hov, hv'⟩ | ⟨l, w, hs, hf, hw, rfl⟩
    · by_cases hr : v.status = .running
      · rw [runLoop_of_step_running hv hr] at h
        rw [Nat.add_right_comm, runLoop_of_step_running hv' hr]
        exact ih (by rw [(programsNeverChangeTheTable s v hv).2.1, hy]) hov h
      · obtain ⟨rfl, -⟩ := runLoop_returned_of_step_stopped hv hr h
        cases hov.symm.trans hu
    · obtain ⟨rfl, -⟩ := runLoop_returned_of_step_stopped hv nofun h
      rw [Nat.add_comm]
      refine runLoop_mono (runLoop_resumed_out hy ho hs hf hw ?_ ht) (n + 1)
      rw [← hm, ← hs]

/-- Settles O57: up to the yield no step sees the queued input, or OUTPUT_YIELD; then the resumed run goes on. -/
theorem resumedRunEndsAsAnUninterruptedOne : Obligations.ResumedRunEndsAsAnUninterruptedOne := by
  refine ⟨fun s u t r l words n m hk hs hn hf _ hm => ?input, fun s u t r n m hs hy ho hn hu hm ht => ?output⟩
  case input =>
    have hn' := runLoop_of_run hs hn
    have hu := runLoop_returned_ok hn'
    have hm' := runLoop_of_run (s := u.withInput words) hu hm
    rw [run_of_halted (s := s.withInput words) hs]
    exact congrArg _ (runLoop_resumed_input (s := { s with status := .running }) hk rfl hn' hf hm')
  case output =>
    have hn' := runLoop_of_run hs hn
    have hm' := runLoop_of_run (runLoop_returned_ok hn') hm
    rw [run_of_halted (s := s.withoutOutputYield) hs]
    exact congrArg _ (runLoop_resumed_output (s := { s with status := .running }) hy ho hn' hu hm' ht)

end Sys2Proof.Machine

/-! Proofs about the host's commands: REGISTER and the channels (40_execution_loop.md R111, R132), construction from an
image and from a text (20_memory.md R72-R74), and the register map (10_state.md R36, R37). -/

namespace Sys2Proof.Machine

variable {cs : List Char} {ch : Char}

/-! ### Decimal spellings -/

theorem digitValue_of_isDigit (h : ch.isDigit = true) : digitValue ch = some (ch.toNat - '0'.toNat) :=
  if_pos (Char.isDigit_iff_toNat.1 h)

theorem digitsValue_eq_ofDigitChars (h : ∀ ch ∈ cs, ch.isDigit = true) (acc : Nat) :
    digitsValue acc cs = some (Nat.ofDigitChars 10 cs acc) := by
  induction cs generalizing acc with
  | nil => rfl
  | cons ch rest ih =>
    obtain ⟨hch, hrest⟩ := List.forall_mem_cons.1 h
    simp only [digitsValue, digitValue_of_isDigit hch, ih hrest, Nat.ofDigitChars_cons]

theorem isDigit_of_mem_toDigits {n : Nat} (h : ch ∈ Nat.toDigits 10 n) : ch.isDigit = true :=
  Nat.isDigit_of_mem_toDigits (by decide) (by decide) h

theorem naturalValue_toDigits (n : Nat) : naturalValue (Nat.toDigits 10 n) = some n := by
  have hvalue := digitsValue_eq_ofDigitChars (fun _ => isDigit_of_mem_toDigits (n := n)) 0
  rw [Nat.ofDigitChars_toDigits (by decide) (by decide)] at hvalue
  rw [← hvalue]
  cases hd : Nat.toDigits 10 n with
  | nil => exact absurd hd Nat.toDigits_ne_nil
  | cons ch rest => rfl

/-- A list that begins with a digit has no sign. -/
theorem integerValue_of_isDigit (h : ch.isDigit = true) :
    integerValue (ch :: cs) = (naturalValue (ch :: cs)).map fun n => (n : Int) := by
  have hminus : ch ≠ '-' := by rintro rfl; exact absurd h (by decide)
  have hplus : ch ≠ '+' := by rintro rfl; exact absurd h (by decide)
  rw [integerValue, if_neg hminus, if_neg hplus]

theorem integerValue_spellInt (v : Int) : integerValue (spellInt v) = some v := by
  unfold spellInt
  by_cases hv : v < 0
  · rw [if_pos hv, integerValue, if_pos rfl, naturalValue_toDigits]
    change some (-(v.natAbs : Int)) = some v
    exact congrArg some (by omega)
  · rw [if_neg hv]
    have hvalue := naturalValue_toDigits v.natAbs
    have hdigit (ch : Char) := isDigit_of_mem_toDigits (ch := ch) (n := v.natAbs)
    cases hd : Nat.toDigits 10 v.natAbs with
    | nil => exact absurd hd Nat.toDigits_ne_nil
    | cons ch rest =>
      rw [hd] at hvalue hdigit
      rw [integerValue_of_isDigit (hdigit ch List.mem_cons_self), hvalue]
      change some (v.natAbs : Int) = some v
      exact congrArg some (by omega)

theorem mem_spellInt {v : Int} (h : ch ∈ spellInt v) : ch = '-' ∨ ch.isDigit = true := by
  unfold spellInt at h
  split at h
  · rcases List.mem_cons.1 h with rfl | h
    · exact .inl rfl
    · exact .inr (isDigit_of_mem_toDigits h)
  · exact .inr (isDigit_of_mem_toDigits h)

theorem ne_comma_of_mem_spellInt {v : Int} (h : ch ∈ spellInt v) : ch ≠ ',' := by
  rintro rfl
  rcases mem_spellInt h with h | h <;> exact absurd h (by decide)

theorem not_blank_of_mem_spellInt {v : Int} (h : ch ∈ spellInt v) : isBlankChar ch = false := by
  rcases mem_spellInt h with rfl | h
  · decide
  · have hge : 48 ≤ ch.toNat := (Char.isDigit_iff_toNat.1 h).1
    simp only [isBlankChar, Bool.or_eq_false_iff, beq_eq_false_iff_ne, Bool.and_eq_false_iff, decide_eq_false_iff_not]
    omega

theorem dropWhile_blank_eq_self (h : ∀ ch ∈ cs, isBlankChar ch = false) : cs.dropWhile isBlankChar = cs :=
  List.dropWhile_eq_self_iff.2 fun _ => by simp [h _ (List.getElem_mem _)]

theorem trimToken_spellInt (v : Int) : trimToken (spellInt v) = spellInt v := by
  rw [trimToken, dropWhile_blank_eq_self fun _ => not_blank_of_mem_spellInt,
    dropWhile_blank_eq_self fun ch h => not_blank_of_mem_spellInt (List.mem_reverse.1 h), List.reverse_reverse]

theorem tokenWord_spellInt {p : Params} {v : Int} (h : InWord p.wordBits v) : tokenWord p (spellInt v) = some v := by
  simp only [tokenWord, trimToken_spellInt, integerValue_spellInt, if_pos h]

/-! ### Tokens -/

theorem splitAtCommas_of_ne_comma (h : ∀ ch ∈ cs, ch ≠ ',') : splitAtCommas cs = [cs] := by
  induction cs with
  | nil => rfl
  | cons ch rest ih =>
    obtain ⟨hch, hrest⟩ := List.forall_mem_cons.1 h
    simp only [splitAtCommas, if_neg hch, ih hrest]

theorem splitAtCommas_append_comma (h : ∀ ch ∈ cs, ch ≠ ',') (rest : List Char) :
    splitAtCommas (cs ++ ',' :: rest) = cs :: splitAtCommas rest := by
  induction cs with
  | nil => rfl
  | cons ch more ih =>
    obtain ⟨hch, hmore⟩ := List.forall_mem_cons.1 h
    simp only [List.cons_append, splitAtCommas, if_neg hch, ih hmore]

theorem splitAtCommas_spellImage {image : List Int} (h : image ≠ []) :
    splitAtCommas (spellImage image) = image.map spellInt := by
  induction image with
  | nil => exact absurd rfl h
  | cons v rest ih =>
    cases rest with
    | nil => exact splitAtCommas_of_ne_comma fun _ => ne_comma_of_mem_spellInt
    | cons w more =>
      change splitAtCommas (spellInt v ++ ',' :: spellImage (w :: more)) = _
      rw [splitAtCommas_append_comma fun _ => ne_comma_of_mem_spellInt, ih (List.cons_ne_nil w more)]
      rfl

theorem tokenWords_map_spellInt {p : Params} {image : List Word} (h : ∀ w ∈ image, InWord p.wordBits w) (j : Nat) :
    tokenWords p j (image.map spellInt) = .ok image := by
  induction image generalizing j with
  | nil => rfl
  | cons v rest ih =>
    obtain ⟨hv, hrest⟩ := List.forall_mem_cons.1 h
    simp only [List.map_cons, tokenWords, tokenWord_spellInt hv, ih hrest]

/-- The first token that is no word ends the reading. -/
theorem tokenWords_of_first_bad {p : Params} {tokens : List (List Char)} {j : Nat} {token : List Char} (j0 : Nat)
    (hj : tokens[j]? = some token) (hbad : tokenWord p token = none)
    (hgood : ∀ i u, i < j → tokens[i]? = some u → tokenWord p u ≠ none) :
    tokenWords p j0 tokens = .error (.parse (j0 + j) token) := by
  induction tokens generalizing j j0 with
  | nil => cases hj
  | cons first rest ih =>
    cases j with
    | zero =>
      cases hj
      simp only [tokenWords, hbad, Nat.add_zero]
    | succ j =>
      obtain ⟨w, hw⟩ := Option.ne_none_iff_exists'.1 (hgood 0 first (Nat.succ_pos j) rfl)
      have hrest := ih (j0 + 1) hj fun i u hi hu => hgood (i + 1) u (Nat.succ_lt_succ hi) hu
      simp only [tokenWords, hw, hrest, Nat.add_assoc, Nat.add_comm 1]

/-- Settles O53: the tokens are the spellings, and each reads as its word. -/
theorem loadTextOfTheSpellingIsLoadImage : Obligations.LoadTextOfTheSpellingIsLoadImage := by
  intro p image policy hne hw
  simp only [loadText, splitAtCommas_spellImage hne, tokenWords_map_spellInt hw]

/-- Settles O54: the tokens are read in order. -/
theorem loadTextReportsTheFirstBadToken : Obligations.LoadTextReportsTheFirstBadToken := by
  intro p text policy j token hj hbad hgood
  simp only [loadText, tokenWords_of_first_bad 0 hj hbad hgood, Nat.zero_add]

/-! ### Images and channels -/

theorem map_wrapWord_of_inWord {bits : Nat} (hb : 1 ≤ bits) {image : List Word} (h : ∀ w ∈ image, InWord bits w) :
    image.map (wrapWord bits) = image := by
  rw [List.map_congr_left fun w hw => wrapWord_of_inWord hb (h w hw), List.map_id']

/-- The cells of an image's memory, in order, are the image. -/
theorem map_cell_imageMemory (image : List Word) (policy : MemPolicy) :
    (List.range image.length).map (Memory.cell ⟨imageCells 0 image, image.length, policy⟩) = image := by
  refine List.ext_getElem (by simp) fun j hj hj' => ?_
  have hcell := cellAt_imageCells 0 image j
  rw [Nat.zero_add] at hcell
  rw [List.getElem_map, List.getElem_range, (imageMemory_wf image policy).cell_eq, hcell,
    List.getD_eq_getElem _ _ hj']

/-- Settles O52: the image's words are kept as they are, and the rest is the reset state. -/
theorem loadImageResetsEverything : Obligations.LoadImageResetsEverything := by
  intro p image policy hb hw
  refine ⟨?_, rfl, rfl, rfl, rfl, rfl, rfl, rfl, rfl, rfl, fun c => Vector.getElem_replicate c.isLt⟩
  have hs : (loadImage p image policy).status ≠ .running := nofun
  rw [readImage, betweenRuns_of_not_running hs, loadImage, map_wrapWord_of_inWord hb hw]
  exact congrArg (fun words => Except.ok (image.length, words)) (map_cell_imageMemory image policy)

/-- Settles O60: between runs the guard is open, and while RUNNING it is closed to all. -/
theorem hostChannelsAreQueues : Obligations.HostChannelsAreQueues := by
  intro s v
  refine ⟨fun hs hb hv => ?push, fun hs hq => ?empty, fun w rest hs hq => ?pop,
    fun hs => ⟨betweenRuns_of_running hs _, betweenRuns_of_running hs _, betweenRuns_of_running hs _,
      fun _ _ _ => betweenRuns_of_running hs _⟩⟩
  case push => rw [pushInput, betweenRuns_of_not_running hs, wrapWord_of_inWord hb hv, State.withInput]
  case empty => simp only [popOutput, betweenRuns_of_not_running hs, hq]
  case pop => simp only [popOutput, betweenRuns_of_not_running hs, hq]

/-! ### REGISTER -/

/-- The numbers that are the code of no kind (10_state.md R37, log 9). -/
theorem kindOfCode_of_invalid {code : Nat} (h : code = 0 ∨ (11 ≤ code ∧ code < 0x8000) ∨ 0x10000 ≤ code) :
    kindOfCode code = none := by
  have hcustom : ¬ (0x8000 ≤ code ∧ code - 0x8000 < 0x8000) := by omega
  unfold kindOfCode
  split
  case h_11 => exact dif_neg hcustom
  all_goals omega

theorem code_of_mem_kinds {code : Nat} {kind : HandlerKind}
    (h : (code, kind) ∈ [(1, HandlerKind.add), (2, HandlerKind.mul), (3, HandlerKind.inp), (4, HandlerKind.out),
        (5, HandlerKind.jt), (6, HandlerKind.jf), (7, HandlerKind.lt), (8, HandlerKind.eq), (9, HandlerKind.arb),
        (10, HandlerKind.halt)] ∨ ∃ k : Fin 0x8000, code = 0x8000 + k.val ∧ kind = .custom k) :
    code = kind.code := by
  rcases h with h | ⟨k, rfl, rfl⟩
  · have hall : ∀ e ∈ [(1, HandlerKind.add), (2, HandlerKind.mul), (3, HandlerKind.inp), (4, HandlerKind.out),
        (5, HandlerKind.jt), (6, HandlerKind.jf), (7, HandlerKind.lt), (8, HandlerKind.eq), (9, HandlerKind.arb),
        (10, HandlerKind.halt)], e.1 = e.2.code := by decide
    exact hall _ h
  · rfl

/-- Settles O50: the two checks, and the one entry that is set. -/
theorem registerReplacesOneEntry : Obligations.RegisterReplacesOneEntry := by
  intro s c n hs
  refine ⟨fun code hc => ?opcode, fun code hcode => ?kind, fun hc code kind hk => ?registered⟩
  case opcode => rw [register, betweenRuns_of_not_running hs, if_pos hc]
  case kind => simp only [register, betweenRuns_of_not_running hs, kindOfCode_of_invalid hcode, ite_self]
  case registered =>
    rw [code_of_mem_kinds hk]
    exact ⟨_, register_kind_code hs hc ⟨n, kind⟩, rfl, lutSet_same s.lut hc ⟨n, kind⟩,
      fun d hd => lutSet_other s.lut d.isLt (Ne.symm hd) ⟨n, kind⟩⟩

/-! ### The register map -/

theorem handlerKind_code_lt (k : HandlerKind) : k.code < 2 ^ 16 := by
  cases k with
  | custom k => exact Nat.add_lt_add_left k.isLt 0x8000
  | _ => decide

theorem toNat_append_eq_add {a b : Nat} (x : BitVec a) (z : BitVec b) :
    (x ++ z).toNat = 2 ^ b * x.toNat + z.toNat := by
  rw [BitVec.toNat_append, ← Nat.shiftLeft_add_eq_or_of_lt z.isLt, Nat.shiftLeft_eq, Nat.mul_comm]

/-- The fields of a packed entry do not overlap (10_state.md R36). -/
theorem lutWord_toNat (r : Registration) :
    (lutWord (some r)).toNat = 1 + 2 * r.arity.val + 65536 * r.kind.code := by
  have hcode := Nat.mod_eq_of_lt (handlerKind_code_lt r.kind)
  have harity : r.arity.val % 2 ^ 8 = r.arity.val := Nat.mod_eq_of_lt r.arity.isLt
  simp only [lutWord, toNat_append_eq_add, BitVec.toNat_ofNat, hcode, harity]
  omega

/-- From 9 on the map holds the table's registers only. -/
theorem registerValue_of_nine_le {s : State} {r : Nat} (h : 9 ≤ r) : registerValue s r = lutRegister s.lut r := by
  unfold registerValue
  split
  case h_10 => rfl
  all_goals omega

theorem lutRegister_of_opcode (lut : Lut) (c : Fin 100) : lutRegister lut (0x100 + c) = (lutWord lut[c]).toNat := by
  simp [lutRegister, lutRegisterBase]

theorem lutRegister_of_outside (lut : Lut) {r : Nat} (h : r < 0x100 ∨ 0x164 ≤ r) : lutRegister lut r = 0 := by
  unfold lutRegister lutRegisterBase
  split
  · exact if_neg (by omega)
  · rfl

theorem readReg_of_not_running {s : State} (hs : s.status ≠ .running) (r : Nat) :
    readReg r s = .ok (registerValue s r) := betweenRuns_of_not_running hs _

/-- Settles O55: each number of the map, then the table's registers, then the numbers outside. -/
theorem readRegFollowsTheMap : Obligations.ReadRegFollowsTheMap := by
  intro s hs
  simp only [readReg_of_not_running hs, Except.ok.injEq]
  refine ⟨?status, rfl, rfl, ?cause, rfl, rfl, rfl, ?policy, rfl, fun c => ?entry, fun n hn => ?outside⟩
  case status =>
    rw [registerValue]
    cases s.status <;> rfl
  case cause =>
    rw [registerValue, FaultRecord.code]
    cases s.fault.cause with
    | none => rfl
    | some cause => cases cause <;> rfl
  case policy =>
    rw [registerValue]
    cases s.mem.policy <;> rfl
  case entry =>
    rw [registerValue_of_nine_le (by omega), lutRegister_of_opcode]
    cases s.lut[c] with
    | none => rfl
    | some r =>
      rw [lutWord_toNat]
      obtain ⟨arity, kind⟩ := r
      cases kind <;> rfl
  case outside =>
    rw [registerValue_of_nine_le (by omega), lutRegister_of_outside _ (by omega)]
    rfl

end Sys2Proof.Machine

/-! Proof that machines share nothing and run one at a time (60_exceptions.md R222, 40_execution_loop.md R132, R133). -/

namespace Sys2Proof.Machine

variable {w w' : World} {g h : Nat} {s t : State} {c : HostCommand} {a : HostAnswer}

/-! ### Between runs -/

theorem inProgress_of_running (hs : w.machine g = some s) (hr : s.status = .running) : w.inProgress = true :=
  (inProgress_iff w).2 ⟨g, s, hs, hr⟩

theorem not_running_of_not_inProgress (hw : w.inProgress = false) (hs : w.machine g = some s) :
    s.status ≠ .running := fun hr => Bool.false_ne_true (hw.symm.trans (inProgress_of_running hs hr))

theorem command_of_ok (hw : w.inProgress = false) (hs : w.machine h = some s) (hc : applyCommand c s = .ok (a, t)) :
    w.command h c = .ok (a, w.set h (some t)) := by
  rw [World.command, betweenRuns_machine hw hs, hc]
  rfl

theorem command_of_error {e : HostError} (hw : w.inProgress = false) (hs : w.machine h = some s)
    (hc : applyCommand c s = .error e) : w.command h c = .error e := by
  rw [World.command, betweenRuns_machine hw hs, hc]
  rfl

theorem drop_of_machine (hw : w.inProgress = false) (hs : w.machine h = some s) :
    w.drop h = .ok (w.set h none) := betweenRuns_machine hw hs _

/-- Setting one machine changes no other; the handle need not name a machine for that. -/
theorem machine_set_cases {m : Option State} (hs : World.machine (w.set h m) g = some s) :
    g = h ∨ w.machine g = some s := by
  by_cases hg : g = h
  · exact .inl hg
  · exact .inr ((machine_set_other hg m).symm.trans hs)

theorem inProgress_set_of_not_running (hw : w.inProgress = false) (hs : w.machine h = some s)
    (ht : t.status ≠ .running) : World.inProgress (w.set h (some t)) = false := by
  refine Bool.eq_false_iff.2 fun hp => ?_
  obtain ⟨g, u, hu, hr⟩ := (inProgress_iff _).1 hp
  rcases machine_set_cases hu with rfl | hu'
  · cases (machine_set_same hs (some t)).symm.trans hu
    exact ht hr
  · exact not_running_of_not_inProgress hw hu' hr

/-! ### One machine runs at a time -/

theorem oneRuns_set (hw : w.inProgress = false) (h : Nat) (m : Option State) : World.oneRuns (w.set h m) := by
  have at_handle {g : Nat} {s : State} (hs : World.machine (w.set h m) g = some s) (hr : s.status = .running) :
      g = h := by
    rcases machine_set_cases hs with hg | hs
    · exact hg
    · exact absurd hr (not_running_of_not_inProgress hw hs)
  exact fun g g' s t hs ht hsr htr => (at_handle hs hsr).trans (at_handle ht htr).symm

/-- A new machine is not RUNNING, so the one that runs stays the only one. -/
theorem oneRuns_append (hone : w.oneRuns) (hs : s.status ≠ .running) : World.oneRuns (w ++ [some s]) := by
  have old {g : Nat} {u : State} (hu : World.machine (w ++ [some s]) g = some u) (hr : u.status = .running) :
      w.machine g = some u := by
    have hlt := lt_length_of_machine hu
    rw [List.length_append, List.length_singleton] at hlt
    rcases Nat.lt_or_eq_of_le (Nat.le_of_lt_succ hlt) with hg | rfl
    · exact (machine_append_left hg).symm.trans hu
    · cases (machine_append_new w (some s)).symm.trans hu
      exact absurd hr hs
  exact fun g g' u v hu hv hur hvr => hone g g' u v (old hu hur) (old hv hvr) hur hvr

/-- The first machine that is RUNNING takes the step. -/
theorem machine_step_of_first_running (hs : w.machine h = some s) (hr : s.status = .running)
    (hfirst : ∀ g u, g < h → w.machine g = some u → u.status ≠ .running) :
    (World.step w).machine h = some (steppedMachine s) := by
  induction w generalizing h with
  | nil => cases (machine_of_length_le (w := []) (Nat.zero_le h)).symm.trans hs
  | cons m rest ih =>
    cases h with
    | zero =>
      have hm : m = some s := by simpa [World.machine] using hs
      subst hm
      rw [World.step, if_pos hr]
      rfl
    | succ h =>
      have hrest : (World.step rest).machine h = some (steppedMachine s) :=
        ih hs fun g u hg hu => hfirst (g + 1) u (Nat.succ_lt_succ hg) hu
      cases m with
      | none => exact hrest
      | some u =>
        rw [World.step, if_neg (hfirst 0 u (Nat.succ_pos h) rfl)]
        exact hrest

/-- The world's step is the running machine's, and no other machine changes. -/
theorem machine_step_of_oneRuns (hone : w.oneRuns) (hs : w.machine h = some s) (hr : s.status = .running)
    (hstep : Machine.step s = .next t) :
    (World.step w).machine h = some t ∧ ∀ g, g ≠ h → (World.step w).machine g = w.machine g := by
  refine ⟨?_, fun g hg => ?_⟩
  · have hstepped : steppedMachine s = t := by simp only [steppedMachine, hstep]
    rw [machine_step_of_first_running hs hr fun g u hg hu hur => ?_, hstepped]
    exact hg.ne (hone g h u s hu hs hur hr)
  · rcases machine_step g with hsame | ⟨u, hu, hur, -⟩
    · exact hsame
    · exact absurd (hone g h u s hu hs hur hr) hg

/-- A machine that is RUNNING after the world's step was RUNNING before it. -/
theorem running_before_step (ht : (World.step w).machine g = some t) (hr : t.status = .running) :
    ∃ s, w.machine g = some s ∧ s.status = .running := by
  rcases machine_step g with hsame | ⟨s, hs, hsr, -⟩
  · exact ⟨t, hsame.symm.trans ht, hr⟩
  · exact ⟨s, hs, hsr⟩

theorem oneRuns_step (hone : w.oneRuns) : (World.step w).oneRuns := by
  intro g g' s t hs ht hsr htr
  obtain ⟨s0, hs0, hr0⟩ := running_before_step hs hsr
  obtain ⟨t0, ht0, hr0'⟩ := running_before_step ht htr
  exact hone g g' s0 t0 hs0 ht0 hr0 hr0'

theorem oneRuns_command (hc : w.command h c = .ok (a, w')) : w'.oneRuns := by
  obtain ⟨hw, s, t, -, -, rfl⟩ := command_eq_ok hc
  exact oneRuns_set hw h (some t)

theorem oneRuns_drop (hd : w.drop h = .ok w') : w'.oneRuns := by
  obtain ⟨hw, s, -, rfl⟩ := drop_eq_ok hd
  exact oneRuns_set hw h none

theorem oneRuns_loadText {p : Params} {text : List Char} {policy : MemPolicy} (hone : w.oneRuns)
    (hl : w.loadText p text policy = .ok w') : w'.oneRuns := by
  unfold World.loadText Machine.loadText at hl
  split at hl
  · cases hl
  · cases hl
    exact oneRuns_append hone nofun

/-! ### Moving an output -/

theorem moveOutput_of_output {v : Word} {rest : List Word} (hw : w.inProgress = false) (hg : g ≠ h)
    (hs : w.machine h = some s) (ht : w.machine g = some t) (hq : s.outq = v :: rest) (hb : 1 ≤ t.params.wordBits)
    (hv : InWord t.params.wordBits v) :
    w.moveOutput h g =
      .ok ((w.set h (some { s with outq := rest })).set g (some { t with inq := t.inq ++ [v] })) := by
  have hsr := not_running_of_not_inProgress hw hs
  have htr := not_running_of_not_inProgress hw ht
  have hpop : w.command h .popOutput = .ok (.output (some v), w.set h (some { s with outq := rest })) := by
    refine command_of_ok hw hs ?_
    simp only [applyCommand, popOutput, betweenRuns_of_not_running hsr, hq, Except.map]
  have hpush : World.command (w.set h (some { s with outq := rest })) g (.pushInput v) =
      .ok (.done, (w.set h (some { s with outq := rest })).set g (some { t with inq := t.inq ++ [v] })) := by
    refine command_of_ok (inProgress_set_of_not_running hw hs hsr) ((machine_set_other hg _).trans ht) ?_
    simp only [applyCommand, pushInput, betweenRuns_of_not_running htr, wrapWord_of_inWord hb hv, Except.map]
  rw [World.moveOutput, betweenRuns_machine hw ht, hpop]
  simp only [hpush, Except.map]

/-- Settles O59: every operation changes the machine of its handle, and only what is not RUNNING is acted on. -/
theorem machinesShareNothing : Obligations.MachinesShareNothing := by
  intro w h
  refine ⟨fun s c hw hs => ⟨fun a t hc => ?command, fun e => command_of_error hw hs, ?drop⟩, fun g s hs hr => ?refused,
    fun hone => ⟨fun s t hs hr => machine_step_of_oneRuns hone hs hr, oneRuns_step hone, fun c a w' => oneRuns_command,
      fun w' => oneRuns_drop, fun p image policy => oneRuns_append hone nofun,
      fun p text policy w' => oneRuns_loadText hone⟩, fun g s t v rest hw hg hs ht hq hb hv => ?move⟩
  case command =>
    exact ⟨_, command_of_ok hw hs hc, machine_set_same hs _, fun g hg => machine_set_other hg _⟩
  case drop => exact ⟨_, drop_of_machine hw hs, machine_set_same hs _, fun g hg => machine_set_other hg _⟩
  case refused =>
    have hw := inProgress_of_running hs hr
    exact ⟨betweenRuns_inProgress hw _ _, fun c => betweenRuns_inProgress hw _ _,
      fun target => betweenRuns_inProgress hw _ _⟩
  case move =>
    refine ⟨_, moveOutput_of_output hw hg hs ht hq hb hv, ?_, ?_, fun j hj hjg => ?_⟩
    · rw [machine_set_other hg.symm, machine_set_same hs]
    · rw [machine_set_same ((machine_set_other hg _).trans ht)]
    · rw [machine_set_other hjg, machine_set_other hj]

end Sys2Proof.Machine
